-- ==== Sys2Proof/Word.lean ====
section
/-!
DEFINITION. The widths of the block (00_scope.md R5, "Fixed widths"): a byte, a 16-bit word, the 64-bit cycle count.
-/

namespace Sys2Proof

/-- An unsigned byte: a register, a memory cell, an opcode (R6). -/
abbrev Byte := BitVec 8

/-- A 16-bit word: the program counter and every address (R6, R20). -/
abbrev Word := BitVec 16

/-- The 64-bit count of counted accesses (R21). -/
abbrev Cycles := BitVec 64

end Sys2Proof
end

