-- ==== Sys2Proof/Config.lean ====
section
/-!
DEFINITION. What is fixed for one machine: the implementation parameters of 00_scope.md R5, as plain data, with the
spec's defaults; the plain data a listener, a callback's action and a device event are made of; and the free values
(constants with no body) that stand for what the spec leaves open. METADATA and SEMANTICS are not here: their defaults
are Decode.lean's table and the meanings, and Machine/Pipeline.lean takes any other (notes/assumptions/2.md).
-/

namespace Sys2Proof

/-- A memory zone `(start, length, mirrors)` (20_memory.md R41). -/
structure Zone where
  start   : Nat
  length  : Nat
  mirrors : List Nat
  deriving DecidableEq, Repr

/-- An address range `[start, start + length)` owned by a device, which `device` names (20_memory.md R44). -/
structure DeviceRange where
  start  : Nat
  length : Nat
  device : Nat
  deriving DecidableEq, Repr

/-- ZP_INDEX_MODE (R5, R112; 92_eei_decisions.md D8). -/
inductive ZpIndexMode where
  | wrap8
  | signedSource
  deriving DecidableEq, Repr

/-- ABS_INDEX_OVERFLOW (R5, R104; D10). -/
inductive AbsIndexOverflow where
  | wrap16
  | fault
  deriving DecidableEq, Repr

/-- RESET_MEMORY (R5, R292; D18). -/
inductive ResetMemory where
  | unspecified
  | preserved
  deriving DecidableEq, Repr

/-- DECIMAL_RESULT (R5; D26, 93_implementation_defined.md I14). -/
inductive DecimalResult where
  | nmosAlgorithm
  | hostOracle
  deriving DecidableEq, Repr

/-- The implementation parameters of R5 that are data. -/
structure Config where
  capacity         : Nat
  zones            : List Zone
  devices          : List DeviceRange
  zpIndexMode      : ZpIndexMode
  zpPointerWrap    : Bool
  absIndexOverflow : AbsIndexOverflow
  indirectPageBug  : Bool
  resetMemory      : ResetMemory
  decimalResult    : DecimalResult
  deriving DecidableEq, Repr

/-- The defaults of R5: the configuration the spec describes. -/
def Config.default : Config :=
  { capacity := 65536, zones := [], devices := [], zpIndexMode := .wrap8, zpPointerWrap := true,
    absIndexOverflow := .wrap16, indirectPageBug := false, resetMemory := .unspecified,
    decimalResult := .nmosAlgorithm }

/-- A pending cycle listener `(target, seq, id)` (10_state.md R22). -/
structure Listener where
  target : Cycles
  seq    : Nat
  id     : Nat
  deriving DecidableEq, Repr

/-- What has reached a device: an access routed to it (R44), or a change a callback made to its state (R66). `addr` is
the resolved address of R45. -/
inductive DeviceEvent where
  | read    (device addr : Nat)
  | write   (device addr : Nat) (v : Byte)
  | changed (device tag : Nat)
  deriving DecidableEq, Repr

/-- One thing a listener callback may do (R66): the host's uncounted memory operations, a change of device state, the
registration of a listener. A callback that would write registers, pc, cycles or the fault status is outside the model
by R66, and no action here does. -/
inductive HostAction where
  | read         (a : Word)
  | read16       (a : Word)
  | write        (a : Word) (v : Byte)
  | writeArray   (start : Word) (bytes : List Byte) (length : Nat)
  | addListener  (target : Cycles) (id : Nat)
  | changeDevice (device tag : Nat)
  deriving DecidableEq, Repr

/-- What a callback's effect may depend on: the count it sees (R65), the memory and the device history, and the number
of free values drawn before it, which stands for the host's own unseen state. -/
structure CallbackView where
  cycles : Cycles
  mem    : List Host.Cell
  epoch  : Nat
  log    : List DeviceEvent
  draws  : Nat
  deriving DecidableEq, Repr

/-- A free answer of DECIMAL_RESULT = host oracle: A and the flags ADC or SBC writes (I14). -/
structure DecimalAnswer where
  value : Byte
  c     : Bool
  z     : Bool
  v     : Bool
  n     : Bool
  deriving DecidableEq, Repr, Inhabited

/-- The two operations DECIMAL_RESULT concerns (R180, R181). -/
inductive DecimalOp where
  | adc
  | sbc
  deriving DecidableEq, Repr

/-- FREE VALUE: the byte of a backing cell that nothing has written since the store took unspecified contents for the
`epoch`-th time (R40, R292; I1, I2; notes/assumptions/4.md). -/
opaque Config.unwrittenByte (epoch addr : Nat) : Byte

/-- FREE VALUE: the device oracle of R44 (I13; notes/assumptions/6.md). It may depend on all that has reached the devices
and on the count. -/
opaque Config.deviceByte (device addr : Nat) (now : Cycles) (log : List DeviceEvent) : Byte

/-- FREE VALUE: the parameter LISTENER_EFFECT (R5, R66; I15; notes/assumptions/7.md): what the callback of a fired
listener does, in order. -/
opaque Config.listenerEffect (l : Listener) (view : CallbackView) : List HostAction

/-- FREE VALUE: the byte number `index` of a bulk load whose length is above that of its byte list (R47 does not state
`bytes[k]` there; notes/assumptions/12.md). -/
opaque Config.missingByte (draw index : Nat) : Byte

/-- FREE VALUE: DECIMAL_RESULT = host oracle (R5; I14; notes/assumptions/8.md). -/
opaque Config.decimalOracle (draw : Nat) (op : DecimalOp) (a m : Byte) (c : Bool) : DecimalAnswer

end Sys2Proof
end

