-- ==== Sys2Proof/Syntax.lean ====
section
/-!
DEFINITION. The instructions: one constructor of `Instr` per documented row of spec/opcode_table.json, named by its
mnemonic and its addressing mode, and one for the 105 UNIMPLEMENTED rows, which share one rule. An operand is the byte
or the little-endian word that follows the opcode (30_encoding.md R81, R83).

Mode suffixes: Imm Immediate, Zp ZeroPage, ZpX ZeroPageX, ZpY ZeroPageY, Abs Absolute, AbsX AbsoluteX, AbsY AbsoluteY,
Ind Indirect, IndX IndexedIndirect "(zp,X)", IndY IndirectIndexed "(zp),Y", Acc Accumulator; Implied, Relative and JSR
have none.
-/

namespace Sys2Proof

/-- The thirteen addressing modes (R82). -/
inductive Mode where
  | absolute
  | absoluteX
  | absoluteY
  | accumulator
  | immediate
  | implied
  | indexedIndirect
  | indirect
  | indirectIndexed
  | relative
  | zeroPage
  | zeroPageX
  | zeroPageY
  deriving DecidableEq, Repr

/-- The 56 documented mnemonics (R86, R87). -/
inductive Mnemonic where
  | lda | ldx | ldy | sta | stx | sty
  | tax | tay | txa | tya | tsx | txs | pha | php | pla | plp
  | adc | sbc | cmp | cpx | cpy | inc | dec | inx | iny | dex | dey
  | and | ora | eor | bit | asl | lsr | rol | ror
  | jmp | jsr | rts | rti | brk | bcc | bcs | beq | bmi | bne | bpl | bvc | bvs
  | clc | cld | cli | clv | sec | sed | sei | nop
  deriving DecidableEq, Repr

/-- An entry of METADATA that is not UNIMPLEMENTED: name, mode and size in bytes (R80, R86). DESIGN CHOICE
(notes/assumptions/17.md): R5 says of a table's names only that they are names; here every table takes them from the 56
documented mnemonics, and no step depends on them. DESIGN CHOICE (notes/assumptions/21.md): R80 quotes the size of an entry
as 1 to 3; here a table may give any number, and it is what pc advances by. -/
structure Entry where
  name : Mnemonic
  mode : Mode
  size : Nat
  deriving DecidableEq, Repr

/-- An instruction with its operand bytes. -/
inductive Instr where
  -- 41_load_store.md
  /-- 0xA1, `LDA ($nn,X)` (R140). -/
  | ldaIndX (zp : Byte)
  /-- 0xA5, `LDA $nn` (R140). -/
  | ldaZp (zp : Byte)
  /-- 0xA9, `LDA #$nn` (R140). -/
  | ldaImm (v : Byte)
  /-- 0xAD, `LDA $hhll` (R140). -/
  | ldaAbs (addr : Word)
  /-- 0xB1, `LDA ($nn),Y` (R140). -/
  | ldaIndY (zp : Byte)
  /-- 0xB5, `LDA $nn,X` (R140). -/
  | ldaZpX (zp : Byte)
  /-- 0xB9, `LDA $hhll,Y` (R140). -/
  | ldaAbsY (addr : Word)
  /-- 0xBD, `LDA $hhll,X` (R140). -/
  | ldaAbsX (addr : Word)
  /-- 0xA2, `LDX #$nn` (R141). -/
  | ldxImm (v : Byte)
  /-- 0xA6, `LDX $nn` (R141). -/
  | ldxZp (zp : Byte)
  /-- 0xAE, `LDX $hhll` (R141). -/
  | ldxAbs (addr : Word)
  /-- 0xB6, `LDX $nn,Y` (R141). -/
  | ldxZpY (zp : Byte)
  /-- 0xBE, `LDX $hhll,Y` (R141). -/
  | ldxAbsY (addr : Word)
  /-- 0xA0, `LDY #$nn` (R142). -/
  | ldyImm (v : Byte)
  /-- 0xA4, `LDY $nn` (R142). -/
  | ldyZp (zp : Byte)
  /-- 0xAC, `LDY $hhll` (R142). -/
  | ldyAbs (addr : Word)
  /-- 0xB4, `LDY $nn,X` (R142). -/
  | ldyZpX (zp : Byte)
  /-- 0xBC, `LDY $hhll,X` (R142). -/
  | ldyAbsX (addr : Word)
  /-- 0x81, `STA ($nn,X)` (R143). -/
  | staIndX (zp : Byte)
  /-- 0x85, `STA $nn` (R143). -/
  | staZp (zp : Byte)
  /-- 0x8D, `STA $hhll` (R143). -/
  | staAbs (addr : Word)
  /-- 0x91, `STA ($nn),Y` (R143). -/
  | staIndY (zp : Byte)
  /-- 0x95, `STA $nn,X` (R143). -/
  | staZpX (zp : Byte)
  /-- 0x99, `STA $hhll,Y` (R143). -/
  | staAbsY (addr : Word)
  /-- 0x9D, `STA $hhll,X` (R143). -/
  | staAbsX (addr : Word)
  /-- 0x86, `STX $nn` (R144). -/
  | stxZp (zp : Byte)
  /-- 0x8E, `STX $hhll` (R144). -/
  | stxAbs (addr : Word)
  /-- 0x96, `STX $nn,Y` (R144). -/
  | stxZpY (zp : Byte)
  /-- 0x84, `STY $nn` (R145). -/
  | styZp (zp : Byte)
  /-- 0x8C, `STY $hhll` (R145). -/
  | styAbs (addr : Word)
  /-- 0x94, `STY $nn,X` (R145). -/
  | styZpX (zp : Byte)
  -- 42_transfer_stack.md
  /-- 0xAA, `TAX` (R162). -/
  | tax
  /-- 0xA8, `TAY` (R163). -/
  | tay
  /-- 0x8A, `TXA` (R164). -/
  | txa
  /-- 0x98, `TYA` (R165). -/
  | tya
  /-- 0xBA, `TSX` (R166). -/
  | tsx
  /-- 0x9A, `TXS` (R167). -/
  | txs
  /-- 0x48, `PHA` (R168). -/
  | pha
  /-- 0x08, `PHP` (R169). -/
  | php
  /-- 0x68, `PLA` (R170). -/
  | pla
  /-- 0x28, `PLP` (R171). -/
  | plp
  -- 43_arithmetic.md
  /-- 0x61, `ADC ($nn,X)` (R180). -/
  | adcIndX (zp : Byte)
  /-- 0x65, `ADC $nn` (R180). -/
  | adcZp (zp : Byte)
  /-- 0x69, `ADC #$nn` (R180). -/
  | adcImm (v : Byte)
  /-- 0x6D, `ADC $hhll` (R180). -/
  | adcAbs (addr : Word)
  /-- 0x71, `ADC ($nn),Y` (R180). -/
  | adcIndY (zp : Byte)
  /-- 0x75, `ADC $nn,X` (R180). -/
  | adcZpX (zp : Byte)
  /-- 0x79, `ADC $hhll,Y` (R180). -/
  | adcAbsY (addr : Word)
  /-- 0x7D, `ADC $hhll,X` (R180). -/
  | adcAbsX (addr : Word)
  /-- 0xE1, `SBC ($nn,X)` (R181). -/
  | sbcIndX (zp : Byte)
  /-- 0xE5, `SBC $nn` (R181). -/
  | sbcZp (zp : Byte)
  /-- 0xE9, `SBC #$nn` (R181). -/
  | sbcImm (v : Byte)
  /-- 0xED, `SBC $hhll` (R181). -/
  | sbcAbs (addr : Word)
  /-- 0xF1, `SBC ($nn),Y` (R181). -/
  | sbcIndY (zp : Byte)
  /-- 0xF5, `SBC $nn,X` (R181). -/
  | sbcZpX (zp : Byte)
  /-- 0xF9, `SBC $hhll,Y` (R181). -/
  | sbcAbsY (addr : Word)
  /-- 0xFD, `SBC $hhll,X` (R181). -/
  | sbcAbsX (addr : Word)
  /-- 0xC1, `CMP ($nn,X)` (R182). -/
  | cmpIndX (zp : Byte)
  /-- 0xC5, `CMP $nn` (R182). -/
  | cmpZp (zp : Byte)
  /-- 0xC9, `CMP #$nn` (R182). -/
  | cmpImm (v : Byte)
  /-- 0xCD, `CMP $hhll` (R182). -/
  | cmpAbs (addr : Word)
  /-- 0xD1, `CMP ($nn),Y` (R182). -/
  | cmpIndY (zp : Byte)
  /-- 0xD5, `CMP $nn,X` (R182). -/
  | cmpZpX (zp : Byte)
  /-- 0xD9, `CMP $hhll,Y` (R182). -/
  | cmpAbsY (addr : Word)
  /-- 0xDD, `CMP $hhll,X` (R182). -/
  | cmpAbsX (addr : Word)
  /-- 0xE0, `CPX #$nn` (R183). -/
  | cpxImm (v : Byte)
  /-- 0xE4, `CPX $nn` (R183). -/
  | cpxZp (zp : Byte)
  /-- 0xEC, `CPX $hhll` (R183). -/
  | cpxAbs (addr : Word)
  /-- 0xC0, `CPY #$nn` (R184). -/
  | cpyImm (v : Byte)
  /-- 0xC4, `CPY $nn` (R184). -/
  | cpyZp (zp : Byte)
  /-- 0xCC, `CPY $hhll` (R184). -/
  | cpyAbs (addr : Word)
  /-- 0xE6, `INC $nn` (R185). -/
  | incZp (zp : Byte)
  /-- 0xEE, `INC $hhll` (R185). -/
  | incAbs (addr : Word)
  /-- 0xF6, `INC $nn,X` (R185). -/
  | incZpX (zp : Byte)
  /-- 0xFE, `INC $hhll,X` (R185). -/
  | incAbsX (addr : Word)
  /-- 0xC6, `DEC $nn` (R186). -/
  | decZp (zp : Byte)
  /-- 0xCE, `DEC $hhll` (R186). -/
  | decAbs (addr : Word)
  /-- 0xD6, `DEC $nn,X` (R186). -/
  | decZpX (zp : Byte)
  /-- 0xDE, `DEC $hhll,X` (R186). -/
  | decAbsX (addr : Word)
  /-- 0xE8, `INX` (R187). -/
  | inx
  /-- 0xC8, `INY` (R188). -/
  | iny
  /-- 0xCA, `DEX` (R189). -/
  | dex
  /-- 0x88, `DEY` (R190). -/
  | dey
  -- 44_logic_shift.md
  /-- 0x21, `AND ($nn,X)` (R200). -/
  | andIndX (zp : Byte)
  /-- 0x25, `AND $nn` (R200). -/
  | andZp (zp : Byte)
  /-- 0x29, `AND #$nn` (R200). -/
  | andImm (v : Byte)
  /-- 0x2D, `AND $hhll` (R200). -/
  | andAbs (addr : Word)
  /-- 0x31, `AND ($nn),Y` (R200). -/
  | andIndY (zp : Byte)
  /-- 0x35, `AND $nn,X` (R200). -/
  | andZpX (zp : Byte)
  /-- 0x39, `AND $hhll,Y` (R200). -/
  | andAbsY (addr : Word)
  /-- 0x3D, `AND $hhll,X` (R200). -/
  | andAbsX (addr : Word)
  /-- 0x01, `ORA ($nn,X)` (R201). -/
  | oraIndX (zp : Byte)
  /-- 0x05, `ORA $nn` (R201). -/
  | oraZp (zp : Byte)
  /-- 0x09, `ORA #$nn` (R201). -/
  | oraImm (v : Byte)
  /-- 0x0D, `ORA $hhll` (R201). -/
  | oraAbs (addr : Word)
  /-- 0x11, `ORA ($nn),Y` (R201). -/
  | oraIndY (zp : Byte)
  /-- 0x15, `ORA $nn,X` (R201). -/
  | oraZpX (zp : Byte)
  /-- 0x19, `ORA $hhll,Y` (R201). -/
  | oraAbsY (addr : Word)
  /-- 0x1D, `ORA $hhll,X` (R201). -/
  | oraAbsX (addr : Word)
  /-- 0x41, `EOR ($nn,X)` (R202). -/
  | eorIndX (zp : Byte)
  /-- 0x45, `EOR $nn` (R202). -/
  | eorZp (zp : Byte)
  /-- 0x49, `EOR #$nn` (R202). -/
  | eorImm (v : Byte)
  /-- 0x4D, `EOR $hhll` (R202). -/
  | eorAbs (addr : Word)
  /-- 0x51, `EOR ($nn),Y` (R202). -/
  | eorIndY (zp : Byte)
  /-- 0x55, `EOR $nn,X` (R202). -/
  | eorZpX (zp : Byte)
  /-- 0x59, `EOR $hhll,Y` (R202). -/
  | eorAbsY (addr : Word)
  /-- 0x5D, `EOR $hhll,X` (R202). -/
  | eorAbsX (addr : Word)
  /-- 0x24, `BIT $nn` (R203). -/
  | bitZp (zp : Byte)
  /-- 0x2C, `BIT $hhll` (R203). -/
  | bitAbs (addr : Word)
  /-- 0x06, `ASL $nn` (R204). -/
  | aslZp (zp : Byte)
  /-- 0x0A, `ASL A` (R204). -/
  | aslAcc
  /-- 0x0E, `ASL $hhll` (R204). -/
  | aslAbs (addr : Word)
  /-- 0x16, `ASL $nn,X` (R204). -/
  | aslZpX (zp : Byte)
  /-- 0x1E, `ASL $hhll,X` (R204). -/
  | aslAbsX (addr : Word)
  /-- 0x46, `LSR $nn` (R205). -/
  | lsrZp (zp : Byte)
  /-- 0x4A, `LSR A` (R205). -/
  | lsrAcc
  /-- 0x4E, `LSR $hhll` (R205). -/
  | lsrAbs (addr : Word)
  /-- 0x56, `LSR $nn,X` (R205). -/
  | lsrZpX (zp : Byte)
  /-- 0x5E, `LSR $hhll,X` (R205). -/
  | lsrAbsX (addr : Word)
  /-- 0x26, `ROL $nn` (R206). -/
  | rolZp (zp : Byte)
  /-- 0x2A, `ROL A` (R206). -/
  | rolAcc
  /-- 0x2E, `ROL $hhll` (R206). -/
  | rolAbs (addr : Word)
  /-- 0x36, `ROL $nn,X` (R206). -/
  | rolZpX (zp : Byte)
  /-- 0x3E, `ROL $hhll,X` (R206). -/
  | rolAbsX (addr : Word)
  /-- 0x66, `ROR $nn` (R207). -/
  | rorZp (zp : Byte)
  /-- 0x6A, `ROR A` (R207). -/
  | rorAcc
  /-- 0x6E, `ROR $hhll` (R207). -/
  | rorAbs (addr : Word)
  /-- 0x76, `ROR $nn,X` (R207). -/
  | rorZpX (zp : Byte)
  /-- 0x7E, `ROR $hhll,X` (R207). -/
  | rorAbsX (addr : Word)
  -- 45_control.md
  /-- 0x4C, `JMP $hhll` (R220). -/
  | jmpAbs (addr : Word)
  /-- 0x6C, `JMP ($hhll)` (R220). -/
  | jmpInd (addr : Word)
  /-- 0x20, `JSR $hhll` (R221). -/
  | jsr (addr : Word)
  /-- 0x60, `RTS` (R222). -/
  | rts
  /-- 0x40, `RTI` (R223). -/
  | rti
  /-- 0x00, `BRK` (R224). -/
  | brk
  /-- 0x90, `BCC label` (R225). -/
  | bcc (off : Byte)
  /-- 0xB0, `BCS label` (R226). -/
  | bcs (off : Byte)
  /-- 0xF0, `BEQ label` (R227). -/
  | beq (off : Byte)
  /-- 0x30, `BMI label` (R228). -/
  | bmi (off : Byte)
  /-- 0xD0, `BNE label` (R229). -/
  | bne (off : Byte)
  /-- 0x10, `BPL label` (R230). -/
  | bpl (off : Byte)
  /-- 0x50, `BVC label` (R231). -/
  | bvc (off : Byte)
  /-- 0x70, `BVS label` (R232). -/
  | bvs (off : Byte)
  -- 46_flags_misc.md
  /-- 0x18, `CLC` (R240). -/
  | clc
  /-- 0xD8, `CLD` (R241). -/
  | cld
  /-- 0x58, `CLI` (R242). -/
  | cli
  /-- 0xB8, `CLV` (R243). -/
  | clv
  /-- 0x38, `SEC` (R244). -/
  | sec
  /-- 0xF8, `SED` (R245). -/
  | sed
  /-- 0x78, `SEI` (R246). -/
  | sei
  /-- 0xEA, `NOP` (R247). -/
  | nop
  /-- A byte whose metadata entry is UNIMPLEMENTED (R88, R260). -/
  | unimplemented (op : Byte)
  deriving DecidableEq, Repr

end Sys2Proof
end

