-- ==== Sys2Proof/WellFormed.lean ====
section
/-!
DEFINITION. Which instructions and which configurations are well formed. An operand fits its type, so the one check on
an instruction is that the byte of `unimplemented` is one of the 105 of 30_encoding.md R88. A configuration is checked
by 00_scope.md R5 and 20_memory.md R43 and R44; construction refuses one that fails (70_reset_and_hazards.md R290).
-/

namespace Sys2Proof

/-- The 105 bytes R88 lists as UNIMPLEMENTED. -/
def unimplementedBytes : List Byte :=
  [0x02, 0x03, 0x04, 0x07, 0x0B, 0x0C, 0x0F] ++
  [0x12, 0x13, 0x14, 0x17, 0x1A, 0x1B, 0x1C, 0x1F] ++
  [0x22, 0x23, 0x27, 0x2B, 0x2F] ++
  [0x32, 0x33, 0x34, 0x37, 0x3A, 0x3B, 0x3C, 0x3F] ++
  [0x42, 0x43, 0x44, 0x47, 0x4B, 0x4F] ++
  [0x52, 0x53, 0x54, 0x57, 0x5A, 0x5B, 0x5C, 0x5F] ++
  [0x62, 0x63, 0x64, 0x67, 0x6B, 0x6F] ++
  [0x72, 0x73, 0x74, 0x77, 0x7A, 0x7B, 0x7C, 0x7F] ++
  [0x80, 0x82, 0x83, 0x87, 0x89, 0x8B, 0x8F] ++
  [0x92, 0x93, 0x97, 0x9B, 0x9C, 0x9E, 0x9F] ++
  [0xA3, 0xA7, 0xAB, 0xAF] ++
  [0xB2, 0xB3, 0xB7, 0xBB, 0xBF] ++
  [0xC2, 0xC3, 0xC7, 0xCB, 0xCF] ++
  [0xD2, 0xD3, 0xD4, 0xD7, 0xDA, 0xDB, 0xDC, 0xDF] ++
  [0xE2, 0xE3, 0xE7, 0xEB, 0xEF] ++
  [0xF2, 0xF3, 0xF4, 0xF7, 0xFA, 0xFB, 0xFC, 0xFF]

/-- An instruction is well formed when it stands for words of the opcode table. -/
def Instr.wellFormed : Instr → Bool
  | .unimplemented op => unimplementedBytes.contains op
  | _ => true

/-- A range `[start, start + length)`. -/
structure Range where
  start  : Nat
  length : Nat
  deriving DecidableEq, Repr

/-- `r` lies inside `[lo, hi)`. -/
def Range.inside (r : Range) (lo hi : Nat) : Bool :=
  decide (lo ≤ r.start) && decide (r.start + r.length ≤ hi)

/-- Two ranges share no address. -/
def Range.disjoint (r q : Range) : Bool :=
  decide (r.start + r.length ≤ q.start) || decide (q.start + q.length ≤ r.start)
    || decide (r.length = 0) || decide (q.length = 0)

/-- Every two ranges of the list share no address. -/
def Range.pairwiseDisjoint : List Range → Bool
  | [] => true
  | r :: rs => rs.all r.disjoint && Range.pairwiseDisjoint rs

def Zone.primary (z : Zone) : Range := ⟨z.start, z.length⟩

def Zone.mirrorRanges (z : Zone) : List Range := z.mirrors.map fun m => ⟨m, z.length⟩

def DeviceRange.range (d : DeviceRange) : Range := ⟨d.start, d.length⟩

/-- CAPACITY is 1 to 65536 (R5). -/
def Config.capacityOk (c : Config) : Bool := decide (1 ≤ c.capacity) && decide (c.capacity ≤ 65536)

/-- Every zone has length at least 1 (R43). -/
def Config.zoneLengthsOk (c : Config) : Bool := c.zones.all fun z => decide (1 ≤ z.length)

/-- Every primary range lies inside `[0, CAPACITY)` or inside one device range (R43). -/
def Config.primariesOk (c : Config) : Bool :=
  c.zones.all fun z =>
    z.primary.inside 0 c.capacity || c.devices.any fun d => z.primary.inside d.start (d.start + d.length)

/-- Every mirror range lies inside `[0, 65536)` (R43). -/
def Config.mirrorsOk (c : Config) : Bool :=
  c.zones.all fun z => z.mirrorRanges.all fun r => r.inside 0 65536

/-- No two primary or mirror ranges overlap, within one zone or across zones (R43). -/
def Config.zonesDisjoint (c : Config) : Bool :=
  Range.pairwiseDisjoint (c.zones.flatMap fun z => z.primary :: z.mirrorRanges)

/-- The device ranges are pairwise disjoint (R44). -/
def Config.devicesDisjoint (c : Config) : Bool :=
  Range.pairwiseDisjoint (c.devices.map DeviceRange.range)

/-- A device range is a range of 16-bit addresses (R5, R44; DEDUCED, notes/assumptions/11.md). -/
def Config.devicesInSpace (c : Config) : Bool := c.devices.all fun d => d.range.inside 0 65536

/-- The configurations construction accepts (R43, R44, R5). DESIGN CHOICE (notes/assumptions/20.md): a device range of
length zero is accepted, since only R43, on zones, asks for a length. -/
def Config.wellFormed (c : Config) : Bool :=
  c.capacityOk && c.zoneLengthsOk && c.primariesOk && c.mirrorsOk && c.zonesDisjoint && c.devicesDisjoint
    && c.devicesInSpace

end Sys2Proof
end

