-- ==== Sys2Proof/Decode.lean ====
section
/-!
DEFINITION. The decoder and the encoder. METADATA's default rows (30_encoding.md R86), in
opcode order; the decoder is a lookup of the whole opcode byte (R81) and takes its operand bytes little-endian
(R81, R53); the encoder writes each instruction's bytes from the encoding tables of R140 to R247.
-/

namespace Sys2Proof

/-- `hi ++ lo` of 00_scope.md R6. -/
def wordOf (hi lo : Byte) : Word := hi ++ lo

/-- `w[7:0]`. -/
def lowByte (w : Word) : Byte := w.setWidth 8

/-- `w[15:8]`. -/
def highByte (w : Word) : Byte := (w >>> 8).setWidth 8

/-- How many operand bytes fetch reads after the opcode in each mode (R81, R83). -/
def Mode.operandBytes : Mode → Nat
  | .implied | .accumulator => 0
  | .immediate | .zeroPage | .zeroPageX | .zeroPageY | .indexedIndirect | .indirectIndexed | .relative => 1
  | .absolute | .absoluteX | .absoluteY | .indirect => 2

/-- What a row makes of the bytes after its opcode: nothing, one byte, or a little-endian word (R81, formats F1 to F3). -/
inductive RowForm where
  | f1 (i : Instr)
  | f2 (build : Byte → Instr)
  | f3 (build : Word → Instr)

/-- A row of the opcode table (R86). -/
structure Row where
  opcode : Byte
  entry  : Entry
  form   : RowForm

/-- The documented opcodes 0x00 to 0x0F. -/
def rows0 : List Row :=
  [⟨0x00, ⟨.brk, .implied, 1⟩, .f1 .brk⟩,
   ⟨0x01, ⟨.ora, .indexedIndirect, 2⟩, .f2 .oraIndX⟩,
   ⟨0x05, ⟨.ora, .zeroPage, 2⟩, .f2 .oraZp⟩,
   ⟨0x06, ⟨.asl, .zeroPage, 2⟩, .f2 .aslZp⟩,
   ⟨0x08, ⟨.php, .implied, 1⟩, .f1 .php⟩,
   ⟨0x09, ⟨.ora, .immediate, 2⟩, .f2 .oraImm⟩,
   ⟨0x0A, ⟨.asl, .accumulator, 1⟩, .f1 .aslAcc⟩,
   ⟨0x0D, ⟨.ora, .absolute, 3⟩, .f3 .oraAbs⟩,
   ⟨0x0E, ⟨.asl, .absolute, 3⟩, .f3 .aslAbs⟩]

/-- The documented opcodes 0x10 to 0x1F. -/
def rows1 : List Row :=
  [⟨0x10, ⟨.bpl, .relative, 2⟩, .f2 .bpl⟩,
   ⟨0x11, ⟨.ora, .indirectIndexed, 2⟩, .f2 .oraIndY⟩,
   ⟨0x15, ⟨.ora, .zeroPageX, 2⟩, .f2 .oraZpX⟩,
   ⟨0x16, ⟨.asl, .zeroPageX, 2⟩, .f2 .aslZpX⟩,
   ⟨0x18, ⟨.clc, .implied, 1⟩, .f1 .clc⟩,
   ⟨0x19, ⟨.ora, .absoluteY, 3⟩, .f3 .oraAbsY⟩,
   ⟨0x1D, ⟨.ora, .absoluteX, 3⟩, .f3 .oraAbsX⟩,
   ⟨0x1E, ⟨.asl, .absoluteX, 3⟩, .f3 .aslAbsX⟩]

/-- The documented opcodes 0x20 to 0x2F. -/
def rows2 : List Row :=
  [⟨0x20, ⟨.jsr, .absolute, 3⟩, .f3 .jsr⟩,
   ⟨0x21, ⟨.and, .indexedIndirect, 2⟩, .f2 .andIndX⟩,
   ⟨0x24, ⟨.bit, .zeroPage, 2⟩, .f2 .bitZp⟩,
   ⟨0x25, ⟨.and, .zeroPage, 2⟩, .f2 .andZp⟩,
   ⟨0x26, ⟨.rol, .zeroPage, 2⟩, .f2 .rolZp⟩,
   ⟨0x28, ⟨.plp, .implied, 1⟩, .f1 .plp⟩,
   ⟨0x29, ⟨.and, .immediate, 2⟩, .f2 .andImm⟩,
   ⟨0x2A, ⟨.rol, .accumulator, 1⟩, .f1 .rolAcc⟩,
   ⟨0x2C, ⟨.bit, .absolute, 3⟩, .f3 .bitAbs⟩,
   ⟨0x2D, ⟨.and, .absolute, 3⟩, .f3 .andAbs⟩,
   ⟨0x2E, ⟨.rol, .absolute, 3⟩, .f3 .rolAbs⟩]

/-- The documented opcodes 0x30 to 0x3F. -/
def rows3 : List Row :=
  [⟨0x30, ⟨.bmi, .relative, 2⟩, .f2 .bmi⟩,
   ⟨0x31, ⟨.and, .indirectIndexed, 2⟩, .f2 .andIndY⟩,
   ⟨0x35, ⟨.and, .zeroPageX, 2⟩, .f2 .andZpX⟩,
   ⟨0x36, ⟨.rol, .zeroPageX, 2⟩, .f2 .rolZpX⟩,
   ⟨0x38, ⟨.sec, .implied, 1⟩, .f1 .sec⟩,
   ⟨0x39, ⟨.and, .absoluteY, 3⟩, .f3 .andAbsY⟩,
   ⟨0x3D, ⟨.and, .absoluteX, 3⟩, .f3 .andAbsX⟩,
   ⟨0x3E, ⟨.rol, .absoluteX, 3⟩, .f3 .rolAbsX⟩]

/-- The documented opcodes 0x40 to 0x4F. -/
def rows4 : List Row :=
  [⟨0x40, ⟨.rti, .implied, 1⟩, .f1 .rti⟩,
   ⟨0x41, ⟨.eor, .indexedIndirect, 2⟩, .f2 .eorIndX⟩,
   ⟨0x45, ⟨.eor, .zeroPage, 2⟩, .f2 .eorZp⟩,
   ⟨0x46, ⟨.lsr, .zeroPage, 2⟩, .f2 .lsrZp⟩,
   ⟨0x48, ⟨.pha, .implied, 1⟩, .f1 .pha⟩,
   ⟨0x49, ⟨.eor, .immediate, 2⟩, .f2 .eorImm⟩,
   ⟨0x4A, ⟨.lsr, .accumulator, 1⟩, .f1 .lsrAcc⟩,
   ⟨0x4C, ⟨.jmp, .absolute, 3⟩, .f3 .jmpAbs⟩,
   ⟨0x4D, ⟨.eor, .absolute, 3⟩, .f3 .eorAbs⟩,
   ⟨0x4E, ⟨.lsr, .absolute, 3⟩, .f3 .lsrAbs⟩]

/-- The documented opcodes 0x50 to 0x5F. -/
def rows5 : List Row :=
  [⟨0x50, ⟨.bvc, .relative, 2⟩, .f2 .bvc⟩,
   ⟨0x51, ⟨.eor, .indirectIndexed, 2⟩, .f2 .eorIndY⟩,
   ⟨0x55, ⟨.eor, .zeroPageX, 2⟩, .f2 .eorZpX⟩,
   ⟨0x56, ⟨.lsr, .zeroPageX, 2⟩, .f2 .lsrZpX⟩,
   ⟨0x58, ⟨.cli, .implied, 1⟩, .f1 .cli⟩,
   ⟨0x59, ⟨.eor, .absoluteY, 3⟩, .f3 .eorAbsY⟩,
   ⟨0x5D, ⟨.eor, .absoluteX, 3⟩, .f3 .eorAbsX⟩,
   ⟨0x5E, ⟨.lsr, .absoluteX, 3⟩, .f3 .lsrAbsX⟩]

/-- The documented opcodes 0x60 to 0x6F. -/
def rows6 : List Row :=
  [⟨0x60, ⟨.rts, .implied, 1⟩, .f1 .rts⟩,
   ⟨0x61, ⟨.adc, .indexedIndirect, 2⟩, .f2 .adcIndX⟩,
   ⟨0x65, ⟨.adc, .zeroPage, 2⟩, .f2 .adcZp⟩,
   ⟨0x66, ⟨.ror, .zeroPage, 2⟩, .f2 .rorZp⟩,
   ⟨0x68, ⟨.pla, .implied, 1⟩, .f1 .pla⟩,
   ⟨0x69, ⟨.adc, .immediate, 2⟩, .f2 .adcImm⟩,
   ⟨0x6A, ⟨.ror, .accumulator, 1⟩, .f1 .rorAcc⟩,
   ⟨0x6C, ⟨.jmp, .indirect, 3⟩, .f3 .jmpInd⟩,
   ⟨0x6D, ⟨.adc, .absolute, 3⟩, .f3 .adcAbs⟩,
   ⟨0x6E, ⟨.ror, .absolute, 3⟩, .f3 .rorAbs⟩]

/-- The documented opcodes 0x70 to 0x7F. -/
def rows7 : List Row :=
  [⟨0x70, ⟨.bvs, .relative, 2⟩, .f2 .bvs⟩,
   ⟨0x71, ⟨.adc, .indirectIndexed, 2⟩, .f2 .adcIndY⟩,
   ⟨0x75, ⟨.adc, .zeroPageX, 2⟩, .f2 .adcZpX⟩,
   ⟨0x76, ⟨.ror, .zeroPageX, 2⟩, .f2 .rorZpX⟩,
   ⟨0x78, ⟨.sei, .implied, 1⟩, .f1 .sei⟩,
   ⟨0x79, ⟨.adc, .absoluteY, 3⟩, .f3 .adcAbsY⟩,
   ⟨0x7D, ⟨.adc, .absoluteX, 3⟩, .f3 .adcAbsX⟩,
   ⟨0x7E, ⟨.ror, .absoluteX, 3⟩, .f3 .rorAbsX⟩]

/-- The documented opcodes 0x80 to 0x8F. -/
def rows8 : List Row :=
  [⟨0x81, ⟨.sta, .indexedIndirect, 2⟩, .f2 .staIndX⟩,
   ⟨0x84, ⟨.sty, .zeroPage, 2⟩, .f2 .styZp⟩,
   ⟨0x85, ⟨.sta, .zeroPage, 2⟩, .f2 .staZp⟩,
   ⟨0x86, ⟨.stx, .zeroPage, 2⟩, .f2 .stxZp⟩,
   ⟨0x88, ⟨.dey, .implied, 1⟩, .f1 .dey⟩,
   ⟨0x8A, ⟨.txa, .implied, 1⟩, .f1 .txa⟩,
   ⟨0x8C, ⟨.sty, .absolute, 3⟩, .f3 .styAbs⟩,
   ⟨0x8D, ⟨.sta, .absolute, 3⟩, .f3 .staAbs⟩,
   ⟨0x8E, ⟨.stx, .absolute, 3⟩, .f3 .stxAbs⟩]

/-- The documented opcodes 0x90 to 0x9F. -/
def rows9 : List Row :=
  [⟨0x90, ⟨.bcc, .relative, 2⟩, .f2 .bcc⟩,
   ⟨0x91, ⟨.sta, .indirectIndexed, 2⟩, .f2 .staIndY⟩,
   ⟨0x94, ⟨.sty, .zeroPageX, 2⟩, .f2 .styZpX⟩,
   ⟨0x95, ⟨.sta, .zeroPageX, 2⟩, .f2 .staZpX⟩,
   ⟨0x96, ⟨.stx, .zeroPageY, 2⟩, .f2 .stxZpY⟩,
   ⟨0x98, ⟨.tya, .implied, 1⟩, .f1 .tya⟩,
   ⟨0x99, ⟨.sta, .absoluteY, 3⟩, .f3 .staAbsY⟩,
   ⟨0x9A, ⟨.txs, .implied, 1⟩, .f1 .txs⟩,
   ⟨0x9D, ⟨.sta, .absoluteX, 3⟩, .f3 .staAbsX⟩]

/-- The documented opcodes 0xA0 to 0xAF. -/
def rowsA : List Row :=
  [⟨0xA0, ⟨.ldy, .immediate, 2⟩, .f2 .ldyImm⟩,
   ⟨0xA1, ⟨.lda, .indexedIndirect, 2⟩, .f2 .ldaIndX⟩,
   ⟨0xA2, ⟨.ldx, .immediate, 2⟩, .f2 .ldxImm⟩,
   ⟨0xA4, ⟨.ldy, .zeroPage, 2⟩, .f2 .ldyZp⟩,
   ⟨0xA5, ⟨.lda, .zeroPage, 2⟩, .f2 .ldaZp⟩,
   ⟨0xA6, ⟨.ldx, .zeroPage, 2⟩, .f2 .ldxZp⟩,
   ⟨0xA8, ⟨.tay, .implied, 1⟩, .f1 .tay⟩,
   ⟨0xA9, ⟨.lda, .immediate, 2⟩, .f2 .ldaImm⟩,
   ⟨0xAA, ⟨.tax, .implied, 1⟩, .f1 .tax⟩,
   ⟨0xAC, ⟨.ldy, .absolute, 3⟩, .f3 .ldyAbs⟩,
   ⟨0xAD, ⟨.lda, .absolute, 3⟩, .f3 .ldaAbs⟩,
   ⟨0xAE, ⟨.ldx, .absolute, 3⟩, .f3 .ldxAbs⟩]

/-- The documented opcodes 0xB0 to 0xBF. -/
def rowsB : List Row :=
  [⟨0xB0, ⟨.bcs, .relative, 2⟩, .f2 .bcs⟩,
   ⟨0xB1, ⟨.lda, .indirectIndexed, 2⟩, .f2 .ldaIndY⟩,
   ⟨0xB4, ⟨.ldy, .zeroPageX, 2⟩, .f2 .ldyZpX⟩,
   ⟨0xB5, ⟨.lda, .zeroPageX, 2⟩, .f2 .ldaZpX⟩,
   ⟨0xB6, ⟨.ldx, .zeroPageY, 2⟩, .f2 .ldxZpY⟩,
   ⟨0xB8, ⟨.clv, .implied, 1⟩, .f1 .clv⟩,
   ⟨0xB9, ⟨.lda, .absoluteY, 3⟩, .f3 .ldaAbsY⟩,
   ⟨0xBA, ⟨.tsx, .implied, 1⟩, .f1 .tsx⟩,
   ⟨0xBC, ⟨.ldy, .absoluteX, 3⟩, .f3 .ldyAbsX⟩,
   ⟨0xBD, ⟨.lda, .absoluteX, 3⟩, .f3 .ldaAbsX⟩,
   ⟨0xBE, ⟨.ldx, .absoluteY, 3⟩, .f3 .ldxAbsY⟩]

/-- The documented opcodes 0xC0 to 0xCF. -/
def rowsC : List Row :=
  [⟨0xC0, ⟨.cpy, .immediate, 2⟩, .f2 .cpyImm⟩,
   ⟨0xC1, ⟨.cmp, .indexedIndirect, 2⟩, .f2 .cmpIndX⟩,
   ⟨0xC4, ⟨.cpy, .zeroPage, 2⟩, .f2 .cpyZp⟩,
   ⟨0xC5, ⟨.cmp, .zeroPage, 2⟩, .f2 .cmpZp⟩,
   ⟨0xC6, ⟨.dec, .zeroPage, 2⟩, .f2 .decZp⟩,
   ⟨0xC8, ⟨.iny, .implied, 1⟩, .f1 .iny⟩,
   ⟨0xC9, ⟨.cmp, .immediate, 2⟩, .f2 .cmpImm⟩,
   ⟨0xCA, ⟨.dex, .implied, 1⟩, .f1 .dex⟩,
   ⟨0xCC, ⟨.cpy, .absolute, 3⟩, .f3 .cpyAbs⟩,
   ⟨0xCD, ⟨.cmp, .absolute, 3⟩, .f3 .cmpAbs⟩,
   ⟨0xCE, ⟨.dec, .absolute, 3⟩, .f3 .decAbs⟩]

/-- The documented opcodes 0xD0 to 0xDF. -/
def rowsD : List Row :=
  [⟨0xD0, ⟨.bne, .relative, 2⟩, .f2 .bne⟩,
   ⟨0xD1, ⟨.cmp, .indirectIndexed, 2⟩, .f2 .cmpIndY⟩,
   ⟨0xD5, ⟨.cmp, .zeroPageX, 2⟩, .f2 .cmpZpX⟩,
   ⟨0xD6, ⟨.dec, .zeroPageX, 2⟩, .f2 .decZpX⟩,
   ⟨0xD8, ⟨.cld, .implied, 1⟩, .f1 .cld⟩,
   ⟨0xD9, ⟨.cmp, .absoluteY, 3⟩, .f3 .cmpAbsY⟩,
   ⟨0xDD, ⟨.cmp, .absoluteX, 3⟩, .f3 .cmpAbsX⟩,
   ⟨0xDE, ⟨.dec, .absoluteX, 3⟩, .f3 .decAbsX⟩]

/-- The documented opcodes 0xE0 to 0xEF. -/
def rowsE : List Row :=
  [⟨0xE0, ⟨.cpx, .immediate, 2⟩, .f2 .cpxImm⟩,
   ⟨0xE1, ⟨.sbc, .indexedIndirect, 2⟩, .f2 .sbcIndX⟩,
   ⟨0xE4, ⟨.cpx, .zeroPage, 2⟩, .f2 .cpxZp⟩,
   ⟨0xE5, ⟨.sbc, .zeroPage, 2⟩, .f2 .sbcZp⟩,
   ⟨0xE6, ⟨.inc, .zeroPage, 2⟩, .f2 .incZp⟩,
   ⟨0xE8, ⟨.inx, .implied, 1⟩, .f1 .inx⟩,
   ⟨0xE9, ⟨.sbc, .immediate, 2⟩, .f2 .sbcImm⟩,
   ⟨0xEA, ⟨.nop, .implied, 1⟩, .f1 .nop⟩,
   ⟨0xEC, ⟨.cpx, .absolute, 3⟩, .f3 .cpxAbs⟩,
   ⟨0xED, ⟨.sbc, .absolute, 3⟩, .f3 .sbcAbs⟩,
   ⟨0xEE, ⟨.inc, .absolute, 3⟩, .f3 .incAbs⟩]

/-- The documented opcodes 0xF0 to 0xFF. -/
def rowsF : List Row :=
  [⟨0xF0, ⟨.beq, .relative, 2⟩, .f2 .beq⟩,
   ⟨0xF1, ⟨.sbc, .indirectIndexed, 2⟩, .f2 .sbcIndY⟩,
   ⟨0xF5, ⟨.sbc, .zeroPageX, 2⟩, .f2 .sbcZpX⟩,
   ⟨0xF6, ⟨.inc, .zeroPageX, 2⟩, .f2 .incZpX⟩,
   ⟨0xF8, ⟨.sed, .implied, 1⟩, .f1 .sed⟩,
   ⟨0xF9, ⟨.sbc, .absoluteY, 3⟩, .f3 .sbcAbsY⟩,
   ⟨0xFD, ⟨.sbc, .absoluteX, 3⟩, .f3 .sbcAbsX⟩,
   ⟨0xFE, ⟨.inc, .absoluteX, 3⟩, .f3 .incAbsX⟩]

/-- The rows of an opcode's high nibble, as the opcode map of R89 lists them. -/
def rowsOf (hi : Nat) : List Row :=
  match hi with
  | 0 => rows0
  | 1 => rows1
  | 2 => rows2
  | 3 => rows3
  | 4 => rows4
  | 5 => rows5
  | 6 => rows6
  | 7 => rows7
  | 8 => rows8
  | 9 => rows9
  | 10 => rowsA
  | 11 => rowsB
  | 12 => rowsC
  | 13 => rowsD
  | 14 => rowsE
  | _ => rowsF

/-- The 151 documented rows (R86). -/
def opcodeTable : List Row :=
  rows0 ++ rows1 ++ rows2 ++ rows3 ++ rows4 ++ rows5 ++ rows6 ++ rows7 ++ rows8 ++ rows9 ++ rowsA ++ rowsB ++ rowsC ++
    rowsD ++ rowsE ++ rowsF

/-- The first row of a list that has the opcode. -/
def findRow (op : Byte) : List Row → Option Row
  | [] => none
  | r :: rs => if r.opcode = op then some r else findRow op rs

/-- The row of an opcode byte, none for a byte that is UNIMPLEMENTED (R86, R88). -/
def rowOf (op : Byte) : Option Row := findRow op (rowsOf (op.toNat / 16))

/-- METADATA: the entry of an opcode byte, none for the UNIMPLEMENTED sentinel (R86, R88). -/
def metadata (op : Byte) : Option Entry := (rowOf op).map Row.entry

/-- The instruction of a row with the bytes at pc + 1 and pc + 2; a form that has fewer ignores the rest. -/
def RowForm.apply : RowForm → Byte → Byte → Instr
  | .f1 i, _, _ => i
  | .f2 build, b1, _ => build b1
  | .f3 build, b1, b2 => build (wordOf b2 b1)

/-- The instruction of an opcode byte and the two bytes after it. -/
def instrOf (op b1 b2 : Byte) : Instr :=
  match rowOf op with
  | some r => r.form.apply b1 b2
  | none => .unimplemented op

/-- How many operand bytes follow an opcode: none after a byte that is UNIMPLEMENTED (R88, R100). -/
def operandBytesOf (op : Byte) : Nat :=
  match metadata op with
  | some e => e.mode.operandBytes
  | none => 0

/-- Why bytes are no instruction. Every opcode byte has a meaning, so only bytes that end too early are refused. -/
inductive DecodeError where
  | noOpcode
  | missingOperand (op : Byte)
  deriving DecidableEq, Repr

/-- The instruction at the head of a list of bytes, and the bytes after it. -/
def decode : List Byte → Except DecodeError (Instr × List Byte)
  | [] => .error .noOpcode
  | op :: rest =>
    match operandBytesOf op, rest with
    | 0, rest => .ok (instrOf op 0 0, rest)
    | 1, b1 :: rest => .ok (instrOf op b1 0, rest)
    | 2, b1 :: b2 :: rest => .ok (instrOf op b1 b2, rest)
    | _, _ => .error (.missingOperand op)

/-- The three bytes whose bits are `w`, the first byte in bits 7..0, all bits from `nbits` on 0. -/
def tableBytes (nbits w : Nat) : List Byte :=
  let v := w % 2 ^ nbits
  [BitVec.ofNat 8 v, BitVec.ofNat 8 (v / 256), BitVec.ofNat 8 (v / 65536)]

/-- The instruction the decoder reads from an instruction whose bits are `w`, numbered as spec/opcode_table.json numbers
them. -/
def decodeTableWord (nbits w : Nat) : Option Instr :=
  match decode (tableBytes nbits w) with
  | .ok (i, _) => some i
  | .error _ => none

/-- The bytes of an instruction, opcode first (R140 to R247, encoding tables; R81). -/
def encode : Instr → List Byte
  -- 41_load_store.md
  | .ldaIndX zp => [0xA1, zp]
  | .ldaZp zp => [0xA5, zp]
  | .ldaImm v => [0xA9, v]
  | .ldaAbs addr => [0xAD, lowByte addr, highByte addr]
  | .ldaIndY zp => [0xB1, zp]
  | .ldaZpX zp => [0xB5, zp]
  | .ldaAbsY addr => [0xB9, lowByte addr, highByte addr]
  | .ldaAbsX addr => [0xBD, lowByte addr, highByte addr]
  | .ldxImm v => [0xA2, v]
  | .ldxZp zp => [0xA6, zp]
  | .ldxAbs addr => [0xAE, lowByte addr, highByte addr]
  | .ldxZpY zp => [0xB6, zp]
  | .ldxAbsY addr => [0xBE, lowByte addr, highByte addr]
  | .ldyImm v => [0xA0, v]
  | .ldyZp zp => [0xA4, zp]
  | .ldyAbs addr => [0xAC, lowByte addr, highByte addr]
  | .ldyZpX zp => [0xB4, zp]
  | .ldyAbsX addr => [0xBC, lowByte addr, highByte addr]
  | .staIndX zp => [0x81, zp]
  | .staZp zp => [0x85, zp]
  | .staAbs addr => [0x8D, lowByte addr, highByte addr]
  | .staIndY zp => [0x91, zp]
  | .staZpX zp => [0x95, zp]
  | .staAbsY addr => [0x99, lowByte addr, highByte addr]
  | .staAbsX addr => [0x9D, lowByte addr, highByte addr]
  | .stxZp zp => [0x86, zp]
  | .stxAbs addr => [0x8E, lowByte addr, highByte addr]
  | .stxZpY zp => [0x96, zp]
  | .styZp zp => [0x84, zp]
  | .styAbs addr => [0x8C, lowByte addr, highByte addr]
  | .styZpX zp => [0x94, zp]
  -- 42_transfer_stack.md
  | .tax => [0xAA]
  | .tay => [0xA8]
  | .txa => [0x8A]
  | .tya => [0x98]
  | .tsx => [0xBA]
  | .txs => [0x9A]
  | .pha => [0x48]
  | .php => [0x08]
  | .pla => [0x68]
  | .plp => [0x28]
  -- 43_arithmetic.md
  | .adcIndX zp => [0x61, zp]
  | .adcZp zp => [0x65, zp]
  | .adcImm v => [0x69, v]
  | .adcAbs addr => [0x6D, lowByte addr, highByte addr]
  | .adcIndY zp => [0x71, zp]
  | .adcZpX zp => [0x75, zp]
  | .adcAbsY addr => [0x79, lowByte addr, highByte addr]
  | .adcAbsX addr => [0x7D, lowByte addr, highByte addr]
  | .sbcIndX zp => [0xE1, zp]
  | .sbcZp zp => [0xE5, zp]
  | .sbcImm v => [0xE9, v]
  | .sbcAbs addr => [0xED, lowByte addr, highByte addr]
  | .sbcIndY zp => [0xF1, zp]
  | .sbcZpX zp => [0xF5, zp]
  | .sbcAbsY addr => [0xF9, lowByte addr, highByte addr]
  | .sbcAbsX addr => [0xFD, lowByte addr, highByte addr]
  | .cmpIndX zp => [0xC1, zp]
  | .cmpZp zp => [0xC5, zp]
  | .cmpImm v => [0xC9, v]
  | .cmpAbs addr => [0xCD, lowByte addr, highByte addr]
  | .cmpIndY zp => [0xD1, zp]
  | .cmpZpX zp => [0xD5, zp]
  | .cmpAbsY addr => [0xD9, lowByte addr, highByte addr]
  | .cmpAbsX addr => [0xDD, lowByte addr, highByte addr]
  | .cpxImm v => [0xE0, v]
  | .cpxZp zp => [0xE4, zp]
  | .cpxAbs addr => [0xEC, lowByte addr, highByte addr]
  | .cpyImm v => [0xC0, v]
  | .cpyZp zp => [0xC4, zp]
  | .cpyAbs addr => [0xCC, lowByte addr, highByte addr]
  | .incZp zp => [0xE6, zp]
  | .incAbs addr => [0xEE, lowByte addr, highByte addr]
  | .incZpX zp => [0xF6, zp]
  | .incAbsX addr => [0xFE, lowByte addr, highByte addr]
  | .decZp zp => [0xC6, zp]
  | .decAbs addr => [0xCE, lowByte addr, highByte addr]
  | .decZpX zp => [0xD6, zp]
  | .decAbsX addr => [0xDE, lowByte addr, highByte addr]
  | .inx => [0xE8]
  | .iny => [0xC8]
  | .dex => [0xCA]
  | .dey => [0x88]
  -- 44_logic_shift.md
  | .andIndX zp => [0x21, zp]
  | .andZp zp => [0x25, zp]
  | .andImm v => [0x29, v]
  | .andAbs addr => [0x2D, lowByte addr, highByte addr]
  | .andIndY zp => [0x31, zp]
  | .andZpX zp => [0x35, zp]
  | .andAbsY addr => [0x39, lowByte addr, highByte addr]
  | .andAbsX addr => [0x3D, lowByte addr, highByte addr]
  | .oraIndX zp => [0x01, zp]
  | .oraZp zp => [0x05, zp]
  | .oraImm v => [0x09, v]
  | .oraAbs addr => [0x0D, lowByte addr, highByte addr]
  | .oraIndY zp => [0x11, zp]
  | .oraZpX zp => [0x15, zp]
  | .oraAbsY addr => [0x19, lowByte addr, highByte addr]
  | .oraAbsX addr => [0x1D, lowByte addr, highByte addr]
  | .eorIndX zp => [0x41, zp]
  | .eorZp zp => [0x45, zp]
  | .eorImm v => [0x49, v]
  | .eorAbs addr => [0x4D, lowByte addr, highByte addr]
  | .eorIndY zp => [0x51, zp]
  | .eorZpX zp => [0x55, zp]
  | .eorAbsY addr => [0x59, lowByte addr, highByte addr]
  | .eorAbsX addr => [0x5D, lowByte addr, highByte addr]
  | .bitZp zp => [0x24, zp]
  | .bitAbs addr => [0x2C, lowByte addr, highByte addr]
  | .aslZp zp => [0x06, zp]
  | .aslAcc => [0x0A]
  | .aslAbs addr => [0x0E, lowByte addr, highByte addr]
  | .aslZpX zp => [0x16, zp]
  | .aslAbsX addr => [0x1E, lowByte addr, highByte addr]
  | .lsrZp zp => [0x46, zp]
  | .lsrAcc => [0x4A]
  | .lsrAbs addr => [0x4E, lowByte addr, highByte addr]
  | .lsrZpX zp => [0x56, zp]
  | .lsrAbsX addr => [0x5E, lowByte addr, highByte addr]
  | .rolZp zp => [0x26, zp]
  | .rolAcc => [0x2A]
  | .rolAbs addr => [0x2E, lowByte addr, highByte addr]
  | .rolZpX zp => [0x36, zp]
  | .rolAbsX addr => [0x3E, lowByte addr, highByte addr]
  | .rorZp zp => [0x66, zp]
  | .rorAcc => [0x6A]
  | .rorAbs addr => [0x6E, lowByte addr, highByte addr]
  | .rorZpX zp => [0x76, zp]
  | .rorAbsX addr => [0x7E, lowByte addr, highByte addr]
  -- 45_control.md
  | .jmpAbs addr => [0x4C, lowByte addr, highByte addr]
  | .jmpInd addr => [0x6C, lowByte addr, highByte addr]
  | .jsr addr => [0x20, lowByte addr, highByte addr]
  | .rts => [0x60]
  | .rti => [0x40]
  | .brk => [0x00]
  | .bcc off => [0x90, off]
  | .bcs off => [0xB0, off]
  | .beq off => [0xF0, off]
  | .bmi off => [0x30, off]
  | .bne off => [0xD0, off]
  | .bpl off => [0x10, off]
  | .bvc off => [0x50, off]
  | .bvs off => [0x70, off]
  -- 46_flags_misc.md
  | .clc => [0x18]
  | .cld => [0xD8]
  | .cli => [0x58]
  | .clv => [0xB8]
  | .sec => [0x38]
  | .sed => [0xF8]
  | .sei => [0x78]
  | .nop => [0xEA]
  | .unimplemented op => [op]

/-- The opcode byte of an instruction. -/
def Instr.opcode (i : Instr) : Byte := (encode i).headD 0

/-- The byte at pc + 1, 0 where the instruction has none. -/
def Instr.byte1 (i : Instr) : Byte := (encode i).getD 1 0

/-- The byte at pc + 2, 0 where the instruction has none. -/
def Instr.byte2 (i : Instr) : Byte := (encode i).getD 2 0

/-- The name, mode and size of an instruction (the encoding tables of R140 to R247); none for `unimplemented`. -/
def Instr.entry : Instr → Option Entry
  -- 41_load_store.md
  | .ldaIndX _ => some ⟨.lda, .indexedIndirect, 2⟩
  | .ldaZp _ => some ⟨.lda, .zeroPage, 2⟩
  | .ldaImm _ => some ⟨.lda, .immediate, 2⟩
  | .ldaAbs _ => some ⟨.lda, .absolute, 3⟩
  | .ldaIndY _ => some ⟨.lda, .indirectIndexed, 2⟩
  | .ldaZpX _ => some ⟨.lda, .zeroPageX, 2⟩
  | .ldaAbsY _ => some ⟨.lda, .absoluteY, 3⟩
  | .ldaAbsX _ => some ⟨.lda, .absoluteX, 3⟩
  | .ldxImm _ => some ⟨.ldx, .immediate, 2⟩
  | .ldxZp _ => some ⟨.ldx, .zeroPage, 2⟩
  | .ldxAbs _ => some ⟨.ldx, .absolute, 3⟩
  | .ldxZpY _ => some ⟨.ldx, .zeroPageY, 2⟩
  | .ldxAbsY _ => some ⟨.ldx, .absoluteY, 3⟩
  | .ldyImm _ => some ⟨.ldy, .immediate, 2⟩
  | .ldyZp _ => some ⟨.ldy, .zeroPage, 2⟩
  | .ldyAbs _ => some ⟨.ldy, .absolute, 3⟩
  | .ldyZpX _ => some ⟨.ldy, .zeroPageX, 2⟩
  | .ldyAbsX _ => some ⟨.ldy, .absoluteX, 3⟩
  | .staIndX _ => some ⟨.sta, .indexedIndirect, 2⟩
  | .staZp _ => some ⟨.sta, .zeroPage, 2⟩
  | .staAbs _ => some ⟨.sta, .absolute, 3⟩
  | .staIndY _ => some ⟨.sta, .indirectIndexed, 2⟩
  | .staZpX _ => some ⟨.sta, .zeroPageX, 2⟩
  | .staAbsY _ => some ⟨.sta, .absoluteY, 3⟩
  | .staAbsX _ => some ⟨.sta, .absoluteX, 3⟩
  | .stxZp _ => some ⟨.stx, .zeroPage, 2⟩
  | .stxAbs _ => some ⟨.stx, .absolute, 3⟩
  | .stxZpY _ => some ⟨.stx, .zeroPageY, 2⟩
  | .styZp _ => some ⟨.sty, .zeroPage, 2⟩
  | .styAbs _ => some ⟨.sty, .absolute, 3⟩
  | .styZpX _ => some ⟨.sty, .zeroPageX, 2⟩
  -- 42_transfer_stack.md
  | .tax => some ⟨.tax, .implied, 1⟩
  | .tay => some ⟨.tay, .implied, 1⟩
  | .txa => some ⟨.txa, .implied, 1⟩
  | .tya => some ⟨.tya, .implied, 1⟩
  | .tsx => some ⟨.tsx, .implied, 1⟩
  | .txs => some ⟨.txs, .implied, 1⟩
  | .pha => some ⟨.pha, .implied, 1⟩
  | .php => some ⟨.php, .implied, 1⟩
  | .pla => some ⟨.pla, .implied, 1⟩
  | .plp => some ⟨.plp, .implied, 1⟩
  -- 43_arithmetic.md
  | .adcIndX _ => some ⟨.adc, .indexedIndirect, 2⟩
  | .adcZp _ => some ⟨.adc, .zeroPage, 2⟩
  | .adcImm _ => some ⟨.adc, .immediate, 2⟩
  | .adcAbs _ => some ⟨.adc, .absolute, 3⟩
  | .adcIndY _ => some ⟨.adc, .indirectIndexed, 2⟩
  | .adcZpX _ => some ⟨.adc, .zeroPageX, 2⟩
  | .adcAbsY _ => some ⟨.adc, .absoluteY, 3⟩
  | .adcAbsX _ => some ⟨.adc, .absoluteX, 3⟩
  | .sbcIndX _ => some ⟨.sbc, .indexedIndirect, 2⟩
  | .sbcZp _ => some ⟨.sbc, .zeroPage, 2⟩
  | .sbcImm _ => some ⟨.sbc, .immediate, 2⟩
  | .sbcAbs _ => some ⟨.sbc, .absolute, 3⟩
  | .sbcIndY _ => some ⟨.sbc, .indirectIndexed, 2⟩
  | .sbcZpX _ => some ⟨.sbc, .zeroPageX, 2⟩
  | .sbcAbsY _ => some ⟨.sbc, .absoluteY, 3⟩
  | .sbcAbsX _ => some ⟨.sbc, .absoluteX, 3⟩
  | .cmpIndX _ => some ⟨.cmp, .indexedIndirect, 2⟩
  | .cmpZp _ => some ⟨.cmp, .zeroPage, 2⟩
  | .cmpImm _ => some ⟨.cmp, .immediate, 2⟩
  | .cmpAbs _ => some ⟨.cmp, .absolute, 3⟩
  | .cmpIndY _ => some ⟨.cmp, .indirectIndexed, 2⟩
  | .cmpZpX _ => some ⟨.cmp, .zeroPageX, 2⟩
  | .cmpAbsY _ => some ⟨.cmp, .absoluteY, 3⟩
  | .cmpAbsX _ => some ⟨.cmp, .absoluteX, 3⟩
  | .cpxImm _ => some ⟨.cpx, .immediate, 2⟩
  | .cpxZp _ => some ⟨.cpx, .zeroPage, 2⟩
  | .cpxAbs _ => some ⟨.cpx, .absolute, 3⟩
  | .cpyImm _ => some ⟨.cpy, .immediate, 2⟩
  | .cpyZp _ => some ⟨.cpy, .zeroPage, 2⟩
  | .cpyAbs _ => some ⟨.cpy, .absolute, 3⟩
  | .incZp _ => some ⟨.inc, .zeroPage, 2⟩
  | .incAbs _ => some ⟨.inc, .absolute, 3⟩
  | .incZpX _ => some ⟨.inc, .zeroPageX, 2⟩
  | .incAbsX _ => some ⟨.inc, .absoluteX, 3⟩
  | .decZp _ => some ⟨.dec, .zeroPage, 2⟩
  | .decAbs _ => some ⟨.dec, .absolute, 3⟩
  | .decZpX _ => some ⟨.dec, .zeroPageX, 2⟩
  | .decAbsX _ => some ⟨.dec, .absoluteX, 3⟩
  | .inx => some ⟨.inx, .implied, 1⟩
  | .iny => some ⟨.iny, .implied, 1⟩
  | .dex => some ⟨.dex, .implied, 1⟩
  | .dey => some ⟨.dey, .implied, 1⟩
  -- 44_logic_shift.md
  | .andIndX _ => some ⟨.and, .indexedIndirect, 2⟩
  | .andZp _ => some ⟨.and, .zeroPage, 2⟩
  | .andImm _ => some ⟨.and, .immediate, 2⟩
  | .andAbs _ => some ⟨.and, .absolute, 3⟩
  | .andIndY _ => some ⟨.and, .indirectIndexed, 2⟩
  | .andZpX _ => some ⟨.and, .zeroPageX, 2⟩
  | .andAbsY _ => some ⟨.and, .absoluteY, 3⟩
  | .andAbsX _ => some ⟨.and, .absoluteX, 3⟩
  | .oraIndX _ => some ⟨.ora, .indexedIndirect, 2⟩
  | .oraZp _ => some ⟨.ora, .zeroPage, 2⟩
  | .oraImm _ => some ⟨.ora, .immediate, 2⟩
  | .oraAbs _ => some ⟨.ora, .absolute, 3⟩
  | .oraIndY _ => some ⟨.ora, .indirectIndexed, 2⟩
  | .oraZpX _ => some ⟨.ora, .zeroPageX, 2⟩
  | .oraAbsY _ => some ⟨.ora, .absoluteY, 3⟩
  | .oraAbsX _ => some ⟨.ora, .absoluteX, 3⟩
  | .eorIndX _ => some ⟨.eor, .indexedIndirect, 2⟩
  | .eorZp _ => some ⟨.eor, .zeroPage, 2⟩
  | .eorImm _ => some ⟨.eor, .immediate, 2⟩
  | .eorAbs _ => some ⟨.eor, .absolute, 3⟩
  | .eorIndY _ => some ⟨.eor, .indirectIndexed, 2⟩
  | .eorZpX _ => some ⟨.eor, .zeroPageX, 2⟩
  | .eorAbsY _ => some ⟨.eor, .absoluteY, 3⟩
  | .eorAbsX _ => some ⟨.eor, .absoluteX, 3⟩
  | .bitZp _ => some ⟨.bit, .zeroPage, 2⟩
  | .bitAbs _ => some ⟨.bit, .absolute, 3⟩
  | .aslZp _ => some ⟨.asl, .zeroPage, 2⟩
  | .aslAcc => some ⟨.asl, .accumulator, 1⟩
  | .aslAbs _ => some ⟨.asl, .absolute, 3⟩
  | .aslZpX _ => some ⟨.asl, .zeroPageX, 2⟩
  | .aslAbsX _ => some ⟨.asl, .absoluteX, 3⟩
  | .lsrZp _ => some ⟨.lsr, .zeroPage, 2⟩
  | .lsrAcc => some ⟨.lsr, .accumulator, 1⟩
  | .lsrAbs _ => some ⟨.lsr, .absolute, 3⟩
  | .lsrZpX _ => some ⟨.lsr, .zeroPageX, 2⟩
  | .lsrAbsX _ => some ⟨.lsr, .absoluteX, 3⟩
  | .rolZp _ => some ⟨.rol, .zeroPage, 2⟩
  | .rolAcc => some ⟨.rol, .accumulator, 1⟩
  | .rolAbs _ => some ⟨.rol, .absolute, 3⟩
  | .rolZpX _ => some ⟨.rol, .zeroPageX, 2⟩
  | .rolAbsX _ => some ⟨.rol, .absoluteX, 3⟩
  | .rorZp _ => some ⟨.ror, .zeroPage, 2⟩
  | .rorAcc => some ⟨.ror, .accumulator, 1⟩
  | .rorAbs _ => some ⟨.ror, .absolute, 3⟩
  | .rorZpX _ => some ⟨.ror, .zeroPageX, 2⟩
  | .rorAbsX _ => some ⟨.ror, .absoluteX, 3⟩
  -- 45_control.md
  | .jmpAbs _ => some ⟨.jmp, .absolute, 3⟩
  | .jmpInd _ => some ⟨.jmp, .indirect, 3⟩
  | .jsr _ => some ⟨.jsr, .absolute, 3⟩
  | .rts => some ⟨.rts, .implied, 1⟩
  | .rti => some ⟨.rti, .implied, 1⟩
  | .brk => some ⟨.brk, .implied, 1⟩
  | .bcc _ => some ⟨.bcc, .relative, 2⟩
  | .bcs _ => some ⟨.bcs, .relative, 2⟩
  | .beq _ => some ⟨.beq, .relative, 2⟩
  | .bmi _ => some ⟨.bmi, .relative, 2⟩
  | .bne _ => some ⟨.bne, .relative, 2⟩
  | .bpl _ => some ⟨.bpl, .relative, 2⟩
  | .bvc _ => some ⟨.bvc, .relative, 2⟩
  | .bvs _ => some ⟨.bvs, .relative, 2⟩
  -- 46_flags_misc.md
  | .clc => some ⟨.clc, .implied, 1⟩
  | .cld => some ⟨.cld, .implied, 1⟩
  | .cli => some ⟨.cli, .implied, 1⟩
  | .clv => some ⟨.clv, .implied, 1⟩
  | .sec => some ⟨.sec, .implied, 1⟩
  | .sed => some ⟨.sed, .implied, 1⟩
  | .sei => some ⟨.sei, .implied, 1⟩
  | .nop => some ⟨.nop, .implied, 1⟩
  | .unimplemented _ => none

end Sys2Proof
end

