-- ==== Sys2Proof/Machine/State.lean ====
section
/-!
DEFINITION. The state of the block as plain data (10_state.md R28), its value right after reset, and the reasons a step
can stop.
-/

namespace Sys2Proof.Machine

/-- The eight byte registers (R10, R11). -/
structure RegFile where
  status : Byte
  stack  : Byte
  accum  : Byte
  indX   : Byte
  indY   : Byte
  s5     : Byte
  s6     : Byte
  s7     : Byte
  deriving DecidableEq, Repr

/-- The names the registers are addressed by (R10). -/
inductive Reg where
  | status
  | stack
  | accum
  | indX
  | indY
  | s5
  | s6
  | s7
  deriving DecidableEq, Repr

/-- The kinds of a fault record (R24, R264). -/
inductive FaultKind where
  | unimplementedOpcode
  | outOfRange
  | cycleCounterOverflow
  deriving DecidableEq, Repr

/-- The detail of a fault record (R264): the opcode byte, the address of the access before mirror resolution (for an
indexed sum above 0xFFFF the unwrapped sum), or NONE. -/
inductive FaultDetail where
  | opcode  (op : Byte)
  | address (a : Nat)
  | none
  deriving DecidableEq, Repr

/-- A fault record `(kind, pc_at_fault, detail)` (R24, R264). -/
structure FaultRecord where
  kind      : FaultKind
  pcAtFault : Word
  detail    : FaultDetail
  deriving DecidableEq, Repr

/-- The bytes of the backing store that something has written since the store last took unspecified contents
(20_memory.md R40, 70_reset_and_hazards.md R292): address and byte, the addresses strictly rising. A cell that is not
listed holds a free value (notes/assumptions/4.md). -/
abbrev Memory := List Host.Cell

/-- The canonical form of a memory: its addresses rise strictly. No entry can equal what an unlisted address reads as,
since that is no value of the list: `Memory.read` answers none there. -/
def Memory.wf : Memory → Bool
  | [] => true
  | [_] => true
  | (a, _) :: (b, w) :: m => decide (a < b) && Memory.wf ((b, w) :: m)

/-- The block: its configuration, which nothing changes (R5, notes/assumptions/1.md), and every piece of state of R28.
`memEpoch`, `deviceLog` and `draws` are the model's own (notes/assumptions/4.md, 6.md, 7.md, 8.md, 12.md). -/
structure State where
  /-- The configuration the machine was constructed with. -/
  cfg       : Config
  /-- The register file (R10). -/
  regs      : RegFile
  /-- The program counter (R20). -/
  pc        : Word
  /-- Whether reset has been called (R26, R291). -/
  resetDone : Bool
  /-- The cycle counter (R21). -/
  cycles    : Cycles
  /-- The pending listeners, in the order they were registered (R22). -/
  listeners : List Listener
  /-- The registration counter (R23). -/
  nextSeq   : Nat
  /-- The fault status (R24). -/
  fault     : Option FaultRecord
  /-- The written bytes of the backing store (R40). -/
  mem       : Memory
  /-- MODEL: how often the store has taken unspecified contents. -/
  memEpoch  : Nat
  /-- MODEL: what has reached the devices, newest first (R44). -/
  deviceLog : List DeviceEvent
  /-- MODEL: how many free values have been drawn. -/
  draws     : Nat
  deriving DecidableEq, Repr

/-- The faults a step can raise (60_exceptions.md R275). Each carries the state the machine is left in: the effects of
the step's accesses before the fault, and the fault record in the fault status (R130, R264; notes/assumptions/9.md). All
three are the spec's own faults; ending the step there is what the spec says, so none makes a false claim provable. -/
inductive Fault where
  /-- Raised by fetch, through `execUnimplemented`, after the counted read of a byte of R88 (R260). Safe. -/
  | unimplementedOpcode (after : State)
  /-- Raised by a counted access whose address has no cell and no device, and by an indexed sum above 0xFFFF under
  ABS_INDEX_OVERFLOW = fault (R261). Safe. -/
  | outOfRange (after : State)
  /-- Raised by a counted access at cycles = 2^64 - 1 (R263). Safe. -/
  | cycleCounterOverflow (after : State)
  deriving DecidableEq, Repr

/-- The state a fault leaves the machine in. -/
def Fault.after : Fault → State
  | .unimplementedOpcode s => s
  | .outOfRange s => s
  | .cycleCounterOverflow s => s

/-- Why the model gives a case no meaning. Each is the spec's own refusal but `notModelled`. -/
inductive Refusal where
  /-- Raised by an arm of exec whose instruction has no meaning yet; no arm does so. Safe. -/
  | notModelled (mnemonic : String)
  /-- Raised by `step` and by the reading of a register before the first reset (R26, R296). Safe. -/
  | notReset
  /-- Raised by `step` while the fault status is set (R130; I22). Safe. -/
  | faultSet
  /-- Raised by an operation that reads an operand field holding NONE (R101, R122; I16). No instruction of the default
  table does. Safe. -/
  | operandNone
  /-- Raised by construction from an ill-formed configuration (R43, R290; I17). Safe. -/
  | illFormedConfig
  deriving DecidableEq, Repr

/-- The machine right after reset (R291, R296): constructed with the default configuration and reset with start address
0x0000 (DESIGN CHOICE, notes/assumptions/3.md). Every register is 0x00, the fault status is NONE, and the counter, the
listeners and next_seq are as construction left them. Under RESET_MEMORY = unspecified no cell is written yet, and the
store has taken unspecified contents once since construction. -/
def State.reset : State :=
  { cfg := Config.default
    regs := { status := 0, stack := 0, accum := 0, indX := 0, indY := 0, s5 := 0, s6 := 0, s7 := 0 }
    pc := 0x0000
    resetDone := true
    cycles := 0
    listeners := []
    nextSeq := 0
    fault := none
    mem := []
    memEpoch := 1
    deviceLog := []
    draws := 0 }

end Sys2Proof.Machine
end

