-- ==== Sys2Proof/Machine/Memory.lean ====
section
/-!
DEFINITION. The backing store as data, mirror resolution and routing (20_memory.md R40 to R45).
-/

namespace Sys2Proof.Machine

/-- The byte listed at an address, none where nothing has written. -/
def Memory.read : Memory → Nat → Option Byte
  | [], _ => none
  | (k, v) :: m, a => if k = a then some v else Memory.read m a

/-- Write one byte, keeping the addresses strictly rising. -/
def Memory.write : Memory → Nat → Byte → Memory
  | [], a, v => [(a, v)]
  | (k, w) :: m, a, v =>
    if a < k then (a, v) :: (k, w) :: m
    else if a = k then (a, v) :: m
    else (k, w) :: Memory.write m a v

/-- The byte a backing cell holds: the last one written, or the free value it took (R40, R292). -/
def State.cell (s : State) (r : Nat) : Byte :=
  match s.mem.read r with
  | some v => v
  | none => Config.unwrittenByte s.memEpoch r

/-- Write a backing cell. -/
def State.setCell (s : State) (r : Nat) (v : Byte) : State := { s with mem := s.mem.write r v }

/-- The canonical address of `a` through the first of a zone's mirrors that holds it (R42). -/
def mirrorHit (a start length : Nat) : List Nat → Option Nat
  | [] => none
  | m :: ms => if m ≤ a ∧ a < m + length then some (start + (a - m)) else mirrorHit a start length ms

/-- The canonical address of `a` through the first zone that mirrors it (R42). -/
def zoneHit (a : Nat) : List Zone → Option Nat
  | [] => none
  | z :: zs =>
    match mirrorHit a z.start z.length z.mirrors with
    | some r => some r
    | none => zoneHit a zs

/-- `resolve(a)` of R42. -/
def resolve (c : Config) (a : Word) : Nat :=
  match zoneHit a.toNat c.zones with
  | some r => r
  | none => a.toNat

/-- The device whose range holds a resolved address (R44). -/
def deviceAt (r : Nat) : List DeviceRange → Option Nat
  | [] => none
  | d :: ds => if d.start ≤ r ∧ r < d.start + d.length then some d.device else deviceAt r ds

/-- Where an access goes (R45). -/
inductive Route where
  | device (device addr : Nat)
  | backing (addr : Nat)
  | outOfRange
  deriving DecidableEq, Repr

/-- `route(a)` of R45: resolve, then a device, then the bound `r < CAPACITY`. -/
def route (c : Config) (a : Word) : Route :=
  let r := resolve c a
  match deviceAt r c.devices with
  | some d => .device d r
  | none => if r < c.capacity then .backing r else .outOfRange

end Sys2Proof.Machine
end

