-- ==== Sys2Proof/Machine/Flags.lean ====
section
/-!
DEFINITION. The register file's accessors, the flags of STATUS (10_state.md R12 to R14), and every flag and result
computation of 43_arithmetic.md and 44_logic_shift.md.
-/

namespace Sys2Proof.Machine

/-- Read a register by name (R10, R19). -/
def RegFile.get (f : RegFile) : Reg → Byte
  | .status => f.status
  | .stack => f.stack
  | .accum => f.accum
  | .indX => f.indX
  | .indY => f.indY
  | .s5 => f.s5
  | .s6 => f.s6
  | .s7 => f.s7

/-- Write a register by name; no two registers alias (R19). -/
def RegFile.set (f : RegFile) (r : Reg) (v : Byte) : RegFile :=
  match r with
  | .status => { f with status := v }
  | .stack => { f with stack := v }
  | .accum => { f with accum := v }
  | .indX => { f with indX := v }
  | .indY => { f with indY := v }
  | .s5 => { f with s5 := v }
  | .s6 => { f with s6 := v }
  | .s7 => { f with s7 := v }

/-- `R[name]` of R8. -/
def State.reg (s : State) (r : Reg) : Byte := s.regs.get r

/-- `R[name] <- v` of R8. -/
def State.setReg (s : State) (r : Reg) (v : Byte) : State := { s with regs := s.regs.set r v }

/-- `pc <- target` of R8. -/
def State.setPc (s : State) (target : Word) : State := { s with pc := target }

/-- The eight bits of STATUS by their names in R12. -/
inductive Flag where
  | c
  | z
  | i
  | d
  | b
  | unused
  | v
  | n
  deriving DecidableEq, Repr

/-- The bit of STATUS a flag stands in (R12). -/
def Flag.index : Flag → Nat
  | .c => 0
  | .z => 1
  | .i => 2
  | .d => 3
  | .b => 4
  | .unused => 5
  | .v => 6
  | .n => 7

/-- A flag of a status byte. -/
def flagOf (p : Byte) (f : Flag) : Bool := p.getLsbD f.index

/-- The byte that has a flag's bit alone. -/
def Flag.mask (f : Flag) : Byte := (1 : Byte) <<< f.index

/-- A status byte with one flag written and the other bits kept. -/
def withFlag (p : Byte) (f : Flag) (b : Bool) : Byte := if b then p ||| f.mask else p &&& ~~~f.mask

/-- `P.f` of R8. -/
def State.flag (s : State) (f : Flag) : Bool := flagOf (s.reg .status) f

/-- `P.f <- b` of R8. -/
def State.setFlag (s : State) (f : Flag) (b : Bool) : State :=
  s.setReg .status (withFlag (s.reg .status) f b)

/-- `NZ(v)` of R8: `P.N <- v[7]; P.Z <- (v == 0)`. -/
def State.setNZ (s : State) (v : Byte) : State :=
  (s.setFlag .n (v.getLsbD 7)).setFlag .z (decide (v = 0))

/-- The copy of STATUS that PHP and BRK push: bits 4 and 5 set (R14). -/
def pushedStatus (p : Byte) : Byte := p ||| 0x30

/-- The STATUS that PLP and RTI leave: bits 0 to 3, 6 and 7 of the pulled byte, bits 4 and 5 of the live one (R14). -/
def pulledStatus (pulled live : Byte) : Byte := (pulled &&& 0xCF) ||| (live &&& 0x30)

/-- The result and the four flags ADC and SBC write. -/
structure AluOut where
  value : Byte
  c     : Bool
  v     : Bool
  n     : Bool
  z     : Bool
  deriving DecidableEq, Repr

/-- ADC with D = 0 (R180). -/
def adcBinary (a m : Byte) (c : Bool) : AluOut :=
  let s := a.toNat + m.toNat + c.toNat
  let r := BitVec.ofNat 8 s
  { value := r
    c := decide (s > 0xFF)
    v := decide (((~~~a ^^^ m) &&& (a ^^^ r) &&& 0x80) ≠ 0)
    n := r.getLsbD 7
    z := decide (r = 0) }

/-- `sv(x)` of R194 for a byte of the form `x & 0xF0`. -/
def signedHigh (x : Byte) : Int := if x.toNat ≥ 0x80 then (x.toNat : Int) - 256 else x.toNat

/-- ADC with D = 1, the NMOS algorithm (R180). -/
def adcDecimal (a m : Byte) (c : Bool) : AluOut :=
  let bin := (a.toNat + m.toNat + c.toNat) % 256
  let al0 := (a &&& 0x0F).toNat + (m &&& 0x0F).toNat + c.toNat
  let al := if al0 ≥ 0x0A then (al0 + 0x06) % 16 + 0x10 else al0
  let t0 := (a &&& 0xF0).toNat + (m &&& 0xF0).toNat + al
  let st : Int := signedHigh (a &&& 0xF0) + signedHigh (m &&& 0xF0) + al
  let t := if t0 ≥ 0xA0 then t0 + 0x60 else t0
  { value := BitVec.ofNat 8 t
    c := decide (t ≥ 0x100)
    v := decide (st < -128 ∨ st > 127)
    n := (BitVec.ofInt 8 st).getLsbD 7
    z := decide (bin = 0) }

/-- The exact difference `a - m - (1 - c)` of SBC (R181). -/
def sbcDifference (a m : Byte) (c : Bool) : Int := (a.toNat : Int) - m.toNat - (1 - c.toNat)

/-- SBC with D = 0 (R181). -/
def sbcBinary (a m : Byte) (c : Bool) : AluOut :=
  let d := sbcDifference a m c
  let bin := BitVec.ofInt 8 d
  { value := bin
    c := decide (d ≥ 0)
    v := decide (((a ^^^ m) &&& (a ^^^ bin) &&& 0x80) ≠ 0)
    n := bin.getLsbD 7
    z := decide (bin = 0) }

/-- The result byte of SBC with D = 1 (R181); `x & 0x0F` of a negative integer is its remainder by 16 (R194). -/
def sbcDecimalValue (a m : Byte) (c : Bool) : Byte :=
  let al0 : Int := ((a &&& 0x0F).toNat : Int) - (m &&& 0x0F).toNat + c.toNat - 1
  let al := if al0 < 0 then (al0 - 0x06) % 16 - 0x10 else al0
  let t0 : Int := ((a &&& 0xF0).toNat : Int) - (m &&& 0xF0).toNat + al
  let t := if t0 < 0 then t0 - 0x60 else t0
  BitVec.ofInt 8 t

/-- SBC with D = 1: the flags of the binary difference, the result of the decimal algorithm (R181). -/
def sbcDecimal (a m : Byte) (c : Bool) : AluOut :=
  { sbcBinary a m c with value := sbcDecimalValue a m c }

/-- A byte is valid BCD when no nibble is above 9 (93_implementation_defined.md I14). -/
def validBcd (b : Byte) : Bool := decide ((b &&& 0x0F).toNat ≤ 9) && decide ((b >>> 4).toNat ≤ 9)

/-- What the NMOS algorithm gives for an operation with D = 1 (R180, R181). -/
def decimalNmos : DecimalOp → Byte → Byte → Bool → AluOut
  | .adc => adcDecimal
  | .sbc => sbcDecimal

/-- What an operation gives with D = 0 (R180, R181). -/
def binaryAlu : DecimalOp → Byte → Byte → Bool → AluOut
  | .adc => adcBinary
  | .sbc => sbcBinary

/-- A free answer of DECIMAL_RESULT = host oracle as a result. -/
def oracleAlu (w : DecimalAnswer) : AluOut := { value := w.value, c := w.c, v := w.v, n := w.n, z := w.z }

/-- Whether ADC or SBC takes its result from the host oracle: D = 1, DECIMAL_RESULT = host oracle, and an operand that is
not valid BCD (R5; I14). -/
def State.decimalOpen (s : State) (m : Byte) : Bool :=
  s.flag .d && decide (s.cfg.decimalResult = .hostOracle) && !(validBcd (s.reg .accum) && validBcd m)

/-- The result of ADC or SBC on A and the data byte, by P.C and P.D (R180, R181). -/
def State.alu (s : State) (op : DecimalOp) (m : Byte) : AluOut :=
  if s.decimalOpen m then oracleAlu (Config.decimalOracle s.draws op (s.reg .accum) m (s.flag .c))
  else if s.flag .d then decimalNmos op (s.reg .accum) m (s.flag .c)
  else binaryAlu op (s.reg .accum) m (s.flag .c)

/-- Count a free value the operation drew. -/
def State.countDraw (s : State) (drawn : Bool) : State := if drawn then { s with draws := s.draws + 1 } else s

/-- Write the result of ADC or SBC: A, C, V, N and Z. -/
def State.writeAlu (s : State) (o : AluOut) : State :=
  ((((s.setReg .accum o.value).setFlag .c o.c).setFlag .v o.v).setFlag .n o.n).setFlag .z o.z

/-- The flags of a compare of a register with the data byte: C when no borrow occurs, N and Z of the difference (R182 to
R184). -/
def State.setCompare (s : State) (r m : Byte) : State :=
  (s.setFlag .c (decide (r.toNat ≥ m.toNat))).setNZ (r - m)

/-- The flags of BIT: Z of A & m, N and V the bits 7 and 6 of m (R203). -/
def State.setBitTest (s : State) (m : Byte) : State :=
  ((s.setFlag .z (decide (s.reg .accum &&& m = 0))).setFlag .n (m.getLsbD 7)).setFlag .v (m.getLsbD 6)

/-- The carry as the bit 0 of a byte. -/
def carryBit (c : Bool) : Byte := if c then 1 else 0

/-- `(v << 1) mod 256` with a bit shifted in at 0 (R204, R206). -/
def shiftLeft (v : Byte) (c : Bool) : Byte := (v <<< 1) ||| carryBit c

/-- `v >> 1` with a bit shifted in at 7 (R205, R207). -/
def shiftRight (v : Byte) (c : Bool) : Byte := (v >>> 1) ||| (carryBit c <<< 7)

end Sys2Proof.Machine
end

