-- ==== Sys2Proof/Machine/Mapper.lean ====
section
/-!
DEFINITION. The two ends of an access, backing cell and device (20_memory.md R44, R61, R62), and the host's uncounted
mapper operations read, write, writeArray and read16 (R46 to R49), which a listener callback may use too (R66).
-/

namespace Sys2Proof.Machine

/-- The failures a host operation reports as its result (60_exceptions.md R261, R262). -/
inductive HostError where
  | outOfRange
  | overlapOrOverrun
  deriving DecidableEq, Repr

/-- The result of a host operation. -/
inductive HostResult (α : Type) where
  | success (v : α)
  | failure (e : HostError)
  | refused (r : Refusal)
  deriving DecidableEq, Repr

/-- Let something reach the devices (R44). -/
def State.logDevice (s : State) (e : DeviceEvent) : State := { s with deviceLog := e :: s.deviceLog }

/-- A device's answer, a free value; the read reaches the device (R44). -/
def deviceRead (device addr : Nat) (s : State) : Byte × State :=
  (Config.deviceByte device addr s.cycles s.deviceLog, s.logDevice (.read device addr))

/-- Deliver a write to a device; no backing byte changes (R44). -/
def deviceWrite (device addr : Nat) (v : Byte) (s : State) : State := s.logDevice (.write device addr v)

/-- Move the byte of a read at a route; none where the route is OUT_OF_RANGE. -/
def transferRead (t : Route) (s : State) : Option (Byte × State) :=
  match t with
  | .backing r => some (s.cell r, s)
  | .device d r => some (deviceRead d r s)
  | .outOfRange => none

/-- Move the byte of a write at a route; none where the route is OUT_OF_RANGE. -/
def transferWrite (t : Route) (v : Byte) (s : State) : Option State :=
  match t with
  | .backing r => some (s.setCell r v)
  | .device d r => some (deviceWrite d r v s)
  | .outOfRange => none

/-- The host's `read(address)` (R46): uncounted. -/
def hostRead (a : Word) (s : State) : HostResult Byte × State :=
  match transferRead (route s.cfg a) s with
  | some (v, t) => (.success v, t)
  | none => (.failure .outOfRange, s)

/-- The host's `write(address, byte)` (R48): uncounted, and an out-of-range one changes nothing. -/
def hostWrite (a : Word) (v : Byte) (s : State) : HostResult Unit × State :=
  match transferWrite (route s.cfg a) v s with
  | some t => (.success (), t)
  | none => (.failure .outOfRange, s)

/-- The word of two read results, high byte first; a failure of either fails it. -/
def combineReads (h l : HostResult Byte) : HostResult Word :=
  match h, l with
  | .success h, .success l => .success (wordOf h l)
  | _, _ => .failure .outOfRange

/-- The host's `read16(address)` (R49): both bytes are read, each resolved on its own, uncounted; then the high byte is
the first. DESIGN CHOICE (notes/assumptions/19.md): where one byte has no cell, the other's read has still been made, and a
device it was routed to has seen it. -/
def hostRead16 (a : Word) (s : State) : HostResult Word × State :=
  (combineReads (hostRead a s).1 (hostRead (a + 1) (hostRead a s).2).1, (hostRead (a + 1) (hostRead a s).2).2)

/-- Store bytes at rising addresses, each resolved on its own (the loop of R47). -/
def storeBytes : List Byte → Word → State → State
  | [], _, s => s
  | v :: vs, a, s => storeBytes vs (a + 1) (hostWrite a v s).2

/-- The `count` bytes `bytes[k]`, `bytes[k + 1]`, ... of a load: those of the list, and a free value for each index past
its end (R47; notes/assumptions/12.md). -/
def loadedBytes (draw : Nat) : Nat → Nat → List Byte → List Byte
  | 0, _, _ => []
  | n + 1, k, [] => Config.missingByte draw k :: loadedBytes draw n (k + 1) []
  | n + 1, k, v :: vs => v :: loadedBytes draw n (k + 1) vs

/-- The host's `writeArray(startAddress, bytes, length)` (R47): all or nothing. -/
def hostWriteArray (start : Word) (bytes : List Byte) (length : Nat) (s : State) : HostResult Unit × State :=
  if start.toNat + length > s.cfg.capacity then (.failure .overlapOrOverrun, s)
  else (.success (), (storeBytes (loadedBytes s.draws length 0 bytes) start s).countDraw (decide (bytes.length < length)))

/-- The host's `add_listener(target, id)` (70_reset_and_hazards.md R290, 10_state.md R22, R23). -/
def addListener (target : Cycles) (id : Nat) (s : State) : State :=
  { s with listeners := s.listeners ++ [{ target := target, seq := s.nextSeq, id := id }]
           nextSeq := s.nextSeq + 1 }

end Sys2Proof.Machine
end

