-- ==== Sys2Proof/Machine/Ops.lean ====
section
/-!
DEFINITION. What every instruction is made of: raising a fault, the counted access primitives with their listener scan
(20_memory.md R60 to R66), the stack primitives, and taking and leaving the block's one trap (60_exceptions.md R268).
-/

namespace Sys2Proof.Machine

/-- Go on with what a part of a step answered; a fault or a refusal ends the step there (40_pipeline.md R130). -/
def andThen {α β : Type} (o : Host.Outcome α Fault Refusal) (k : α → Host.Outcome β Fault Refusal) :
    Host.Outcome β Fault Refusal :=
  match o with
  | .next x => k x
  | .fault f => .fault f
  | .refused r => .refused r

/-- The fault status written: the record of R264. -/
def State.withFault (s : State) (kind : FaultKind) (detail : FaultDetail) : State :=
  { s with fault := some { kind := kind, pcAtFault := s.pc, detail := detail } }

/-- Raise a fault: the step ends, the record is written, and every effect made before stays (R130, R264). -/
def raise {α : Type} (kind : FaultKind) (detail : FaultDetail) (s : State) : Host.Outcome α Fault Refusal :=
  match kind with
  | .unimplementedOpcode => .fault (.unimplementedOpcode (s.withFault kind detail))
  | .outOfRange => .fault (.outOfRange (s.withFault kind detail))
  | .cycleCounterOverflow => .fault (.cycleCounterOverflow (s.withFault kind detail))

/-- Put a listener into a list sorted by (target, seq) (R63). -/
def insertDue (l : Listener) : List Listener → List Listener
  | [] => [l]
  | k :: ks =>
    if l.target < k.target ∨ (l.target = k.target ∧ l.seq ≤ k.seq) then l :: k :: ks
    else k :: insertDue l ks

/-- Sort by target ascending, then by registration number ascending (R63). -/
def sortDue : List Listener → List Listener
  | [] => []
  | l :: ls => insertDue l (sortDue ls)

/-- A listener is due when the count has passed its target (R63). -/
def State.isDue (s : State) (l : Listener) : Bool := decide (s.cycles > l.target)

/-- What a callback sees (R65, R66). -/
def State.view (s : State) : CallbackView :=
  { cycles := s.cycles, mem := s.mem, epoch := s.memEpoch, log := s.deviceLog, draws := s.draws }

/-- Do one thing a callback does (R66); all of it is uncounted and fires nothing (R68). -/
def applyAction (s : State) (a : HostAction) : State :=
  match a with
  | .read a => (hostRead a s).2
  | .read16 a => (hostRead16 a s).2
  | .write a v => (hostWrite a v s).2
  | .writeArray start bytes length => (hostWriteArray start bytes length s).2
  | .addListener target id => addListener target id s
  | .changeDevice device tag => s.logDevice (.changed device tag)

/-- Do several things in order. -/
def applyActions : List HostAction → State → State
  | [], s => s
  | a :: as, s => applyActions as (applyAction s a)

/-- Invoke the callback of a fired listener: its effect is a free value (R66). -/
def invoke (l : Listener) (s : State) : State :=
  applyActions (Config.listenerEffect l s.view) { s with draws := s.draws + 1 }

/-- Invoke callbacks in order. -/
def invokeAll : List Listener → State → State
  | [], s => s
  | l :: ls, s => invokeAll ls (invoke l s)

/-- `fire_due()` of R63: a snapshot of the due listeners, sorted, removed, then invoked. -/
def fireDue (s : State) : State :=
  invokeAll (sortDue (s.listeners.filter s.isDue))
    { s with listeners := s.listeners.filter fun l => !s.isDue l }

/-- The end of a counted access: the count rises by one, then the listeners are scanned (R60, R61). -/
def State.tick (s : State) : State := fireDue { s with cycles := s.cycles + 1 }

/-- The count a counted access can no longer raise (R263). -/
def lastCycle : Cycles := BitVec.allOnes 64

/-- `MemRead(a, 1)` (R61): route, overflow check, transfer, count, listeners. -/
def memRead (a : Word) (s : State) : Host.Outcome (Byte × State) Fault Refusal :=
  match transferRead (route s.cfg a) s with
  | none => raise .outOfRange (.address a.toNat) s
  | some (v, t) =>
    if s.cycles = lastCycle then raise .cycleCounterOverflow .none s
    else .next (v, t.tick)

/-- `MemWrite(a, 1, v)` (R62). -/
def memWrite (a : Word) (v : Byte) (s : State) : Host.Outcome State Fault Refusal :=
  match transferWrite (route s.cfg a) v s with
  | none => raise .outOfRange (.address a.toNat) s
  | some t =>
    if s.cycles = lastCycle then raise .cycleCounterOverflow .none s
    else .next t.tick

/-- Two counted reads, low byte first, as a little-endian word (R53). -/
def readWord (lo hi : Word) (s : State) : Host.Outcome (Word × State) Fault Refusal :=
  andThen (memRead lo s) fun (l, s) =>
  andThen (memRead hi s) fun (h, s) =>
  .next (wordOf h l, s)

/-- The address `0x0100 + SP` (42_transfer_stack.md R160, 10_state.md R15). -/
def stackAddress (sp : Byte) : Word := 0x0100 + sp.setWidth 16

/-- `push(v)` (R160): write, then move SP down; if the write faults SP is unchanged. -/
def push (v : Byte) (s : State) : Host.Outcome State Fault Refusal :=
  andThen (memWrite (stackAddress (s.reg .stack)) v s) fun s =>
  .next (s.setReg .stack (s.reg .stack - 1))

/-- `pull()` (R161): move SP up, then read; if the read faults SP keeps its new value. -/
def pull (s : State) : Host.Outcome (Byte × State) Fault Refusal :=
  let s := s.setReg .stack (s.reg .stack + 1)
  memRead (stackAddress (s.reg .stack)) s

/-- Push a word, high byte first (R221, R224). -/
def pushWord (w : Word) (s : State) : Host.Outcome State Fault Refusal :=
  andThen (push (highByte w) s) fun s => push (lowByte w) s

/-- Pull a word, low byte first (R222, R223). -/
def pullWord (s : State) : Host.Outcome (Word × State) Fault Refusal :=
  andThen (pull s) fun (lo, s) =>
  andThen (pull s) fun (hi, s) =>
  .next (wordOf hi lo, s)

/-- Taking the block's one trap (R224, R268): push the return word, high byte first, then P with bits 4 and 5 set; set I;
load pc from the little-endian word at 0xFFFE and 0xFFFF. `s.pc` is already past the opcode. -/
def takeBreak (s : State) : Host.Outcome State Fault Refusal :=
  andThen (pushWord (s.pc + 1) s) fun s =>
  andThen (push (pushedStatus (s.reg .status)) s) fun s =>
  andThen (readWord 0xFFFE 0xFFFF (s.setFlag .i true)) fun (target, s) =>
  .next (s.setPc target)

/-- Pull STATUS: bits 4 and 5 of the live one stay (R14, R171, R223). -/
def pullStatus (s : State) : Host.Outcome State Fault Refusal :=
  andThen (pull s) fun (v, s) => .next (s.setReg .status (pulledStatus v (s.reg .status)))

/-- Returning from the trap (R223, R268): pull P, then pc, without adding 1. -/
def returnFromBreak (s : State) : Host.Outcome State Fault Refusal :=
  andThen (pullStatus s) fun s =>
  andThen (pullWord s) fun (target, s) =>
  .next (s.setPc target)

end Sys2Proof.Machine
end

