-- ==== Sys2Proof/Machine/Operands.lean ====
section
/-!
DEFINITION. The thirteen addressing modes (40_pipeline.md R102 to R114), the Instruction Parameters (10_state.md R25), the
helpers LOAD, STORE and RMW (R122 to R124), and one instruction from its operand bytes on (R119 to R121).
-/

namespace Sys2Proof.Machine

/-- Sign extension of a byte to a word: `sext_16` of R6, by which `sval` of a Relative offset is added (R114). -/
def signExtend (b : Byte) : Word := if b.toNat < 0x80 then b.setWidth 16 else b.setWidth 16 + 0xFF00

/-- The Instruction Parameters (R25); none is the NONE of R101. -/
structure Params where
  operand : Option Byte
  address : Word
  mode    : Mode
  size    : Nat
  deriving DecidableEq, Repr

/-- An operation of SEMANTICS (R121). -/
abbrev Operation := Params → State → Host.Outcome State Fault Refusal

/-- The indexed zero-page address under ZP_INDEX_MODE (R112, R113). -/
def zpIndexed (c : Config) (b idx : Byte) : Word :=
  match c.zpIndexMode with
  | .wrap8 => (b + idx).setWidth 16
  | .signedSource => b.setWidth 16 + signExtend idx

/-- The two addresses of an IndexedIndirect pointer under ZP_POINTER_WRAP (R107). -/
def indexedPointer (c : Config) (b x : Byte) : Word × Word :=
  if c.zpPointerWrap then ((b + x).setWidth 16, (b + x + 1).setWidth 16)
  else (b.setWidth 16 + x.setWidth 16, b.setWidth 16 + x.setWidth 16 + 1)

/-- The two addresses of an IndirectIndexed pointer under ZP_POINTER_WRAP (R109). -/
def zpPointer (c : Config) (b : Byte) : Word × Word :=
  (b.setWidth 16, if c.zpPointerWrap then (b + 1).setWidth 16 else b.setWidth 16 + 1)

/-- The address of the high byte of an Indirect pointer under INDIRECT_PAGE_BUG (R108). -/
def indirectHigh (c : Config) (ptr : Word) : Word :=
  if c.indirectPageBug then (ptr &&& 0xFF00) ||| ((ptr + 1) &&& 0x00FF) else ptr + 1

/-- Whether an indexed sum is refused as an address: it is above 0xFFFF and ABS_INDEX_OVERFLOW is fault (R104). -/
def sumFaults (c : Config) (base : Word) (idx : Byte) : Bool :=
  decide (base.toNat + idx.toNat > 0xFFFF) && decide (c.absIndexOverflow = .fault)

/-- The sum of a base address and an index register under ABS_INDEX_OVERFLOW (R104, R105, R109, R261). -/
def indexedSum (base : Word) (idx : Byte) (s : State) : Host.Outcome (Word × State) Fault Refusal :=
  if sumFaults s.cfg base idx then raise .outOfRange (.address (base.toNat + idx.toNat)) s
  else .next (base + idx.setWidth 16, s)

/-- What fetch resolves a mode to: operand and address (R101). -/
abbrev Resolved := Host.Outcome ((Option Byte × Word) × State) Fault Refusal

/-- The pre-read of the byte at the effective address (R116). -/
def preRead (ea : Word) (s : State) : Resolved :=
  andThen (memRead ea s) fun (v, s) => .next ((some v, ea), s)

/-- A mode that resolves to an address with no operand. -/
def addressOnly (o : Host.Outcome (Word × State) Fault Refusal) : Resolved :=
  andThen o fun (ea, s) => .next ((none, ea), s)

/-- Resolve a mode from the operand bytes at pc + 1 and pc + 2, which fetch has read (R102 to R114); pc is still the
opcode's address (R117). -/
def resolveMode (mode : Mode) (b1 b2 : Byte) (s : State) : Resolved :=
  match mode with
  | .absolute => .next ((none, wordOf b2 b1), s)
  | .accumulator => .next ((some (s.reg .accum), 0x0000), s)
  | .absoluteX => addressOnly (indexedSum (wordOf b2 b1) (s.reg .indX) s)
  | .absoluteY => addressOnly (indexedSum (wordOf b2 b1) (s.reg .indY) s)
  | .immediate => .next ((some b1, s.pc + 1), s)
  | .indexedIndirect =>
    andThen (readWord (indexedPointer s.cfg b1 (s.reg .indX)).1 (indexedPointer s.cfg b1 (s.reg .indX)).2 s)
      fun (ea, s) => preRead ea s
  | .indirect => addressOnly (readWord (wordOf b2 b1) (indirectHigh s.cfg (wordOf b2 b1)) s)
  | .indirectIndexed =>
    andThen (readWord (zpPointer s.cfg b1).1 (zpPointer s.cfg b1).2 s) fun (base, s) =>
    andThen (indexedSum base (s.reg .indY) s) fun (ea, s) =>
    preRead ea s
  | .implied => .next ((none, s.pc), s)
  | .zeroPage => preRead (b1.setWidth 16) s
  | .zeroPageX => preRead (zpIndexed s.cfg b1 (s.reg .indX)) s
  | .zeroPageY => preRead (zpIndexed s.cfg b1 (s.reg .indY)) s
  | .relative => .next ((none, s.pc + 2 + signExtend b1), s)

/-- The pre-advance of execute: `pc <- (pc + size) mod 65536` (R120). -/
def State.advance (s : State) (size : Nat) : State := s.setPc (s.pc + BitVec.ofNat 16 size)

/-- An instruction from its operand bytes on: the rest of fetch by the mode, the pre-advance by the size, then the
operation (R115, R119 to R121). The mode decides what is read and the size decides the advance (R84). -/
def runEntry (mode : Mode) (size : Nat) (b1 b2 : Byte) (operation : Operation) (s : State) :
    Host.Outcome State Fault Refusal :=
  andThen (resolveMode mode b1 b2 s) fun ((operand, address), s) =>
  operation { operand := operand, address := address, mode := mode, size := size } (s.advance size)

/-- Read the operand field of the parameters; NONE is refused (R101). -/
def operandOf (p : Params) (s : State) : Host.Outcome (Byte × State) Fault Refusal :=
  match p.operand with
  | some v => .next (v, s)
  | none => .refused .operandNone

/-- `LOAD(params)` (R122). -/
def load (p : Params) (s : State) : Host.Outcome (Byte × State) Fault Refusal :=
  match p.mode with
  | .immediate | .zeroPage | .zeroPageX | .zeroPageY | .indexedIndirect | .indirectIndexed | .accumulator =>
    operandOf p s
  | .absolute | .absoluteX | .absoluteY => memRead p.address s
  | .implied | .indirect | .relative => .refused .operandNone

/-- `STORE(params, v)` (R123). -/
def store (p : Params) (v : Byte) (s : State) : Host.Outcome State Fault Refusal := memWrite p.address v s

/-- `RMW(params, f)` (R124): f may write P.C, and does so before the write back. -/
def rmw (p : Params) (f : Byte → State → Byte × State) (s : State) : Host.Outcome (Byte × State) Fault Refusal :=
  match p.mode with
  | .accumulator =>
    andThen (operandOf p s) fun (v, s) =>
    .next ((f v s).1, (f v s).2.setReg .accum (f v s).1)
  | _ =>
    andThen (load p s) fun (v, s) =>
    andThen (memWrite p.address (f v s).1 (f v s).2) fun t =>
    .next ((f v s).1, t)

end Sys2Proof.Machine
end

