-- ==== Sys2Proof/Machine/Arithmetic.lean ====
section
/-!
DEFINITION. Add, subtract, compare, increment and decrement (43_arithmetic.md R180 to R194). First the operations of SEMANTICS (40_pipeline.md R121), one per mnemonic, then the meaning of each
row of the opcode table: its mode, its size and its operand bytes given to the operation.
-/

namespace Sys2Proof.Machine

/-- Add or subtract the data byte to or from A (R180, R181). -/
def addSubtract (op : DecimalOp) (p : Params) (s : State) : Host.Outcome State Fault Refusal :=
  andThen (load p s) fun (m, s) => .next ((s.writeAlu (s.alu op m)).countDraw (s.decimalOpen m))

/-- ADC (R180). -/
def opAdc : Operation := addSubtract .adc

/-- SBC (R181). -/
def opSbc : Operation := addSubtract .sbc

/-- Compare a register with the data byte (R182 to R184). -/
def compareReg (r : Reg) (p : Params) (s : State) : Host.Outcome State Fault Refusal :=
  andThen (load p s) fun (m, s) => .next (s.setCompare (s.reg r) m)

/-- CMP (R182). -/
def opCmp : Operation := compareReg .accum

/-- CPX (R183). -/
def opCpx : Operation := compareReg .indX

/-- CPY (R184). -/
def opCpy : Operation := compareReg .indY

/-- Read, modify and write back by a function of the byte alone, then NZ (R185, R186). -/
def rmwPlain (f : Byte → Byte) (p : Params) (s : State) : Host.Outcome State Fault Refusal :=
  andThen (rmw p (fun v s => (f v, s)) s) fun (r, s) => .next (s.setNZ r)

/-- INC (R185). -/
def opInc : Operation := rmwPlain (· + 1)

/-- DEC (R186). -/
def opDec : Operation := rmwPlain (· - 1)

/-- Change an index register by a function of it, then NZ (R187 to R190). -/
def stepReg (r : Reg) (f : Byte → Byte) (_ : Params) (s : State) : Host.Outcome State Fault Refusal :=
  .next ((s.setReg r (f (s.reg r))).setNZ (f (s.reg r)))

/-- INX (R187). -/
def opInx : Operation := stepReg .indX (· + 1)

/-- INY (R188). -/
def opIny : Operation := stepReg .indY (· + 1)

/-- DEX (R189). -/
def opDex : Operation := stepReg .indX (· - 1)

/-- DEY (R190). -/
def opDey : Operation := stepReg .indY (· - 1)

/-- `ADC ($nn,X)` (R180). -/
def execAdcIndX (zp : Byte) (s : State) : Host.Outcome State Fault Refusal :=
  runEntry .indexedIndirect 2 zp 0 opAdc s

/-- `ADC $nn` (R180). -/
def execAdcZp (zp : Byte) (s : State) : Host.Outcome State Fault Refusal :=
  runEntry .zeroPage 2 zp 0 opAdc s

/-- `ADC #$nn` (R180). -/
def execAdcImm (v : Byte) (s : State) : Host.Outcome State Fault Refusal :=
  runEntry .immediate 2 v 0 opAdc s

/-- `ADC $hhll` (R180). -/
def execAdcAbs (addr : Word) (s : State) : Host.Outcome State Fault Refusal :=
  runEntry .absolute 3 (lowByte addr) (highByte addr) opAdc s

/-- `ADC ($nn),Y` (R180). -/
def execAdcIndY (zp : Byte) (s : State) : Host.Outcome State Fault Refusal :=
  runEntry .indirectIndexed 2 zp 0 opAdc s

/-- `ADC $nn,X` (R180). -/
def execAdcZpX (zp : Byte) (s : State) : Host.Outcome State Fault Refusal :=
  runEntry .zeroPageX 2 zp 0 opAdc s

/-- `ADC $hhll,Y` (R180). -/
def execAdcAbsY (addr : Word) (s : State) : Host.Outcome State Fault Refusal :=
  runEntry .absoluteY 3 (lowByte addr) (highByte addr) opAdc s

/-- `ADC $hhll,X` (R180). -/
def execAdcAbsX (addr : Word) (s : State) : Host.Outcome State Fault Refusal :=
  runEntry .absoluteX 3 (lowByte addr) (highByte addr) opAdc s

/-- `SBC ($nn,X)` (R181). -/
def execSbcIndX (zp : Byte) (s : State) : Host.Outcome State Fault Refusal :=
  runEntry .indexedIndirect 2 zp 0 opSbc s

/-- `SBC $nn` (R181). -/
def execSbcZp (zp : Byte) (s : State) : Host.Outcome State Fault Refusal :=
  runEntry .zeroPage 2 zp 0 opSbc s

/-- `SBC #$nn` (R181). -/
def execSbcImm (v : Byte) (s : State) : Host.Outcome State Fault Refusal :=
  runEntry .immediate 2 v 0 opSbc s

/-- `SBC $hhll` (R181). -/
def execSbcAbs (addr : Word) (s : State) : Host.Outcome State Fault Refusal :=
  runEntry .absolute 3 (lowByte addr) (highByte addr) opSbc s

/-- `SBC ($nn),Y` (R181). -/
def execSbcIndY (zp : Byte) (s : State) : Host.Outcome State Fault Refusal :=
  runEntry .indirectIndexed 2 zp 0 opSbc s

/-- `SBC $nn,X` (R181). -/
def execSbcZpX (zp : Byte) (s : State) : Host.Outcome State Fault Refusal :=
  runEntry .zeroPageX 2 zp 0 opSbc s

/-- `SBC $hhll,Y` (R181). -/
def execSbcAbsY (addr : Word) (s : State) : Host.Outcome State Fault Refusal :=
  runEntry .absoluteY 3 (lowByte addr) (highByte addr) opSbc s

/-- `SBC $hhll,X` (R181). -/
def execSbcAbsX (addr : Word) (s : State) : Host.Outcome State Fault Refusal :=
  runEntry .absoluteX 3 (lowByte addr) (highByte addr) opSbc s

/-- `CMP ($nn,X)` (R182). -/
def execCmpIndX (zp : Byte) (s : State) : Host.Outcome State Fault Refusal :=
  runEntry .indexedIndirect 2 zp 0 opCmp s

/-- `CMP $nn` (R182). -/
def execCmpZp (zp : Byte) (s : State) : Host.Outcome State Fault Refusal :=
  runEntry .zeroPage 2 zp 0 opCmp s

/-- `CMP #$nn` (R182). -/
def execCmpImm (v : Byte) (s : State) : Host.Outcome State Fault Refusal :=
  runEntry .immediate 2 v 0 opCmp s

/-- `CMP $hhll` (R182). -/
def execCmpAbs (addr : Word) (s : State) : Host.Outcome State Fault Refusal :=
  runEntry .absolute 3 (lowByte addr) (highByte addr) opCmp s

/-- `CMP ($nn),Y` (R182). -/
def execCmpIndY (zp : Byte) (s : State) : Host.Outcome State Fault Refusal :=
  runEntry .indirectIndexed 2 zp 0 opCmp s

/-- `CMP $nn,X` (R182). -/
def execCmpZpX (zp : Byte) (s : State) : Host.Outcome State Fault Refusal :=
  runEntry .zeroPageX 2 zp 0 opCmp s

/-- `CMP $hhll,Y` (R182). -/
def execCmpAbsY (addr : Word) (s : State) : Host.Outcome State Fault Refusal :=
  runEntry .absoluteY 3 (lowByte addr) (highByte addr) opCmp s

/-- `CMP $hhll,X` (R182). -/
def execCmpAbsX (addr : Word) (s : State) : Host.Outcome State Fault Refusal :=
  runEntry .absoluteX 3 (lowByte addr) (highByte addr) opCmp s

/-- `CPX #$nn` (R183). -/
def execCpxImm (v : Byte) (s : State) : Host.Outcome State Fault Refusal :=
  runEntry .immediate 2 v 0 opCpx s

/-- `CPX $nn` (R183). -/
def execCpxZp (zp : Byte) (s : State) : Host.Outcome State Fault Refusal :=
  runEntry .zeroPage 2 zp 0 opCpx s

/-- `CPX $hhll` (R183). -/
def execCpxAbs (addr : Word) (s : State) : Host.Outcome State Fault Refusal :=
  runEntry .absolute 3 (lowByte addr) (highByte addr) opCpx s

/-- `CPY #$nn` (R184). -/
def execCpyImm (v : Byte) (s : State) : Host.Outcome State Fault Refusal :=
  runEntry .immediate 2 v 0 opCpy s

/-- `CPY $nn` (R184). -/
def execCpyZp (zp : Byte) (s : State) : Host.Outcome State Fault Refusal :=
  runEntry .zeroPage 2 zp 0 opCpy s

/-- `CPY $hhll` (R184). -/
def execCpyAbs (addr : Word) (s : State) : Host.Outcome State Fault Refusal :=
  runEntry .absolute 3 (lowByte addr) (highByte addr) opCpy s

/-- `INC $nn` (R185). -/
def execIncZp (zp : Byte) (s : State) : Host.Outcome State Fault Refusal :=
  runEntry .zeroPage 2 zp 0 opInc s

/-- `INC $hhll` (R185). -/
def execIncAbs (addr : Word) (s : State) : Host.Outcome State Fault Refusal :=
  runEntry .absolute 3 (lowByte addr) (highByte addr) opInc s

/-- `INC $nn,X` (R185). -/
def execIncZpX (zp : Byte) (s : State) : Host.Outcome State Fault Refusal :=
  runEntry .zeroPageX 2 zp 0 opInc s

/-- `INC $hhll,X` (R185). -/
def execIncAbsX (addr : Word) (s : State) : Host.Outcome State Fault Refusal :=
  runEntry .absoluteX 3 (lowByte addr) (highByte addr) opInc s

/-- `DEC $nn` (R186). -/
def execDecZp (zp : Byte) (s : State) : Host.Outcome State Fault Refusal :=
  runEntry .zeroPage 2 zp 0 opDec s

/-- `DEC $hhll` (R186). -/
def execDecAbs (addr : Word) (s : State) : Host.Outcome State Fault Refusal :=
  runEntry .absolute 3 (lowByte addr) (highByte addr) opDec s

/-- `DEC $nn,X` (R186). -/
def execDecZpX (zp : Byte) (s : State) : Host.Outcome State Fault Refusal :=
  runEntry .zeroPageX 2 zp 0 opDec s

/-- `DEC $hhll,X` (R186). -/
def execDecAbsX (addr : Word) (s : State) : Host.Outcome State Fault Refusal :=
  runEntry .absoluteX 3 (lowByte addr) (highByte addr) opDec s

/-- `INX` (R187). -/
def execInx (s : State) : Host.Outcome State Fault Refusal :=
  runEntry .implied 1 0 0 opInx s

/-- `INY` (R188). -/
def execIny (s : State) : Host.Outcome State Fault Refusal :=
  runEntry .implied 1 0 0 opIny s

/-- `DEX` (R189). -/
def execDex (s : State) : Host.Outcome State Fault Refusal :=
  runEntry .implied 1 0 0 opDex s

/-- `DEY` (R190). -/
def execDey (s : State) : Host.Outcome State Fault Refusal :=
  runEntry .implied 1 0 0 opDey s

end Sys2Proof.Machine
end

