-- ==== Sys2Proof/Machine/Control.lean ====
section
/-!
DEFINITION. Jumps, subroutines, BRK, RTI and branches (45_control.md R220 to R236), and the sentinel byte (60_exceptions.md R260). First the operations of SEMANTICS (40_pipeline.md R121), one per mnemonic, then the meaning of each
row of the opcode table: its mode, its size and its operand bytes given to the operation.
-/

namespace Sys2Proof.Machine

/-- JMP (R220): `pc <- params.address`. -/
def opJmp (p : Params) (s : State) : Host.Outcome State Fault Refusal := .next (s.setPc p.address)

/-- JSR (R221): push `pc - 1`, high byte first, then jump. -/
def opJsr (p : Params) (s : State) : Host.Outcome State Fault Refusal :=
  andThen (pushWord (s.pc - 1) s) fun s => .next (s.setPc p.address)

/-- RTS (R222): pull a word and add 1. -/
def opRts (_ : Params) (s : State) : Host.Outcome State Fault Refusal :=
  andThen (pullWord s) fun (w, s) => .next (s.setPc (w + 1))

/-- RTI (R223): return from the trap. -/
def opRti (_ : Params) (s : State) : Host.Outcome State Fault Refusal := returnFromBreak s

/-- BRK (R224): take the trap. -/
def opBrk (_ : Params) (s : State) : Host.Outcome State Fault Refusal := takeBreak s

/-- A branch: taken when the flag has the value (R236). -/
def branch (f : Flag) (value : Bool) (p : Params) (s : State) : Host.Outcome State Fault Refusal :=
  .next (if s.flag f = value then s.setPc p.address else s)

/-- BCC (R225). -/
def opBcc : Operation := branch .c false

/-- BCS (R226). -/
def opBcs : Operation := branch .c true

/-- BEQ (R227). -/
def opBeq : Operation := branch .z true

/-- BMI (R228). -/
def opBmi : Operation := branch .n true

/-- BNE (R229). -/
def opBne : Operation := branch .z false

/-- BPL (R230). -/
def opBpl : Operation := branch .n false

/-- BVC (R231). -/
def opBvc : Operation := branch .v false

/-- BVS (R232). -/
def opBvs : Operation := branch .v true

/-- `JMP $hhll` (R220). -/
def execJmpAbs (addr : Word) (s : State) : Host.Outcome State Fault Refusal :=
  runEntry .absolute 3 (lowByte addr) (highByte addr) opJmp s

/-- `JMP ($hhll)` (R220). -/
def execJmpInd (addr : Word) (s : State) : Host.Outcome State Fault Refusal :=
  runEntry .indirect 3 (lowByte addr) (highByte addr) opJmp s

/-- `JSR $hhll` (R221). -/
def execJsr (addr : Word) (s : State) : Host.Outcome State Fault Refusal :=
  runEntry .absolute 3 (lowByte addr) (highByte addr) opJsr s

/-- `RTS` (R222). -/
def execRts (s : State) : Host.Outcome State Fault Refusal :=
  runEntry .implied 1 0 0 opRts s

/-- `RTI` (R223). -/
def execRti (s : State) : Host.Outcome State Fault Refusal :=
  runEntry .implied 1 0 0 opRti s

/-- `BRK` (R224). -/
def execBrk (s : State) : Host.Outcome State Fault Refusal :=
  runEntry .implied 1 0 0 opBrk s

/-- `BCC label` (R225). -/
def execBcc (off : Byte) (s : State) : Host.Outcome State Fault Refusal :=
  runEntry .relative 2 off 0 opBcc s

/-- `BCS label` (R226). -/
def execBcs (off : Byte) (s : State) : Host.Outcome State Fault Refusal :=
  runEntry .relative 2 off 0 opBcs s

/-- `BEQ label` (R227). -/
def execBeq (off : Byte) (s : State) : Host.Outcome State Fault Refusal :=
  runEntry .relative 2 off 0 opBeq s

/-- `BMI label` (R228). -/
def execBmi (off : Byte) (s : State) : Host.Outcome State Fault Refusal :=
  runEntry .relative 2 off 0 opBmi s

/-- `BNE label` (R229). -/
def execBne (off : Byte) (s : State) : Host.Outcome State Fault Refusal :=
  runEntry .relative 2 off 0 opBne s

/-- `BPL label` (R230). -/
def execBpl (off : Byte) (s : State) : Host.Outcome State Fault Refusal :=
  runEntry .relative 2 off 0 opBpl s

/-- `BVC label` (R231). -/
def execBvc (off : Byte) (s : State) : Host.Outcome State Fault Refusal :=
  runEntry .relative 2 off 0 opBvc s

/-- `BVS label` (R232). -/
def execBvs (off : Byte) (s : State) : Host.Outcome State Fault Refusal :=
  runEntry .relative 2 off 0 opBvs s

/-- A byte that is UNIMPLEMENTED: the fault of R260, raised with pc at the byte and nothing else changed. -/
def execUnimplemented (op : Byte) (s : State) : Host.Outcome State Fault Refusal :=
  raise .unimplementedOpcode (.opcode op) s

end Sys2Proof.Machine
end

