-- ==== Sys2Proof/Machine/FlagOps.lean ====
section
/-!
DEFINITION. Flag instructions and NOP (46_flags_misc.md R240 to R249). First the operations of SEMANTICS (40_pipeline.md R121), one per mnemonic, then the meaning of each
row of the opcode table: its mode, its size and its operand bytes given to the operation.
-/

namespace Sys2Proof.Machine

/-- Write one flag (R240 to R246). -/
def writeFlag (f : Flag) (b : Bool) (_ : Params) (s : State) : Host.Outcome State Fault Refusal :=
  .next (s.setFlag f b)

/-- CLC (R240). -/
def opClc : Operation := writeFlag .c false

/-- CLD (R241). -/
def opCld : Operation := writeFlag .d false

/-- CLI (R242). -/
def opCli : Operation := writeFlag .i false

/-- CLV (R243). -/
def opClv : Operation := writeFlag .v false

/-- SEC (R244). -/
def opSec : Operation := writeFlag .c true

/-- SED (R245). -/
def opSed : Operation := writeFlag .d true

/-- SEI (R246). -/
def opSei : Operation := writeFlag .i true

/-- NOP (R247): the pre-advance is its only effect. -/
def opNop (_ : Params) (s : State) : Host.Outcome State Fault Refusal := .next s

/-- `CLC` (R240). -/
def execClc (s : State) : Host.Outcome State Fault Refusal :=
  runEntry .implied 1 0 0 opClc s

/-- `CLD` (R241). -/
def execCld (s : State) : Host.Outcome State Fault Refusal :=
  runEntry .implied 1 0 0 opCld s

/-- `CLI` (R242). -/
def execCli (s : State) : Host.Outcome State Fault Refusal :=
  runEntry .implied 1 0 0 opCli s

/-- `CLV` (R243). -/
def execClv (s : State) : Host.Outcome State Fault Refusal :=
  runEntry .implied 1 0 0 opClv s

/-- `SEC` (R244). -/
def execSec (s : State) : Host.Outcome State Fault Refusal :=
  runEntry .implied 1 0 0 opSec s

/-- `SED` (R245). -/
def execSed (s : State) : Host.Outcome State Fault Refusal :=
  runEntry .implied 1 0 0 opSed s

/-- `SEI` (R246). -/
def execSei (s : State) : Host.Outcome State Fault Refusal :=
  runEntry .implied 1 0 0 opSei s

/-- `NOP` (R247). -/
def execNop (s : State) : Host.Outcome State Fault Refusal :=
  runEntry .implied 1 0 0 opNop s

end Sys2Proof.Machine
end

