-- ==== Sys2Proof/Machine/LoadStore.lean ====
section
/-!
DEFINITION. Loads and stores (41_load_store.md R140 to R147). First the operations of SEMANTICS (40_pipeline.md R121), one per mnemonic, then the meaning of each
row of the opcode table: its mode, its size and its operand bytes given to the operation.
-/

namespace Sys2Proof.Machine

/-- Load a register and set N and Z (R140 to R142). -/
def loadReg (r : Reg) (p : Params) (s : State) : Host.Outcome State Fault Refusal :=
  andThen (load p s) fun (v, s) => .next ((s.setReg r v).setNZ v)

/-- LDA (R140): `v <- LOAD(params); A <- v; NZ(v)`. -/
def opLda : Operation := loadReg .accum

/-- LDX (R141). -/
def opLdx : Operation := loadReg .indX

/-- LDY (R142). -/
def opLdy : Operation := loadReg .indY

/-- STA (R143): `STORE(params, A)`. -/
def opSta (p : Params) (s : State) : Host.Outcome State Fault Refusal := store p (s.reg .accum) s

/-- STX (R144). -/
def opStx (p : Params) (s : State) : Host.Outcome State Fault Refusal := store p (s.reg .indX) s

/-- STY (R145). -/
def opSty (p : Params) (s : State) : Host.Outcome State Fault Refusal := store p (s.reg .indY) s

/-- `LDA ($nn,X)` (R140). -/
def execLdaIndX (zp : Byte) (s : State) : Host.Outcome State Fault Refusal :=
  runEntry .indexedIndirect 2 zp 0 opLda s

/-- `LDA $nn` (R140). -/
def execLdaZp (zp : Byte) (s : State) : Host.Outcome State Fault Refusal :=
  runEntry .zeroPage 2 zp 0 opLda s

/-- `LDA #$nn` (R140). -/
def execLdaImm (v : Byte) (s : State) : Host.Outcome State Fault Refusal :=
  runEntry .immediate 2 v 0 opLda s

/-- `LDA $hhll` (R140). -/
def execLdaAbs (addr : Word) (s : State) : Host.Outcome State Fault Refusal :=
  runEntry .absolute 3 (lowByte addr) (highByte addr) opLda s

/-- `LDA ($nn),Y` (R140). -/
def execLdaIndY (zp : Byte) (s : State) : Host.Outcome State Fault Refusal :=
  runEntry .indirectIndexed 2 zp 0 opLda s

/-- `LDA $nn,X` (R140). -/
def execLdaZpX (zp : Byte) (s : State) : Host.Outcome State Fault Refusal :=
  runEntry .zeroPageX 2 zp 0 opLda s

/-- `LDA $hhll,Y` (R140). -/
def execLdaAbsY (addr : Word) (s : State) : Host.Outcome State Fault Refusal :=
  runEntry .absoluteY 3 (lowByte addr) (highByte addr) opLda s

/-- `LDA $hhll,X` (R140). -/
def execLdaAbsX (addr : Word) (s : State) : Host.Outcome State Fault Refusal :=
  runEntry .absoluteX 3 (lowByte addr) (highByte addr) opLda s

/-- `LDX #$nn` (R141). -/
def execLdxImm (v : Byte) (s : State) : Host.Outcome State Fault Refusal :=
  runEntry .immediate 2 v 0 opLdx s

/-- `LDX $nn` (R141). -/
def execLdxZp (zp : Byte) (s : State) : Host.Outcome State Fault Refusal :=
  runEntry .zeroPage 2 zp 0 opLdx s

/-- `LDX $hhll` (R141). -/
def execLdxAbs (addr : Word) (s : State) : Host.Outcome State Fault Refusal :=
  runEntry .absolute 3 (lowByte addr) (highByte addr) opLdx s

/-- `LDX $nn,Y` (R141). -/
def execLdxZpY (zp : Byte) (s : State) : Host.Outcome State Fault Refusal :=
  runEntry .zeroPageY 2 zp 0 opLdx s

/-- `LDX $hhll,Y` (R141). -/
def execLdxAbsY (addr : Word) (s : State) : Host.Outcome State Fault Refusal :=
  runEntry .absoluteY 3 (lowByte addr) (highByte addr) opLdx s

/-- `LDY #$nn` (R142). -/
def execLdyImm (v : Byte) (s : State) : Host.Outcome State Fault Refusal :=
  runEntry .immediate 2 v 0 opLdy s

/-- `LDY $nn` (R142). -/
def execLdyZp (zp : Byte) (s : State) : Host.Outcome State Fault Refusal :=
  runEntry .zeroPage 2 zp 0 opLdy s

/-- `LDY $hhll` (R142). -/
def execLdyAbs (addr : Word) (s : State) : Host.Outcome State Fault Refusal :=
  runEntry .absolute 3 (lowByte addr) (highByte addr) opLdy s

/-- `LDY $nn,X` (R142). -/
def execLdyZpX (zp : Byte) (s : State) : Host.Outcome State Fault Refusal :=
  runEntry .zeroPageX 2 zp 0 opLdy s

/-- `LDY $hhll,X` (R142). -/
def execLdyAbsX (addr : Word) (s : State) : Host.Outcome State Fault Refusal :=
  runEntry .absoluteX 3 (lowByte addr) (highByte addr) opLdy s

/-- `STA ($nn,X)` (R143). -/
def execStaIndX (zp : Byte) (s : State) : Host.Outcome State Fault Refusal :=
  runEntry .indexedIndirect 2 zp 0 opSta s

/-- `STA $nn` (R143). -/
def execStaZp (zp : Byte) (s : State) : Host.Outcome State Fault Refusal :=
  runEntry .zeroPage 2 zp 0 opSta s

/-- `STA $hhll` (R143). -/
def execStaAbs (addr : Word) (s : State) : Host.Outcome State Fault Refusal :=
  runEntry .absolute 3 (lowByte addr) (highByte addr) opSta s

/-- `STA ($nn),Y` (R143). -/
def execStaIndY (zp : Byte) (s : State) : Host.Outcome State Fault Refusal :=
  runEntry .indirectIndexed 2 zp 0 opSta s

/-- `STA $nn,X` (R143). -/
def execStaZpX (zp : Byte) (s : State) : Host.Outcome State Fault Refusal :=
  runEntry .zeroPageX 2 zp 0 opSta s

/-- `STA $hhll,Y` (R143). -/
def execStaAbsY (addr : Word) (s : State) : Host.Outcome State Fault Refusal :=
  runEntry .absoluteY 3 (lowByte addr) (highByte addr) opSta s

/-- `STA $hhll,X` (R143). -/
def execStaAbsX (addr : Word) (s : State) : Host.Outcome State Fault Refusal :=
  runEntry .absoluteX 3 (lowByte addr) (highByte addr) opSta s

/-- `STX $nn` (R144). -/
def execStxZp (zp : Byte) (s : State) : Host.Outcome State Fault Refusal :=
  runEntry .zeroPage 2 zp 0 opStx s

/-- `STX $hhll` (R144). -/
def execStxAbs (addr : Word) (s : State) : Host.Outcome State Fault Refusal :=
  runEntry .absolute 3 (lowByte addr) (highByte addr) opStx s

/-- `STX $nn,Y` (R144). -/
def execStxZpY (zp : Byte) (s : State) : Host.Outcome State Fault Refusal :=
  runEntry .zeroPageY 2 zp 0 opStx s

/-- `STY $nn` (R145). -/
def execStyZp (zp : Byte) (s : State) : Host.Outcome State Fault Refusal :=
  runEntry .zeroPage 2 zp 0 opSty s

/-- `STY $hhll` (R145). -/
def execStyAbs (addr : Word) (s : State) : Host.Outcome State Fault Refusal :=
  runEntry .absolute 3 (lowByte addr) (highByte addr) opSty s

/-- `STY $nn,X` (R145). -/
def execStyZpX (zp : Byte) (s : State) : Host.Outcome State Fault Refusal :=
  runEntry .zeroPageX 2 zp 0 opSty s

end Sys2Proof.Machine
end

