-- ==== Sys2Proof/Machine/Logic.lean ====
section
/-!
DEFINITION. Logical operations, bit test, shifts and rotates (44_logic_shift.md R200 to R210). First the operations of SEMANTICS (40_pipeline.md R121), one per mnemonic, then the meaning of each
row of the opcode table: its mode, its size and its operand bytes given to the operation.
-/

namespace Sys2Proof.Machine

/-- Combine A with the data byte into A, then NZ (R200 to R202). -/
def logic (f : Byte → Byte → Byte) (p : Params) (s : State) : Host.Outcome State Fault Refusal :=
  andThen (load p s) fun (m, s) => .next ((s.setReg .accum (f (s.reg .accum) m)).setNZ (f (s.reg .accum) m))

/-- AND (R200). -/
def opAnd : Operation := logic (· &&& ·)

/-- ORA (R201). -/
def opOra : Operation := logic (· ||| ·)

/-- EOR (R202). -/
def opEor : Operation := logic (· ^^^ ·)

/-- BIT (R203). -/
def opBit (p : Params) (s : State) : Host.Outcome State Fault Refusal :=
  andThen (load p s) fun (m, s) => .next (s.setBitTest m)

/-- A shift or rotate through RMW: `carry` is the bit of the old byte that goes to P.C, `f` the new byte; then NZ
(R204 to R207). -/
def shift (carry : Byte → Bool) (f : Byte → Byte) (p : Params) (s : State) : Host.Outcome State Fault Refusal :=
  andThen (rmw p (fun v s => (f v, s.setFlag .c (carry v))) s) fun (r, s) => .next (s.setNZ r)

/-- ASL (R204). -/
def opAsl : Operation := shift (·.getLsbD 7) (shiftLeft · false)

/-- LSR (R205). -/
def opLsr : Operation := shift (·.getLsbD 0) (shiftRight · false)

/-- ROL (R206): the carry in is sampled before the shift writes C. -/
def opRol (p : Params) (s : State) : Host.Outcome State Fault Refusal :=
  shift (·.getLsbD 7) (shiftLeft · (s.flag .c)) p s

/-- ROR (R207). -/
def opRor (p : Params) (s : State) : Host.Outcome State Fault Refusal :=
  shift (·.getLsbD 0) (shiftRight · (s.flag .c)) p s

/-- `AND ($nn,X)` (R200). -/
def execAndIndX (zp : Byte) (s : State) : Host.Outcome State Fault Refusal :=
  runEntry .indexedIndirect 2 zp 0 opAnd s

/-- `AND $nn` (R200). -/
def execAndZp (zp : Byte) (s : State) : Host.Outcome State Fault Refusal :=
  runEntry .zeroPage 2 zp 0 opAnd s

/-- `AND #$nn` (R200). -/
def execAndImm (v : Byte) (s : State) : Host.Outcome State Fault Refusal :=
  runEntry .immediate 2 v 0 opAnd s

/-- `AND $hhll` (R200). -/
def execAndAbs (addr : Word) (s : State) : Host.Outcome State Fault Refusal :=
  runEntry .absolute 3 (lowByte addr) (highByte addr) opAnd s

/-- `AND ($nn),Y` (R200). -/
def execAndIndY (zp : Byte) (s : State) : Host.Outcome State Fault Refusal :=
  runEntry .indirectIndexed 2 zp 0 opAnd s

/-- `AND $nn,X` (R200). -/
def execAndZpX (zp : Byte) (s : State) : Host.Outcome State Fault Refusal :=
  runEntry .zeroPageX 2 zp 0 opAnd s

/-- `AND $hhll,Y` (R200). -/
def execAndAbsY (addr : Word) (s : State) : Host.Outcome State Fault Refusal :=
  runEntry .absoluteY 3 (lowByte addr) (highByte addr) opAnd s

/-- `AND $hhll,X` (R200). -/
def execAndAbsX (addr : Word) (s : State) : Host.Outcome State Fault Refusal :=
  runEntry .absoluteX 3 (lowByte addr) (highByte addr) opAnd s

/-- `ORA ($nn,X)` (R201). -/
def execOraIndX (zp : Byte) (s : State) : Host.Outcome State Fault Refusal :=
  runEntry .indexedIndirect 2 zp 0 opOra s

/-- `ORA $nn` (R201). -/
def execOraZp (zp : Byte) (s : State) : Host.Outcome State Fault Refusal :=
  runEntry .zeroPage 2 zp 0 opOra s

/-- `ORA #$nn` (R201). -/
def execOraImm (v : Byte) (s : State) : Host.Outcome State Fault Refusal :=
  runEntry .immediate 2 v 0 opOra s

/-- `ORA $hhll` (R201). -/
def execOraAbs (addr : Word) (s : State) : Host.Outcome State Fault Refusal :=
  runEntry .absolute 3 (lowByte addr) (highByte addr) opOra s

/-- `ORA ($nn),Y` (R201). -/
def execOraIndY (zp : Byte) (s : State) : Host.Outcome State Fault Refusal :=
  runEntry .indirectIndexed 2 zp 0 opOra s

/-- `ORA $nn,X` (R201). -/
def execOraZpX (zp : Byte) (s : State) : Host.Outcome State Fault Refusal :=
  runEntry .zeroPageX 2 zp 0 opOra s

/-- `ORA $hhll,Y` (R201). -/
def execOraAbsY (addr : Word) (s : State) : Host.Outcome State Fault Refusal :=
  runEntry .absoluteY 3 (lowByte addr) (highByte addr) opOra s

/-- `ORA $hhll,X` (R201). -/
def execOraAbsX (addr : Word) (s : State) : Host.Outcome State Fault Refusal :=
  runEntry .absoluteX 3 (lowByte addr) (highByte addr) opOra s

/-- `EOR ($nn,X)` (R202). -/
def execEorIndX (zp : Byte) (s : State) : Host.Outcome State Fault Refusal :=
  runEntry .indexedIndirect 2 zp 0 opEor s

/-- `EOR $nn` (R202). -/
def execEorZp (zp : Byte) (s : State) : Host.Outcome State Fault Refusal :=
  runEntry .zeroPage 2 zp 0 opEor s

/-- `EOR #$nn` (R202). -/
def execEorImm (v : Byte) (s : State) : Host.Outcome State Fault Refusal :=
  runEntry .immediate 2 v 0 opEor s

/-- `EOR $hhll` (R202). -/
def execEorAbs (addr : Word) (s : State) : Host.Outcome State Fault Refusal :=
  runEntry .absolute 3 (lowByte addr) (highByte addr) opEor s

/-- `EOR ($nn),Y` (R202). -/
def execEorIndY (zp : Byte) (s : State) : Host.Outcome State Fault Refusal :=
  runEntry .indirectIndexed 2 zp 0 opEor s

/-- `EOR $nn,X` (R202). -/
def execEorZpX (zp : Byte) (s : State) : Host.Outcome State Fault Refusal :=
  runEntry .zeroPageX 2 zp 0 opEor s

/-- `EOR $hhll,Y` (R202). -/
def execEorAbsY (addr : Word) (s : State) : Host.Outcome State Fault Refusal :=
  runEntry .absoluteY 3 (lowByte addr) (highByte addr) opEor s

/-- `EOR $hhll,X` (R202). -/
def execEorAbsX (addr : Word) (s : State) : Host.Outcome State Fault Refusal :=
  runEntry .absoluteX 3 (lowByte addr) (highByte addr) opEor s

/-- `BIT $nn` (R203). -/
def execBitZp (zp : Byte) (s : State) : Host.Outcome State Fault Refusal :=
  runEntry .zeroPage 2 zp 0 opBit s

/-- `BIT $hhll` (R203). -/
def execBitAbs (addr : Word) (s : State) : Host.Outcome State Fault Refusal :=
  runEntry .absolute 3 (lowByte addr) (highByte addr) opBit s

/-- `ASL $nn` (R204). -/
def execAslZp (zp : Byte) (s : State) : Host.Outcome State Fault Refusal :=
  runEntry .zeroPage 2 zp 0 opAsl s

/-- `ASL A` (R204). -/
def execAslAcc (s : State) : Host.Outcome State Fault Refusal :=
  runEntry .accumulator 1 0 0 opAsl s

/-- `ASL $hhll` (R204). -/
def execAslAbs (addr : Word) (s : State) : Host.Outcome State Fault Refusal :=
  runEntry .absolute 3 (lowByte addr) (highByte addr) opAsl s

/-- `ASL $nn,X` (R204). -/
def execAslZpX (zp : Byte) (s : State) : Host.Outcome State Fault Refusal :=
  runEntry .zeroPageX 2 zp 0 opAsl s

/-- `ASL $hhll,X` (R204). -/
def execAslAbsX (addr : Word) (s : State) : Host.Outcome State Fault Refusal :=
  runEntry .absoluteX 3 (lowByte addr) (highByte addr) opAsl s

/-- `LSR $nn` (R205). -/
def execLsrZp (zp : Byte) (s : State) : Host.Outcome State Fault Refusal :=
  runEntry .zeroPage 2 zp 0 opLsr s

/-- `LSR A` (R205). -/
def execLsrAcc (s : State) : Host.Outcome State Fault Refusal :=
  runEntry .accumulator 1 0 0 opLsr s

/-- `LSR $hhll` (R205). -/
def execLsrAbs (addr : Word) (s : State) : Host.Outcome State Fault Refusal :=
  runEntry .absolute 3 (lowByte addr) (highByte addr) opLsr s

/-- `LSR $nn,X` (R205). -/
def execLsrZpX (zp : Byte) (s : State) : Host.Outcome State Fault Refusal :=
  runEntry .zeroPageX 2 zp 0 opLsr s

/-- `LSR $hhll,X` (R205). -/
def execLsrAbsX (addr : Word) (s : State) : Host.Outcome State Fault Refusal :=
  runEntry .absoluteX 3 (lowByte addr) (highByte addr) opLsr s

/-- `ROL $nn` (R206). -/
def execRolZp (zp : Byte) (s : State) : Host.Outcome State Fault Refusal :=
  runEntry .zeroPage 2 zp 0 opRol s

/-- `ROL A` (R206). -/
def execRolAcc (s : State) : Host.Outcome State Fault Refusal :=
  runEntry .accumulator 1 0 0 opRol s

/-- `ROL $hhll` (R206). -/
def execRolAbs (addr : Word) (s : State) : Host.Outcome State Fault Refusal :=
  runEntry .absolute 3 (lowByte addr) (highByte addr) opRol s

/-- `ROL $nn,X` (R206). -/
def execRolZpX (zp : Byte) (s : State) : Host.Outcome State Fault Refusal :=
  runEntry .zeroPageX 2 zp 0 opRol s

/-- `ROL $hhll,X` (R206). -/
def execRolAbsX (addr : Word) (s : State) : Host.Outcome State Fault Refusal :=
  runEntry .absoluteX 3 (lowByte addr) (highByte addr) opRol s

/-- `ROR $nn` (R207). -/
def execRorZp (zp : Byte) (s : State) : Host.Outcome State Fault Refusal :=
  runEntry .zeroPage 2 zp 0 opRor s

/-- `ROR A` (R207). -/
def execRorAcc (s : State) : Host.Outcome State Fault Refusal :=
  runEntry .accumulator 1 0 0 opRor s

/-- `ROR $hhll` (R207). -/
def execRorAbs (addr : Word) (s : State) : Host.Outcome State Fault Refusal :=
  runEntry .absolute 3 (lowByte addr) (highByte addr) opRor s

/-- `ROR $nn,X` (R207). -/
def execRorZpX (zp : Byte) (s : State) : Host.Outcome State Fault Refusal :=
  runEntry .zeroPageX 2 zp 0 opRor s

/-- `ROR $hhll,X` (R207). -/
def execRorAbsX (addr : Word) (s : State) : Host.Outcome State Fault Refusal :=
  runEntry .absoluteX 3 (lowByte addr) (highByte addr) opRor s

end Sys2Proof.Machine
end

