-- ==== Sys2Proof/Machine/Transfer.lean ====
section
/-!
DEFINITION. Register transfers, push and pull (42_transfer_stack.md R160 to R173). First the operations of SEMANTICS (40_pipeline.md R121), one per mnemonic, then the meaning of each
row of the opcode table: its mode, its size and its operand bytes given to the operation.
-/

namespace Sys2Proof.Machine

/-- Copy a register to another and set N and Z (R162 to R166). -/
def transfer (src dst : Reg) (_ : Params) (s : State) : Host.Outcome State Fault Refusal :=
  .next ((s.setReg dst (s.reg src)).setNZ (s.reg src))

/-- TAX (R162): `X <- A; NZ(X)`. -/
def opTax : Operation := transfer .accum .indX

/-- TAY (R163). -/
def opTay : Operation := transfer .accum .indY

/-- TXA (R164). -/
def opTxa : Operation := transfer .indX .accum

/-- TYA (R165). -/
def opTya : Operation := transfer .indY .accum

/-- TSX (R166). -/
def opTsx : Operation := transfer .stack .indX

/-- TXS (R167): `SP <- X`, and no flag. -/
def opTxs (_ : Params) (s : State) : Host.Outcome State Fault Refusal := .next (s.setReg .stack (s.reg .indX))

/-- PHA (R168): `push(A)`. -/
def opPha (_ : Params) (s : State) : Host.Outcome State Fault Refusal := push (s.reg .accum) s

/-- PHP (R169): `push(P | 0x30)`. -/
def opPhp (_ : Params) (s : State) : Host.Outcome State Fault Refusal := push (pushedStatus (s.reg .status)) s

/-- PLA (R170): `v <- pull(); A <- v; NZ(v)`. -/
def opPla (_ : Params) (s : State) : Host.Outcome State Fault Refusal :=
  andThen (pull s) fun (v, s) => .next ((s.setReg .accum v).setNZ v)

/-- PLP (R171): `v <- pull(); P <- (v & 0xCF) | (P & 0x30)`. -/
def opPlp (_ : Params) (s : State) : Host.Outcome State Fault Refusal := pullStatus s

/-- `TAX` (R162). -/
def execTax (s : State) : Host.Outcome State Fault Refusal :=
  runEntry .implied 1 0 0 opTax s

/-- `TAY` (R163). -/
def execTay (s : State) : Host.Outcome State Fault Refusal :=
  runEntry .implied 1 0 0 opTay s

/-- `TXA` (R164). -/
def execTxa (s : State) : Host.Outcome State Fault Refusal :=
  runEntry .implied 1 0 0 opTxa s

/-- `TYA` (R165). -/
def execTya (s : State) : Host.Outcome State Fault Refusal :=
  runEntry .implied 1 0 0 opTya s

/-- `TSX` (R166). -/
def execTsx (s : State) : Host.Outcome State Fault Refusal :=
  runEntry .implied 1 0 0 opTsx s

/-- `TXS` (R167). -/
def execTxs (s : State) : Host.Outcome State Fault Refusal :=
  runEntry .implied 1 0 0 opTxs s

/-- `PHA` (R168). -/
def execPha (s : State) : Host.Outcome State Fault Refusal :=
  runEntry .implied 1 0 0 opPha s

/-- `PHP` (R169). -/
def execPhp (s : State) : Host.Outcome State Fault Refusal :=
  runEntry .implied 1 0 0 opPhp s

/-- `PLA` (R170). -/
def execPla (s : State) : Host.Outcome State Fault Refusal :=
  runEntry .implied 1 0 0 opPla s

/-- `PLP` (R171). -/
def execPlp (s : State) : Host.Outcome State Fault Refusal :=
  runEntry .implied 1 0 0 opPlp s

end Sys2Proof.Machine
end

