-- ==== Sys2Proof/Machine/Dispatch.lean ====
section
/-!
DEFINITION. exec: an instruction, whose opcode and operand bytes fetch has read, to its meaning. pc is still the opcode's
address (40_pipeline.md R117; notes/assumptions/14.md).
-/

namespace Sys2Proof.Machine

def exec (i : Instr) (s : State) : Host.Outcome State Fault Refusal :=
  match i with
  -- 41_load_store.md
  | .ldaIndX zp => Sys2Proof.Machine.execLdaIndX zp s
  | .ldaZp zp => Sys2Proof.Machine.execLdaZp zp s
  | .ldaImm v => Sys2Proof.Machine.execLdaImm v s
  | .ldaAbs addr => Sys2Proof.Machine.execLdaAbs addr s
  | .ldaIndY zp => Sys2Proof.Machine.execLdaIndY zp s
  | .ldaZpX zp => Sys2Proof.Machine.execLdaZpX zp s
  | .ldaAbsY addr => Sys2Proof.Machine.execLdaAbsY addr s
  | .ldaAbsX addr => Sys2Proof.Machine.execLdaAbsX addr s
  | .ldxImm v => Sys2Proof.Machine.execLdxImm v s
  | .ldxZp zp => Sys2Proof.Machine.execLdxZp zp s
  | .ldxAbs addr => Sys2Proof.Machine.execLdxAbs addr s
  | .ldxZpY zp => Sys2Proof.Machine.execLdxZpY zp s
  | .ldxAbsY addr => Sys2Proof.Machine.execLdxAbsY addr s
  | .ldyImm v => Sys2Proof.Machine.execLdyImm v s
  | .ldyZp zp => Sys2Proof.Machine.execLdyZp zp s
  | .ldyAbs addr => Sys2Proof.Machine.execLdyAbs addr s
  | .ldyZpX zp => Sys2Proof.Machine.execLdyZpX zp s
  | .ldyAbsX addr => Sys2Proof.Machine.execLdyAbsX addr s
  | .staIndX zp => Sys2Proof.Machine.execStaIndX zp s
  | .staZp zp => Sys2Proof.Machine.execStaZp zp s
  | .staAbs addr => Sys2Proof.Machine.execStaAbs addr s
  | .staIndY zp => Sys2Proof.Machine.execStaIndY zp s
  | .staZpX zp => Sys2Proof.Machine.execStaZpX zp s
  | .staAbsY addr => Sys2Proof.Machine.execStaAbsY addr s
  | .staAbsX addr => Sys2Proof.Machine.execStaAbsX addr s
  | .stxZp zp => Sys2Proof.Machine.execStxZp zp s
  | .stxAbs addr => Sys2Proof.Machine.execStxAbs addr s
  | .stxZpY zp => Sys2Proof.Machine.execStxZpY zp s
  | .styZp zp => Sys2Proof.Machine.execStyZp zp s
  | .styAbs addr => Sys2Proof.Machine.execStyAbs addr s
  | .styZpX zp => Sys2Proof.Machine.execStyZpX zp s
  -- 42_transfer_stack.md
  | .tax => Sys2Proof.Machine.execTax s
  | .tay => Sys2Proof.Machine.execTay s
  | .txa => Sys2Proof.Machine.execTxa s
  | .tya => Sys2Proof.Machine.execTya s
  | .tsx => Sys2Proof.Machine.execTsx s
  | .txs => Sys2Proof.Machine.execTxs s
  | .pha => Sys2Proof.Machine.execPha s
  | .php => Sys2Proof.Machine.execPhp s
  | .pla => Sys2Proof.Machine.execPla s
  | .plp => Sys2Proof.Machine.execPlp s
  -- 43_arithmetic.md
  | .adcIndX zp => Sys2Proof.Machine.execAdcIndX zp s
  | .adcZp zp => Sys2Proof.Machine.execAdcZp zp s
  | .adcImm v => Sys2Proof.Machine.execAdcImm v s
  | .adcAbs addr => Sys2Proof.Machine.execAdcAbs addr s
  | .adcIndY zp => Sys2Proof.Machine.execAdcIndY zp s
  | .adcZpX zp => Sys2Proof.Machine.execAdcZpX zp s
  | .adcAbsY addr => Sys2Proof.Machine.execAdcAbsY addr s
  | .adcAbsX addr => Sys2Proof.Machine.execAdcAbsX addr s
  | .sbcIndX zp => Sys2Proof.Machine.execSbcIndX zp s
  | .sbcZp zp => Sys2Proof.Machine.execSbcZp zp s
  | .sbcImm v => Sys2Proof.Machine.execSbcImm v s
  | .sbcAbs addr => Sys2Proof.Machine.execSbcAbs addr s
  | .sbcIndY zp => Sys2Proof.Machine.execSbcIndY zp s
  | .sbcZpX zp => Sys2Proof.Machine.execSbcZpX zp s
  | .sbcAbsY addr => Sys2Proof.Machine.execSbcAbsY addr s
  | .sbcAbsX addr => Sys2Proof.Machine.execSbcAbsX addr s
  | .cmpIndX zp => Sys2Proof.Machine.execCmpIndX zp s
  | .cmpZp zp => Sys2Proof.Machine.execCmpZp zp s
  | .cmpImm v => Sys2Proof.Machine.execCmpImm v s
  | .cmpAbs addr => Sys2Proof.Machine.execCmpAbs addr s
  | .cmpIndY zp => Sys2Proof.Machine.execCmpIndY zp s
  | .cmpZpX zp => Sys2Proof.Machine.execCmpZpX zp s
  | .cmpAbsY addr => Sys2Proof.Machine.execCmpAbsY addr s
  | .cmpAbsX addr => Sys2Proof.Machine.execCmpAbsX addr s
  | .cpxImm v => Sys2Proof.Machine.execCpxImm v s
  | .cpxZp zp => Sys2Proof.Machine.execCpxZp zp s
  | .cpxAbs addr => Sys2Proof.Machine.execCpxAbs addr s
  | .cpyImm v => Sys2Proof.Machine.execCpyImm v s
  | .cpyZp zp => Sys2Proof.Machine.execCpyZp zp s
  | .cpyAbs addr => Sys2Proof.Machine.execCpyAbs addr s
  | .incZp zp => Sys2Proof.Machine.execIncZp zp s
  | .incAbs addr => Sys2Proof.Machine.execIncAbs addr s
  | .incZpX zp => Sys2Proof.Machine.execIncZpX zp s
  | .incAbsX addr => Sys2Proof.Machine.execIncAbsX addr s
  | .decZp zp => Sys2Proof.Machine.execDecZp zp s
  | .decAbs addr => Sys2Proof.Machine.execDecAbs addr s
  | .decZpX zp => Sys2Proof.Machine.execDecZpX zp s
  | .decAbsX addr => Sys2Proof.Machine.execDecAbsX addr s
  | .inx => Sys2Proof.Machine.execInx s
  | .iny => Sys2Proof.Machine.execIny s
  | .dex => Sys2Proof.Machine.execDex s
  | .dey => Sys2Proof.Machine.execDey s
  -- 44_logic_shift.md
  | .andIndX zp => Sys2Proof.Machine.execAndIndX zp s
  | .andZp zp => Sys2Proof.Machine.execAndZp zp s
  | .andImm v => Sys2Proof.Machine.execAndImm v s
  | .andAbs addr => Sys2Proof.Machine.execAndAbs addr s
  | .andIndY zp => Sys2Proof.Machine.execAndIndY zp s
  | .andZpX zp => Sys2Proof.Machine.execAndZpX zp s
  | .andAbsY addr => Sys2Proof.Machine.execAndAbsY addr s
  | .andAbsX addr => Sys2Proof.Machine.execAndAbsX addr s
  | .oraIndX zp => Sys2Proof.Machine.execOraIndX zp s
  | .oraZp zp => Sys2Proof.Machine.execOraZp zp s
  | .oraImm v => Sys2Proof.Machine.execOraImm v s
  | .oraAbs addr => Sys2Proof.Machine.execOraAbs addr s
  | .oraIndY zp => Sys2Proof.Machine.execOraIndY zp s
  | .oraZpX zp => Sys2Proof.Machine.execOraZpX zp s
  | .oraAbsY addr => Sys2Proof.Machine.execOraAbsY addr s
  | .oraAbsX addr => Sys2Proof.Machine.execOraAbsX addr s
  | .eorIndX zp => Sys2Proof.Machine.execEorIndX zp s
  | .eorZp zp => Sys2Proof.Machine.execEorZp zp s
  | .eorImm v => Sys2Proof.Machine.execEorImm v s
  | .eorAbs addr => Sys2Proof.Machine.execEorAbs addr s
  | .eorIndY zp => Sys2Proof.Machine.execEorIndY zp s
  | .eorZpX zp => Sys2Proof.Machine.execEorZpX zp s
  | .eorAbsY addr => Sys2Proof.Machine.execEorAbsY addr s
  | .eorAbsX addr => Sys2Proof.Machine.execEorAbsX addr s
  | .bitZp zp => Sys2Proof.Machine.execBitZp zp s
  | .bitAbs addr => Sys2Proof.Machine.execBitAbs addr s
  | .aslZp zp => Sys2Proof.Machine.execAslZp zp s
  | .aslAcc => Sys2Proof.Machine.execAslAcc s
  | .aslAbs addr => Sys2Proof.Machine.execAslAbs addr s
  | .aslZpX zp => Sys2Proof.Machine.execAslZpX zp s
  | .aslAbsX addr => Sys2Proof.Machine.execAslAbsX addr s
  | .lsrZp zp => Sys2Proof.Machine.execLsrZp zp s
  | .lsrAcc => Sys2Proof.Machine.execLsrAcc s
  | .lsrAbs addr => Sys2Proof.Machine.execLsrAbs addr s
  | .lsrZpX zp => Sys2Proof.Machine.execLsrZpX zp s
  | .lsrAbsX addr => Sys2Proof.Machine.execLsrAbsX addr s
  | .rolZp zp => Sys2Proof.Machine.execRolZp zp s
  | .rolAcc => Sys2Proof.Machine.execRolAcc s
  | .rolAbs addr => Sys2Proof.Machine.execRolAbs addr s
  | .rolZpX zp => Sys2Proof.Machine.execRolZpX zp s
  | .rolAbsX addr => Sys2Proof.Machine.execRolAbsX addr s
  | .rorZp zp => Sys2Proof.Machine.execRorZp zp s
  | .rorAcc => Sys2Proof.Machine.execRorAcc s
  | .rorAbs addr => Sys2Proof.Machine.execRorAbs addr s
  | .rorZpX zp => Sys2Proof.Machine.execRorZpX zp s
  | .rorAbsX addr => Sys2Proof.Machine.execRorAbsX addr s
  -- 45_control.md
  | .jmpAbs addr => Sys2Proof.Machine.execJmpAbs addr s
  | .jmpInd addr => Sys2Proof.Machine.execJmpInd addr s
  | .jsr addr => Sys2Proof.Machine.execJsr addr s
  | .rts => Sys2Proof.Machine.execRts s
  | .rti => Sys2Proof.Machine.execRti s
  | .brk => Sys2Proof.Machine.execBrk s
  | .bcc off => Sys2Proof.Machine.execBcc off s
  | .bcs off => Sys2Proof.Machine.execBcs off s
  | .beq off => Sys2Proof.Machine.execBeq off s
  | .bmi off => Sys2Proof.Machine.execBmi off s
  | .bne off => Sys2Proof.Machine.execBne off s
  | .bpl off => Sys2Proof.Machine.execBpl off s
  | .bvc off => Sys2Proof.Machine.execBvc off s
  | .bvs off => Sys2Proof.Machine.execBvs off s
  -- 46_flags_misc.md
  | .clc => Sys2Proof.Machine.execClc s
  | .cld => Sys2Proof.Machine.execCld s
  | .cli => Sys2Proof.Machine.execCli s
  | .clv => Sys2Proof.Machine.execClv s
  | .sec => Sys2Proof.Machine.execSec s
  | .sed => Sys2Proof.Machine.execSed s
  | .sei => Sys2Proof.Machine.execSei s
  | .nop => Sys2Proof.Machine.execNop s
  | .unimplemented op => Sys2Proof.Machine.execUnimplemented op s

end Sys2Proof.Machine
end

