-- ==== Sys2Proof/Machine/Fetch.lean ====
section
/-!
DEFINITION. When a step is enabled, and the first part of fetch: the counted reads of the opcode and of its operand bytes
(40_pipeline.md R100, R118, R130).
-/

namespace Sys2Proof.Machine

/-- A step is enabled only after a reset and while the fault status is NONE (R130, R26). -/
def whenEnabled (s : State) (o : Host.Outcome State Fault Refusal) : Host.Outcome State Fault Refusal :=
  match s.resetDone, s.fault with
  | false, _ => .refused .notReset
  | true, some _ => .refused .faultSet
  | true, none => o

/-- The counted reads of the operand bytes after the opcode, in address order (R81, R118); a byte that is not read is
given as 0. -/
def readOperands (count : Nat) (s : State) : Host.Outcome ((Byte × Byte) × State) Fault Refusal :=
  match count with
  | 0 => .next ((0, 0), s)
  | 1 => andThen (memRead (s.pc + 1) s) fun (b1, s) => .next ((b1, 0), s)
  | _ =>
    andThen (memRead (s.pc + 1) s) fun (b1, s) =>
    andThen (memRead (s.pc + 2) s) fun (b2, s) =>
    .next ((b1, b2), s)

/-- The opcode read, then as many operand bytes as the opcode's mode has; a byte that is UNIMPLEMENTED has none (R100,
R118). -/
def fetchInstr (s : State) : Host.Outcome (Instr × State) Fault Refusal :=
  andThen (memRead s.pc s) fun (op, s) =>
  andThen (readOperands (operandBytesOf op) s) fun ((b1, b2), s) =>
  .next (instrOf op b1 b2, s)

/-- Make three bytes the program's next ones: the host stores them at pc, pc + 1 and pc + 2 (70_reset_and_hazards.md
R293), on a machine whose step is enabled. -/
def placeCode (bytes : List Byte) (s : State) : State :=
  storeBytes bytes s.pc { s with resetDone := true, fault := none }

end Sys2Proof.Machine
end

