-- ==== Sys2Proof/Machine/Step.lean ====
section
/-!
DEFINITION. The step: fetch, then execute (40_pipeline.md R130).
-/

namespace Sys2Proof.Machine

/-- One step (R130): refused when it is not enabled; otherwise the counted reads of the instruction's bytes, then the
instruction. -/
def step (s : State) : Host.Outcome State Fault Refusal :=
  whenEnabled s (andThen (fetchInstr s) fun (i, s) => exec i s)

/-- `s` with the instruction whose bits are `w` where step fetches next (notes/assumptions/15.md). -/
def State.withFetchWord (s : State) (nbits w : Nat) : State := placeCode (tableBytes nbits w) s

end Sys2Proof.Machine
end

