-- ==== Sys2Proof/Machine/HostOps.lean ====
section
/-!
DEFINITION. The rest of the host interface (70_reset_and_hazards.md R290): construct, reset, read_state, write_register
and write_pc. writeArray, write, read, read16 and add_listener are in Mapper.lean, step in Step.lean. All of them are
uncounted (R313).
-/

namespace Sys2Proof.Machine

/-- The construction state of R296. The registers and pc have no value before the first reset: the zeros stand there for
want of one, and step and readReg refuse until then (R26; notes/assumptions/10.md). -/
def constructed (c : Config) : State :=
  { cfg := c
    regs := { status := 0, stack := 0, accum := 0, indX := 0, indY := 0, s5 := 0, s6 := 0, s7 := 0 }
    pc := 0
    resetDone := false
    cycles := 0
    listeners := []
    nextSeq := 0
    fault := none
    mem := []
    memEpoch := 0
    deviceLog := []
    draws := 0 }

/-- `construct(configuration)`: a machine, or the refusal of an ill-formed configuration (R290, R43). -/
def construct (c : Config) : HostResult State :=
  if c.wellFormed then .success (constructed c) else .refused .illFormedConfig

/-- What reset does to the backing store (R292): under `unspecified` every cell takes a new free value. -/
def discardMemory (s : State) : State :=
  match s.cfg.resetMemory with
  | .unspecified => { s with mem := [], memEpoch := s.memEpoch + 1 }
  | .preserved => s

/-- `reset(startAddress)` (R291): the eight registers to zero, pc to the start address, memory per RESET_MEMORY, the fault
status to NONE; the counter, the listeners, next_seq and the devices unchanged. -/
def hostReset (start : Word) (s : State) : State :=
  { discardMemory s with
    regs := { status := 0, stack := 0, accum := 0, indX := 0, indY := 0, s5 := 0, s6 := 0, s7 := 0 }
    pc := start
    fault := none
    resetDone := true }

/-- What `read_state` shows (R290). -/
structure StateView where
  regs      : RegFile
  pc        : Word
  cycles    : Cycles
  listeners : List Listener
  fault     : Option FaultRecord
  deriving DecidableEq, Repr

/-- `read_state` (R290): refused before the first reset, when the registers and pc have no value (R296). -/
def readState (s : State) : HostResult StateView :=
  if s.resetDone then
    .success { regs := s.regs, pc := s.pc, cycles := s.cycles, listeners := s.listeners, fault := s.fault }
  else .refused .notReset

/-- The reading of one register: refused before the first reset (R296). -/
def readReg (r : Reg) (s : State) : HostResult Byte :=
  if s.resetDone then .success (s.reg r) else .refused .notReset

/-- `write_register(name, byte)` (R290). -/
def writeRegister (r : Reg) (v : Byte) (s : State) : State := s.setReg r v

/-- `write_pc(word)` (R290). -/
def writePc (w : Word) (s : State) : State := s.setPc w

end Sys2Proof.Machine
end

