-- ==== Sys2Proof/Machine/Pipeline.lean ====
section
/-!
DEFINITION. The pipeline with METADATA and SEMANTICS as arguments (00_scope.md R5, 40_pipeline.md R100, R115, R121): what
a step is for ANY opcode metadata table and ANY operation table. `operation` is the default SEMANTICS by mnemonic. The
machine's own step (Step.lean) goes through Instr and exec, the default tables; that the two agree is stated in the
obligations.
-/

namespace Sys2Proof.Machine

/-- The default SEMANTICS by mnemonic (R87). -/
def operation : Mnemonic → Operation
  | .lda => opLda
  | .ldx => opLdx
  | .ldy => opLdy
  | .sta => opSta
  | .stx => opStx
  | .sty => opSty
  | .tax => opTax
  | .tay => opTay
  | .txa => opTxa
  | .tya => opTya
  | .tsx => opTsx
  | .txs => opTxs
  | .pha => opPha
  | .php => opPhp
  | .pla => opPla
  | .plp => opPlp
  | .adc => opAdc
  | .sbc => opSbc
  | .cmp => opCmp
  | .cpx => opCpx
  | .cpy => opCpy
  | .inc => opInc
  | .dec => opDec
  | .inx => opInx
  | .iny => opIny
  | .dex => opDex
  | .dey => opDey
  | .and => opAnd
  | .ora => opOra
  | .eor => opEor
  | .bit => opBit
  | .asl => opAsl
  | .lsr => opLsr
  | .rol => opRol
  | .ror => opRor
  | .jmp => opJmp
  | .jsr => opJsr
  | .rts => opRts
  | .rti => opRti
  | .brk => opBrk
  | .bcc => opBcc
  | .bcs => opBcs
  | .beq => opBeq
  | .bmi => opBmi
  | .bne => opBne
  | .bpl => opBpl
  | .bvc => opBvc
  | .bvs => opBvs
  | .clc => opClc
  | .cld => opCld
  | .cli => opCli
  | .clv => opClv
  | .sec => opSec
  | .sed => opSed
  | .sei => opSei
  | .nop => opNop

/-- The default SEMANTICS by opcode byte: the operation of the byte's mnemonic. A byte that the default METADATA
marks UNIMPLEMENTED has no operation, and no step with that table asks for one (R100). DESIGN CHOICE
(notes/assumptions/18.md): under another METADATA that implements such a byte, `semantics` raises UnimplementedOpcode
there. -/
def semantics (op : Byte) : Operation :=
  match metadata op with
  | some e => operation e.name
  | none => fun _ s => raise .unimplementedOpcode (.opcode op) s

/-- One step with given METADATA and SEMANTICS (R100, R115, R119 to R121, R130). -/
def stepWith (table : Byte → Option Entry) (ops : Byte → Operation) (s : State) : Host.Outcome State Fault Refusal :=
  whenEnabled s <|
  andThen (memRead s.pc s) fun (op, s) =>
  match table op with
  | none => raise .unimplementedOpcode (.opcode op) s
  | some e =>
    andThen (readOperands e.mode.operandBytes s) fun ((b1, b2), s) =>
    runEntry e.mode e.size b1 b2 (ops op) s

end Sys2Proof.Machine
end

