-- ==== Sys2Proof/Machine/Reading.lean ====
section
/-!
DEFINITION. What claims say of an instruction without running it: the byte an address holds, the address and the operand
a mode gives, read without counting (40_pipeline.md R102 to R114), and the spec's tables of accesses (R118,
70_reset_and_hazards.md R311), of what writes each flag and register (10_state.md R13 to R18), and of stores.
-/

namespace Sys2Proof.Machine

/-- `n` accesses counted. -/
def State.addCycles (s : State) (n : Nat) : State := { s with cycles := s.cycles + BitVec.ofNat 64 n }

/-- The byte an address holds on a machine with no device there: that of its resolved cell, read without counting. -/
def State.peek (s : State) (a : Word) : Byte := s.cell (resolve s.cfg a)

/-- The little-endian word at two addresses (R53). -/
def State.peekWord (s : State) (lo hi : Word) : Word := wordOf (s.peek hi) (s.peek lo)

/-- The base address of a mode that adds an index register to a word (R104, R105, R109). -/
def indexBase (mode : Mode) (b1 b2 : Byte) (s : State) : Word :=
  match mode with
  | .indirectIndexed => s.peekWord (zpPointer s.cfg b1).1 (zpPointer s.cfg b1).2
  | _ => wordOf b2 b1

/-- Whether ABS_INDEX_OVERFLOW = fault ends the fetch of a mode (R104, R105, R109). -/
def indexFaults (mode : Mode) (b1 b2 : Byte) (s : State) : Bool :=
  match mode with
  | .absoluteX => sumFaults s.cfg (indexBase mode b1 b2 s) (s.reg .indX)
  | .absoluteY => sumFaults s.cfg (indexBase mode b1 b2 s) (s.reg .indY)
  | .indirectIndexed => sumFaults s.cfg (indexBase mode b1 b2 s) (s.reg .indY)
  | _ => false

/-- The address field the mode table gives (R102 to R114), read without counting. -/
def effectiveAddress (mode : Mode) (b1 b2 : Byte) (s : State) : Word :=
  match mode with
  | .absolute => wordOf b2 b1
  | .accumulator => 0
  | .absoluteX => indexBase mode b1 b2 s + (s.reg .indX).setWidth 16
  | .absoluteY => indexBase mode b1 b2 s + (s.reg .indY).setWidth 16
  | .immediate => s.pc + 1
  | .indexedIndirect =>
    s.peekWord (indexedPointer s.cfg b1 (s.reg .indX)).1 (indexedPointer s.cfg b1 (s.reg .indX)).2
  | .indirect => s.peekWord (wordOf b2 b1) (indirectHigh s.cfg (wordOf b2 b1))
  | .indirectIndexed => indexBase mode b1 b2 s + (s.reg .indY).setWidth 16
  | .implied => s.pc
  | .zeroPage => b1.setWidth 16
  | .zeroPageX => zpIndexed s.cfg b1 (s.reg .indX)
  | .zeroPageY => zpIndexed s.cfg b1 (s.reg .indY)
  | .relative => s.pc + 2 + signExtend b1

/-- The zero-page addresses a mode reads its pointer from (R107, R109). -/
def pointerAddresses (mode : Mode) (b1 : Byte) (s : State) : List Word :=
  match mode with
  | .indexedIndirect => [(indexedPointer s.cfg b1 (s.reg .indX)).1, (indexedPointer s.cfg b1 (s.reg .indX)).2]
  | .indirectIndexed => [(zpPointer s.cfg b1).1, (zpPointer s.cfg b1).2]
  | _ => []

/-- The operand field the mode table gives (R102 to R114), read without counting; none where it gives none. -/
def operandField (mode : Mode) (b1 b2 : Byte) (s : State) : Option Byte :=
  match mode with
  | .accumulator => some (s.reg .accum)
  | .immediate => some b1
  | .indexedIndirect | .indirectIndexed | .zeroPage | .zeroPageX | .zeroPageY =>
    some (s.peek (effectiveAddress mode b1 b2 s))
  | .absolute | .absoluteX | .absoluteY | .indirect | .implied | .relative => none

/-- The byte LOAD gives an operation (R122), read without counting. -/
def dataByte (mode : Mode) (b1 b2 : Byte) (s : State) : Byte :=
  (operandField mode b1 b2 s).getD (s.peek (effectiveAddress mode b1 b2 s))

/-- The address field of an instruction. -/
def addressOf (i : Instr) (m : Mode) (s : State) : Word := effectiveAddress m i.byte1 i.byte2 s

/-- The data byte of an instruction. -/
def dataOf (i : Instr) (m : Mode) (s : State) : Byte := dataByte m i.byte1 i.byte2 s

/-- How many reads fetch makes in a mode, the opcode's among them (40_pipeline.md R118). -/
def fetchAccesses : Mode → Nat
  | .implied | .accumulator => 1
  | .immediate | .relative => 2
  | .zeroPage | .zeroPageX | .zeroPageY | .absolute | .absoluteX | .absoluteY => 3
  | .indirect | .indexedIndirect | .indirectIndexed => 5

/-- Whether the operation reads its data byte itself (R122). -/
def readsItself : Mode → Bool
  | .absolute | .absoluteX | .absoluteY => true
  | _ => false

/-- How many accesses the operation makes (70_reset_and_hazards.md R311). -/
def operationAccesses (n : Mnemonic) (m : Mode) : Nat :=
  match n with
  | .adc | .and | .bit | .cmp | .cpx | .cpy | .eor | .lda | .ldx | .ldy | .ora | .sbc =>
    if readsItself m then 1 else 0
  | .sta | .stx | .sty => 1
  | .asl | .dec | .inc | .lsr | .rol | .ror =>
    if m = .accumulator then 0 else if readsItself m then 2 else 1
  | .jsr => 2
  | .rts => 2
  | .rti => 3
  | .brk => 5
  | .pha | .php | .pla | .plp => 1
  | _ => 0

/-- The cost of a step that completes (70_reset_and_hazards.md R310). -/
def accesses (e : Entry) : Nat := fetchAccesses e.mode + operationAccesses e.name e.mode

/-- The accesses of `accesses` that come after the instruction's own bytes. -/
def execAccesses (e : Entry) : Nat := accesses e - (1 + e.mode.operandBytes)

/-- `s` with the rest of an instruction's accesses counted and pc past it (R120, R310): what every row does beside its
own effect, where it is no control transfer. -/
def State.passed (s : State) (e : Entry) : State :=
  (s.addCycles (execAccesses e)).setPc (s.pc + BitVec.ofNat 16 e.size)

/-- The kind of a fault (R264). -/
def Fault.kind : Fault → FaultKind
  | .unimplementedOpcode _ => .unimplementedOpcode
  | .outOfRange _ => .outOfRange
  | .cycleCounterOverflow _ => .cycleCounterOverflow

/-- `s` with other values in what no program can observe: bits 4 and 5 of STATUS (R14) and the spare slots (R11). -/
def State.withUnread (s : State) (bits s5 s6 s7 : Byte) : State :=
  { s with regs :=
    { s.regs with status := (s.regs.status &&& 0xCF) ||| (bits &&& 0x30), s5 := s5, s6 := s6, s7 := s7 } }

/-- Two listeners in the order one scan invokes them: by target, then by registration (20_memory.md R63). -/
def Listener.before (l k : Listener) : Prop := l.target < k.target ∨ (l.target = k.target ∧ l.seq ≤ k.seq)

/-- The device writes a bulk load delivers, in order (20_memory.md R47). -/
def deviceWrites (c : Config) : List Byte → Word → List DeviceEvent
  | [], _ => []
  | v :: vs, a =>
    match route c a with
    | .device d r => .write d r v :: deviceWrites c vs (a + 1)
    | _ => deviceWrites c vs (a + 1)

/-- A byte of two decimal digits as a number. -/
def bcdValue (b : Byte) : Nat := 10 * (b.toNat / 16) + b.toNat % 16

/-- The mnemonics that write N and Z (10_state.md R13). -/
def nzWriters : List Mnemonic :=
  [.adc, .sbc, .and, .ora, .eor, .bit, .cmp, .cpx, .cpy, .asl, .lsr, .rol, .ror, .inc, .dec, .inx, .iny, .dex, .dey,
    .lda, .ldx, .ldy, .tax, .tay, .txa, .tya, .tsx, .pla, .plp, .rti]

/-- The mnemonics that write a flag (10_state.md R13). -/
def flagWriters : Flag → List Mnemonic
  | .c => [.adc, .sbc, .cmp, .cpx, .cpy, .asl, .lsr, .rol, .ror, .clc, .sec, .plp, .rti]
  | .z | .n => nzWriters
  | .i => [.sei, .cli, .brk, .plp, .rti]
  | .d => [.sed, .cld, .plp, .rti]
  | .v => [.adc, .sbc, .bit, .clv, .plp, .rti]
  | .b | .unused => []

/-- Whether a row writes A, X, Y, SP or a spare slot (10_state.md R11, R15 to R18). STATUS is covered by
`flagWriters`. -/
def writesReg (r : Reg) (e : Entry) : Bool :=
  match r with
  | .accum => [.lda, .pla, .txa, .tya, .adc, .sbc, .and, .ora, .eor].contains e.name
      || ([.asl, .lsr, .rol, .ror].contains e.name && decide (e.mode = .accumulator))
  | .indX => [.ldx, .tax, .tsx, .inx, .dex].contains e.name
  | .indY => [.ldy, .tay, .iny, .dey].contains e.name
  | .stack => [.txs, .pha, .php, .pla, .plp, .jsr, .rts, .rti, .brk].contains e.name
  | .status => true
  | .s5 | .s6 | .s7 => false

/-- The mnemonics that may leave pc elsewhere than at the next instruction (45_control.md). -/
def controlTransfers : List Mnemonic :=
  [.jmp, .jsr, .rts, .rti, .brk, .bcc, .bcs, .beq, .bmi, .bne, .bpl, .bvc, .bvs]

/-- The addresses a row stores to, in the order it stores (R143 to R145, R160, R124, R221, R224). -/
def storedAddresses (e : Entry) (i : Instr) (s : State) : List Word :=
  match e.name with
  | .sta | .stx | .sty | .inc | .dec => [addressOf i e.mode s]
  | .asl | .lsr | .rol | .ror => if e.mode = .accumulator then [] else [addressOf i e.mode s]
  | .pha | .php => [stackAddress (s.reg .stack)]
  | .jsr => [stackAddress (s.reg .stack), stackAddress (s.reg .stack - 1)]
  | .brk => [stackAddress (s.reg .stack), stackAddress (s.reg .stack - 1), stackAddress (s.reg .stack - 2)]
  | _ => []

end Sys2Proof.Machine
end

