-- ==== Sys2Proof/Safety.lean ====
section
/-!
DEFINITION. The terms claims are made in: what a safe run is, the invariant of the state, a machine that nothing outside
disturbs. The uncounted readings the claims use are in Machine/Reading.lean.
-/

namespace Sys2Proof.Machine

/-- Every address has a cell or a device (20_memory.md R45): true of the default configuration. -/
def Routable (c : Config) : Prop := ∀ a : Word, route c a ≠ .outOfRange

/-- Nothing disturbs the next `n` accesses: no listener is pending (R67), no address is a device's (R44), every address
has a cell, and the counter has room (R263). -/
structure Quiet (n : Nat) (s : State) : Prop where
  noListener : s.listeners = []
  noDevice   : s.cfg.devices = []
  routable   : Routable s.cfg
  room       : s.cycles.toNat + n < 2 ^ 64

/-- The invariant of the block. -/
structure State.Inv (s : State) : Prop where
  /-- The configuration is one construction accepts (R43). -/
  config     : s.cfg.wellFormed = true
  /-- The memory is in its canonical form. -/
  memory     : s.mem.wf = true
  /-- Only cells of the backing store are written (R40, R45). -/
  bounded    : ∀ x ∈ s.mem, x.1 < s.cfg.capacity
  /-- The pending listeners stand in the order of their registration numbers, no two with the same (R22, R23). -/
  ordered    : (s.listeners.map Listener.seq).Pairwise (· < ·)
  /-- A registration number is one next_seq has passed (R23). -/
  registered : ∀ l ∈ s.listeners, l.seq < s.nextSeq
  /-- Bits 4 and 5 of STATUS keep their reset value (R14). -/
  statusBits : s.reg .status &&& 0x30 = 0
  /-- The spare slots keep theirs (R11). -/
  spare      : s.reg .s5 = 0 ∧ s.reg .s6 = 0 ∧ s.reg .s7 = 0

/-- The next `n` steps all complete: no fault and no refusal. -/
def Safe : Nat → State → Prop
  | 0, _ => True
  | n + 1, s =>
    match step s with
    | .next t => Safe n t
    | _ => False

end Sys2Proof.Machine
end

