-- ==== Sys2Proof/Certificates/Slice0/Obligations.lean ====
section
/-!
DEFINITION. The statements for the provers, one `def Obligations.<Name> : Prop` each. Most say what exec answers on a
machine that is `Quiet` for the accesses the instruction makes: no listener and no device is configured, every address
has a cell, and the counter has room. They then give the WHOLE next state, so they are result, completion and frame at
once. Statements with no `Quiet` hold whatever listeners and devices do. No statement rests on the value of a free
value or of the model's own counters.
-/

section
open Sys2Proof Sys2Proof.Machine

/-! ## Encoding and decoding (30_encoding.md) -/

/-- Words written out from the encoding tables of every family decode to the instruction they stand for. -/
def Obligations.DocumentedWordsDecode : Prop :=
  decode [0xA9, 0x80] = .ok (.ldaImm 0x80, []) ∧
  decode [0x8D, 0x34, 0x12] = .ok (.staAbs 0x1234, []) ∧
  decode [0xAA] = .ok (.tax, []) ∧
  decode [0x48] = .ok (.pha, []) ∧
  decode [0x61, 0x80] = .ok (.adcIndX 0x80, []) ∧
  decode [0xF1, 0x80] = .ok (.sbcIndY 0x80, []) ∧
  decode [0x7E, 0xF0, 0xFF] = .ok (.rorAbsX 0xFFF0, []) ∧
  decode [0x24, 0x80] = .ok (.bitZp 0x80, []) ∧
  decode [0x6C, 0xFF, 0x30] = .ok (.jmpInd 0x30FF, []) ∧
  decode [0xF0, 0x85] = .ok (.beq 0x85, []) ∧
  decode [0x00, 0xEA] = .ok (.brk, [0xEA]) ∧
  decode [0xF8] = .ok (.sed, []) ∧
  decode [0x02, 0x00] = .ok (.unimplemented 0x02, [0x00])

/-- METADATA has 151 entries and is UNIMPLEMENTED on exactly the 105 bytes of R88; every size is that of the mode (R83,
R84, R86). -/
def Obligations.OpcodeTableSizesAndSentinels : Prop :=
  opcodeTable.length = 151 ∧ unimplementedBytes.length = 105 ∧
  (∀ op, metadata op = none ↔ op ∈ unimplementedBytes) ∧
  ∀ op e, metadata op = some e → e.size = 1 + e.mode.operandBytes

/-- The decoder gives back every well-formed instruction from its encoding, whatever bytes follow. -/
def Obligations.DecodeOfEncode : Prop :=
  ∀ (i : Instr) (rest : List Byte), i.wellFormed = true → decode (encode i ++ rest) = .ok (i, rest)

/-- Bytes that decode are the encoding of what they decode to: every byte sequence has one meaning. -/
def Obligations.EncodeOfDecode : Prop :=
  ∀ (bytes rest : List Byte) (i : Instr), decode bytes = .ok (i, rest) →
    i.wellFormed = true ∧ bytes = encode i ++ rest

/-! ## The step (40_pipeline.md R100, R119 to R121, R130) -/

/-- A step runs the instruction that the bytes at pc decode to, after one counted read for each of its bytes. -/
def Obligations.StepRunsDecodedInstruction : Prop :=
  ∀ (s : State) (i : Instr) (rest : List Byte), s.resetDone = true → s.fault = none →
    decode [s.peek s.pc, s.peek (s.pc + 1), s.peek (s.pc + 2)] = .ok (i, rest) →
    Quiet (encode i).length s →
    step s = exec i (s.addCycles (encode i).length)

/-- The same on any machine: what fetch's reads answer is what the step runs, with registers and pc as they were and one
cycle for each byte of the instruction. -/
def Obligations.StepRunsFetchedInstruction : Prop :=
  ∀ (s u : State) (i : Instr), s.resetDone = true → s.fault = none → fetchInstr s = .next (i, u) →
    step s = exec i u ∧ i.wellFormed = true ∧ u.regs = s.regs ∧ u.pc = s.pc ∧ u.cfg = s.cfg ∧
    u.cycles.toNat = s.cycles.toNat + (encode i).length

/-- A step is refused before the first reset and while a fault is set, and at no other time: no instruction of the
default table reads an operand that is NONE (R130, R26, R24, R101). -/
def Obligations.StepRefusedOnlyWhenDisabled : Prop :=
  ∀ s : State,
    (s.resetDone = false → step s = .refused .notReset) ∧
    (s.resetDone = true → s.fault ≠ none → step s = .refused .faultSet) ∧
    (s.resetDone = true → s.fault = none → ∀ r, step s ≠ .refused r)

/-- The machine's step is the pipeline of R100 to R121 run with the default METADATA and SEMANTICS. -/
def Obligations.StepIsThePipelineWithDefaultTables : Prop :=
  ∀ s : State, step s = stepWith metadata semantics s

/-- The pipeline with any METADATA and SEMANTICS: the mode decides what is read, the size decides the advance, the
operation does the rest; a byte that is UNIMPLEMENTED faults after its one read (R84, R100, R115, R118 to R121). That a
size above 3, or 0, advances pc by it too is the model's choice (notes/assumptions/21.md). -/
def Obligations.PipelineWithAnyTables : Prop :=
  ∀ (table : Byte → Option Entry) (ops : Byte → Operation) (s : State), s.resetDone = true → s.fault = none →
    (∀ e, table (s.peek s.pc) = some e → Quiet (fetchAccesses e.mode) s →
      indexFaults e.mode (s.peek (s.pc + 1)) (s.peek (s.pc + 2)) s = false →
      stepWith table ops s =
        ops (s.peek s.pc)
          { operand := operandField e.mode (s.peek (s.pc + 1)) (s.peek (s.pc + 2)) s
            address := effectiveAddress e.mode (s.peek (s.pc + 1)) (s.peek (s.pc + 2)) s
            mode := e.mode
            size := e.size }
          ((s.addCycles (fetchAccesses e.mode)).setPc (s.pc + BitVec.ofNat 16 e.size))) ∧
    (table (s.peek s.pc) = none → Quiet 1 s →
      stepWith table ops s =
        .fault (.unimplementedOpcode { s.addCycles 1 with
          fault := some { kind := .unimplementedOpcode, pcAtFault := s.pc, detail := .opcode (s.peek s.pc) } }))

/-! ## Addresses (40_pipeline.md R102 to R114) -/

/-- The address arithmetic in numbers: little-endian words, indexed sums that wrap at 65536, zero-page sums under both
ZP_INDEX_MODEs, pointers under both ZP_POINTER_WRAPs, the Indirect pointer under both INDIRECT_PAGE_BUGs, the signed
branch offset, the stack page. -/
def Obligations.AddressArithmetic : Prop :=
  (∀ hi lo : Byte, (wordOf hi lo).toNat = 256 * hi.toNat + lo.toNat) ∧
  (∀ (base : Word) (x : Byte), (base + x.setWidth 16).toNat = (base.toNat + x.toNat) % 65536) ∧
  (∀ (c : Config) (b x : Byte),
    (c.zpIndexMode = .wrap8 → (zpIndexed c b x).toNat = (b.toNat + x.toNat) % 256) ∧
    (c.zpIndexMode = .signedSource → ((zpIndexed c b x).toNat : Int) = ((b.toNat : Int) + x.toInt) % 65536) ∧
    (c.zpPointerWrap = true →
      (indexedPointer c b x).1.toNat = (b.toNat + x.toNat) % 256 ∧
      (indexedPointer c b x).2.toNat = (b.toNat + x.toNat + 1) % 256 ∧
      (zpPointer c b).1.toNat = b.toNat ∧ (zpPointer c b).2.toNat = (b.toNat + 1) % 256) ∧
    (c.zpPointerWrap = false →
      (indexedPointer c b x).1.toNat = b.toNat + x.toNat ∧
      (indexedPointer c b x).2.toNat = b.toNat + x.toNat + 1 ∧
      (zpPointer c b).1.toNat = b.toNat ∧ (zpPointer c b).2.toNat = b.toNat + 1)) ∧
  (∀ (c : Config) (p : Word),
    (c.indirectPageBug = false → (indirectHigh c p).toNat = (p.toNat + 1) % 65536) ∧
    (c.indirectPageBug = true → (indirectHigh c p).toNat = 256 * (p.toNat / 256) + (p.toNat + 1) % 256)) ∧
  (∀ (pc : Word) (off : Byte), ((pc + 2 + signExtend off).toNat : Int) = ((pc.toNat : Int) + 2 + off.toInt) % 65536) ∧
  (∀ sp : Byte, (stackAddress sp).toNat = 256 + sp.toNat)

/-- Under ABS_INDEX_OVERFLOW = fault an indexed sum above 0xFFFF raises OutOfRange during fetch, with the unwrapped sum as
its detail and no access to that address (R104, R105, R109, R261). -/
def Obligations.IndexedSumAboveTopFaults : Prop :=
  ∀ (i : Instr) (e : Entry) (r : Reg) (s : State), i.entry = some e →
    (e.mode, r) ∈ [(.absoluteX, .indX), (.absoluteY, .indY), (.indirectIndexed, .indY)] →
    s.cfg.absIndexOverflow = .fault →
    let base := indexBase e.mode i.byte1 i.byte2 s
    let pointerReads := if e.mode = .indirectIndexed then 2 else 0
    base.toNat + (s.reg r).toNat > 0xFFFF →
    (e.mode = .indirectIndexed → Quiet 2 s) →
    exec i s = .fault (.outOfRange { s.addCycles pointerReads with
      fault := some { kind := .outOfRange, pcAtFault := s.pc, detail := .address (base.toNat + (s.reg r).toNat) } })

/-! ## STATUS (10_state.md R12, 00_scope.md R8) -/

/-- The bit of each flag, that writing one flag leaves the other seven, and what NZ writes. -/
def Obligations.StatusFlagsAreBits : Prop :=
  (∀ p : Byte, flagOf p .c = p.getLsbD 0 ∧ flagOf p .z = p.getLsbD 1 ∧ flagOf p .i = p.getLsbD 2 ∧
    flagOf p .d = p.getLsbD 3 ∧ flagOf p .b = p.getLsbD 4 ∧ flagOf p .unused = p.getLsbD 5 ∧
    flagOf p .v = p.getLsbD 6 ∧ flagOf p .n = p.getLsbD 7) ∧
  (∀ (s : State) (f g : Flag) (b : Bool), (s.setFlag f b).flag g = if g = f then b else s.flag g) ∧
  (∀ (s : State) (v : Byte), (s.setNZ v).flag .n = decide (128 ≤ v.toNat) ∧ (s.setNZ v).flag .z = decide (v = 0) ∧
    ∀ g, g ≠ .n → g ≠ .z → (s.setNZ v).flag g = s.flag g)

/-! ## Loads and stores (41_load_store.md) -/

/-- LDA, LDX, LDY in every mode: the register holds the data byte, N and Z are of it, pc and the count move on, nothing
else changes. -/
def Obligations.LoadsWriteRegisterAndNZ : Prop :=
  ∀ (i : Instr) (e : Entry) (r : Reg) (s : State), i.entry = some e →
    (e.name, r) ∈ [(.lda, .accum), (.ldx, .indX), (.ldy, .indY)] →
    Quiet (execAccesses e) s → indexFaults e.mode i.byte1 i.byte2 s = false →
    exec i s = .next (((s.passed e).setReg r (dataOf i e.mode s)).setNZ (dataOf i e.mode s))

/-- STA, STX, STY in every mode: the cell of the effective address holds the register, no flag and no register
changes. -/
def Obligations.StoresWriteTheEffectiveAddress : Prop :=
  ∀ (i : Instr) (e : Entry) (r : Reg) (s : State), i.entry = some e →
    (e.name, r) ∈ [(.sta, .accum), (.stx, .indX), (.sty, .indY)] →
    Quiet (execAccesses e) s → indexFaults e.mode i.byte1 i.byte2 s = false →
    exec i s = .next ((s.setCell (resolve s.cfg (addressOf i e.mode s)) (s.reg r)).passed e)

/-- A store to a device delivers the register to it; in the ZeroPage and the indirect modes the target is read first, in
the Absolute modes it is not (20_memory.md R44, 70_reset_and_hazards.md R301). A pointer is read from cells, since a
device's answer is free. -/
def Obligations.StoresReadTheirTargetFirst : Prop :=
  ∀ (i : Instr) (e : Entry) (r : Reg) (s : State) (d a : Nat), i.entry = some e →
    (e.name, r) ∈ [(.sta, .accum), (.stx, .indX), (.sty, .indY)] →
    s.listeners = [] → s.cycles.toNat + execAccesses e < 2 ^ 64 →
    indexFaults e.mode i.byte1 i.byte2 s = false →
    (∀ p ∈ pointerAddresses e.mode i.byte1 s, ∃ q, route s.cfg p = .backing q) →
    route s.cfg (addressOf i e.mode s) = .device d a →
    (e.mode ∈ [.zeroPage, .zeroPageX, .zeroPageY, .indexedIndirect, .indirectIndexed] →
      exec i s = .next { s.passed e with deviceLog := .write d a (s.reg r) :: .read d a :: s.deviceLog }) ∧
    (e.mode ∈ [.absolute, .absoluteX, .absoluteY] →
      exec i s = .next { s.passed e with deviceLog := .write d a (s.reg r) :: s.deviceLog })

/-! ## Transfers and the stack (42_transfer_stack.md) -/

/-- TAX, TAY, TXA, TYA, TSX, TXS on any machine: encoding, cost, register, flags, and nothing else; after the opcode read
they cannot fault. -/
def Obligations.TransfersCopyRegisters : Prop :=
  encode .tax = [0xAA] ∧ encode .tay = [0xA8] ∧ encode .txa = [0x8A] ∧ encode .tya = [0x98] ∧ encode .tsx = [0xBA] ∧
  encode .txs = [0x9A] ∧
  (∀ i ∈ [Instr.tax, .tay, .txa, .tya, .tsx, .txs], ∃ n, i.entry = some ⟨n, .implied, 1⟩ ∧
    accesses ⟨n, .implied, 1⟩ = 1) ∧
  ∀ s : State,
    exec .tax s = .next (((s.setPc (s.pc + 1)).setReg .indX (s.reg .accum)).setNZ (s.reg .accum)) ∧
    exec .tay s = .next (((s.setPc (s.pc + 1)).setReg .indY (s.reg .accum)).setNZ (s.reg .accum)) ∧
    exec .txa s = .next (((s.setPc (s.pc + 1)).setReg .accum (s.reg .indX)).setNZ (s.reg .indX)) ∧
    exec .tya s = .next (((s.setPc (s.pc + 1)).setReg .accum (s.reg .indY)).setNZ (s.reg .indY)) ∧
    exec .tsx s = .next (((s.setPc (s.pc + 1)).setReg .indX (s.reg .stack)).setNZ (s.reg .stack)) ∧
    exec .txs s = .next ((s.setPc (s.pc + 1)).setReg .stack (s.reg .indX))

/-- `push` writes at 0x0100 + SP and then moves SP down mod 256; `pull` moves SP up mod 256 and then reads. A push that
faults leaves SP, a pull that faults leaves SP moved (R160, R161). -/
def Obligations.PushAndPullMoveTheStack : Prop :=
  (∀ sp : Byte, (stackAddress sp).toNat = 0x0100 + sp.toNat ∧ (sp - 1).toNat = (sp.toNat + 255) % 256 ∧
    (sp + 1).toNat = (sp.toNat + 1) % 256) ∧
  (∀ (v : Byte) (s : State),
    (∀ t, memWrite (stackAddress (s.reg .stack)) v s = .next t → push v s = .next (t.setReg .stack (s.reg .stack - 1))) ∧
    (∀ f, memWrite (stackAddress (s.reg .stack)) v s = .fault f →
      push v s = .fault f ∧ f.after.reg .stack = s.reg .stack)) ∧
  ∀ s : State, let t := s.setReg .stack (s.reg .stack + 1)
    pull s = memRead (stackAddress (s.reg .stack + 1)) t ∧
    ∀ f, pull s = .fault f → f.after.reg .stack = s.reg .stack + 1

/-- PHA and PHP: the cell of 0x0100 + SP holds A, or P with bits 4 and 5 set; SP moves down; no flag changes. -/
def Obligations.PushesStoreAtTheStack : Prop :=
  ∀ (i : Instr) (v : Byte) (s : State),
    (i = .pha ∧ v = s.reg .accum) ∨ (i = .php ∧ v = s.reg .status ||| 0x30) → Quiet 1 s →
    exec i s = .next (((((s.setCell (resolve s.cfg (stackAddress (s.reg .stack))) v).addCycles 1).setPc
      (s.pc + 1)).setReg .stack (s.reg .stack - 1)))

/-- PLA writes A, N and Z from the pulled byte; PLP writes P with bits 4 and 5 kept; SP moves up. -/
def Obligations.PullsLoadFromTheStack : Prop :=
  ∀ s : State, Quiet 1 s →
    let v := s.peek (stackAddress (s.reg .stack + 1))
    let t := ((s.addCycles 1).setPc (s.pc + 1)).setReg .stack (s.reg .stack + 1)
    exec .pla s = .next ((t.setReg .accum v).setNZ v) ∧
    exec .plp s = .next (t.setReg .status ((v &&& 0xCF) ||| (s.reg .status &&& 0x30)))

/-! ## Arithmetic (43_arithmetic.md) -/

/-- ADC and SBC in every mode: A, C, V, N and Z are those of the binary operation when D = 0 and of the decimal algorithm
when D = 1; with DECIMAL_RESULT = host oracle and an operand that is not valid BCD they are the oracle's, whatever it
answers (the draw counter is the model's own, notes/assumptions/8.md). -/
def Obligations.AddSubtractWriteAccumulator : Prop :=
  ∀ (i : Instr) (e : Entry) (op : DecimalOp) (s : State), i.entry = some e →
    (e.name, op) ∈ [(.adc, .adc), (.sbc, .sbc)] →
    Quiet (execAccesses e) s → indexFaults e.mode i.byte1 i.byte2 s = false →
    let a := s.reg .accum
    let m := dataOf i e.mode s
    let c := s.flag .c
    (s.flag .d = false → exec i s = .next ((s.passed e).writeAlu (binaryAlu op a m c))) ∧
    (s.flag .d = true → s.cfg.decimalResult = .nmosAlgorithm ∨ (validBcd a = true ∧ validBcd m = true) →
      exec i s = .next ((s.passed e).writeAlu (decimalNmos op a m c))) ∧
    (s.flag .d = true → s.cfg.decimalResult = .hostOracle → ¬ (validBcd a = true ∧ validBcd m = true) →
      ∃ o : AluOut, exec i s = .next { (s.passed e).writeAlu o with draws := s.draws + 1 })

/-- Binary ADC and SBC in numbers: the result mod 256, C the carry or the absence of a borrow, V the signed overflow, N
and Z of the result (R180, R181, R191). -/
def Obligations.BinaryArithmeticInNumbers : Prop :=
  ∀ (a m : Byte) (c : Bool),
    let add := adcBinary a m c
    let sub := sbcBinary a m c
    let sum : Int := a.toInt + m.toInt + c.toNat
    let difference : Int := a.toInt - m.toInt - (1 - c.toNat)
    (add.value.toNat = (a.toNat + m.toNat + c.toNat) % 256 ∧ (add.c = true ↔ 255 < a.toNat + m.toNat + c.toNat) ∧
      (add.v = true ↔ sum < -128 ∨ 127 < sum) ∧ add.n = add.value.getLsbD 7 ∧ add.z = decide (add.value = 0)) ∧
    (sub.value.toNat = (256 + a.toNat - m.toNat - (1 - c.toNat)) % 256 ∧
      (sub.c = true ↔ m.toNat + (1 - c.toNat) ≤ a.toNat) ∧
      (sub.v = true ↔ difference < -128 ∨ 127 < difference) ∧ sub.n = sub.value.getLsbD 7 ∧
      sub.z = decide (sub.value = 0))

/-- Decimal ADC and SBC of valid BCD operands in numbers: the decimal sum or difference mod 100 as valid BCD, C the
decimal carry or the absence of a borrow; Z of ADC is that of the binary sum, its N and V are bit 7 and the signed
overflow of the sum whose low digit alone is corrected; every other flag of SBC is that of the binary difference (R180,
R181). -/
def Obligations.DecimalArithmeticInNumbers : Prop :=
  ∀ (a m : Byte) (c : Bool), validBcd a = true → validBcd m = true →
    let add := adcDecimal a m c
    let sub := sbcDecimal a m c
    let low := a.toNat % 16 + m.toNat % 16 + c.toNat
    let tens : Byte → Int := fun b => if b.toNat < 128 then 16 * (b.toNat / 16) else 16 * (b.toNat / 16) - 256
    let st : Int := tens a + tens m + (if low < 10 then low else low + 6)
    (validBcd add.value = true ∧ bcdValue add.value = (bcdValue a + bcdValue m + c.toNat) % 100 ∧
      (add.c = true ↔ 99 < bcdValue a + bcdValue m + c.toNat) ∧ add.z = (adcBinary a m c).z ∧
      (add.v = true ↔ st < -128 ∨ 127 < st) ∧ (add.n = true ↔ 128 ≤ st % 256)) ∧
    (validBcd sub.value = true ∧ bcdValue sub.value = (100 + bcdValue a - bcdValue m - (1 - c.toNat)) % 100 ∧
      (sub.c = true ↔ bcdValue m + (1 - c.toNat) ≤ bcdValue a) ∧ sub.v = (sbcBinary a m c).v ∧
      sub.n = (sbcBinary a m c).n ∧ sub.z = (sbcBinary a m c).z)

/-- CMP, CPX, CPY in every mode: C says that the register is at least the data byte, N and Z are of the difference, no
register but STATUS and no other flag changes; D has no effect. -/
def Obligations.ComparesWriteOnlyCZN : Prop :=
  ∀ (i : Instr) (e : Entry) (r : Reg) (s : State), i.entry = some e →
    (e.name, r) ∈ [(.cmp, .accum), (.cpx, .indX), (.cpy, .indY)] →
    Quiet (execAccesses e) s → indexFaults e.mode i.byte1 i.byte2 s = false →
    let m := dataOf i e.mode s
    exec i s = .next (((s.passed e).setFlag .c (decide (m.toNat ≤ (s.reg r).toNat))).setNZ (s.reg r - m))

/-- INC and DEC in every mode: the cell of the effective address is raised or lowered by one mod 256, N and Z are of the
new byte, C and V stay. -/
def Obligations.IncrementsStepTheCell : Prop :=
  ∀ (i : Instr) (e : Entry) (d : Byte) (s : State), i.entry = some e →
    (e.name, d) ∈ [(.inc, 1), (.dec, 0xFF)] →
    Quiet (execAccesses e) s → indexFaults e.mode i.byte1 i.byte2 s = false →
    let r := s.peek (addressOf i e.mode s) + d
    exec i s = .next (((s.setCell (resolve s.cfg (addressOf i e.mode s)) r).passed e).setNZ r)

/-- INX, INY, DEX, DEY on any machine: encoding, cost, register, N and Z, and nothing else; after the opcode read they
cannot fault. -/
def Obligations.IndexStepsWrapAndSetNZ : Prop :=
  encode .inx = [0xE8] ∧ encode .iny = [0xC8] ∧ encode .dex = [0xCA] ∧ encode .dey = [0x88] ∧
  (∀ i ∈ [Instr.inx, .iny, .dex, .dey], ∃ n, i.entry = some ⟨n, .implied, 1⟩ ∧ accesses ⟨n, .implied, 1⟩ = 1) ∧
  ∀ s : State,
    exec .inx s = .next (((s.setPc (s.pc + 1)).setReg .indX (s.reg .indX + 1)).setNZ (s.reg .indX + 1)) ∧
    exec .iny s = .next (((s.setPc (s.pc + 1)).setReg .indY (s.reg .indY + 1)).setNZ (s.reg .indY + 1)) ∧
    exec .dex s = .next (((s.setPc (s.pc + 1)).setReg .indX (s.reg .indX - 1)).setNZ (s.reg .indX - 1)) ∧
    exec .dey s = .next (((s.setPc (s.pc + 1)).setReg .indY (s.reg .indY - 1)).setNZ (s.reg .indY - 1))

/-! ## Logic, bit test, shifts (44_logic_shift.md) -/

/-- AND, ORA, EOR in every mode: A holds the bitwise result, N and Z are of it, nothing else changes. -/
def Obligations.LogicWritesAccumulator : Prop :=
  ∀ (i : Instr) (e : Entry) (s : State) (r : Byte), i.entry = some e →
    Quiet (execAccesses e) s → indexFaults e.mode i.byte1 i.byte2 s = false →
    let a := s.reg .accum
    let m := dataOf i e.mode s
    (e.name = .and ∧ r = a &&& m) ∨ (e.name = .ora ∧ r = a ||| m) ∨ (e.name = .eor ∧ r = a ^^^ m) →
    exec i s = .next (((s.passed e).setReg .accum r).setNZ r)

/-- BIT in every mode: Z of A & m, N and V the bits 7 and 6 of m, nothing else changes. -/
def Obligations.BitTestWritesOnlyZNV : Prop :=
  ∀ (i : Instr) (e : Entry) (s : State), i.entry = some e → e.name = .bit →
    Quiet (execAccesses e) s → indexFaults e.mode i.byte1 i.byte2 s = false →
    let m := dataOf i e.mode s
    exec i s = .next ((((s.passed e).setFlag .z (decide (s.reg .accum &&& m = 0))).setFlag .n (m.getLsbD 7)).setFlag .v
      (m.getLsbD 6))

/-- ASL, LSR, ROL, ROR in every mode: the result goes back to A or to the cell of the effective address, C is the bit
shifted out, N and Z are of the result; the carry in of a rotate is the old C. -/
def Obligations.ShiftsMoveOneBit : Prop :=
  ∀ (i : Instr) (e : Entry) (s : State) (v r : Byte) (out : Bool), i.entry = some e →
    Quiet (execAccesses e) s → indexFaults e.mode i.byte1 i.byte2 s = false →
    v = (if e.mode = .accumulator then s.reg .accum else s.peek (addressOf i e.mode s)) →
    (e.name = .asl ∧ r = v <<< 1 ∧ out = v.getLsbD 7) ∨
    (e.name = .lsr ∧ r = v >>> 1 ∧ out = v.getLsbD 0) ∨
    (e.name = .rol ∧ r = (v <<< 1) ||| (if s.flag .c then 1 else 0) ∧ out = v.getLsbD 7) ∨
    (e.name = .ror ∧ r = (v >>> 1) ||| (if s.flag .c then 0x80 else 0) ∧ out = v.getLsbD 0) →
    exec i s = .next
      (((if e.mode = .accumulator then (s.passed e).setReg .accum r
          else (s.setCell (resolve s.cfg (addressOf i e.mode s)) r).passed e).setFlag .c out).setNZ r)

/-! ## Control transfers (45_control.md) -/

/-- JMP: Absolute on any machine, Indirect through the little-endian word at the pointer (R220, R108). -/
def Obligations.JumpsSetThePc : Prop :=
  ∀ (addr : Word) (s : State),
    exec (.jmpAbs addr) s = .next (s.setPc addr) ∧
    (Quiet 2 s →
      exec (.jmpInd addr) s = .next ((s.addCycles 2).setPc
        (wordOf (s.peek (indirectHigh s.cfg addr)) (s.peek addr))))

/-- JSR pushes the address of its last byte, high byte first, and jumps. -/
def Obligations.JsrPushesAndJumps : Prop :=
  ∀ (addr : Word) (s : State), Quiet 2 s →
    let sp := s.reg .stack
    let pushed := (s.setCell (resolve s.cfg (stackAddress sp)) (highByte (s.pc + 2))).setCell
      (resolve s.cfg (stackAddress (sp - 1))) (lowByte (s.pc + 2))
    exec (.jsr addr) s = .next (((pushed.addCycles 2).setReg .stack (sp - 2)).setPc addr)

/-- RTS pulls a word, low byte first, and goes to it plus one. -/
def Obligations.RtsPullsAndAddsOne : Prop :=
  ∀ s : State, Quiet 2 s →
    let sp := s.reg .stack
    exec .rts s = .next (((s.addCycles 2).setReg .stack (sp + 2)).setPc
      (wordOf (s.peek (stackAddress (sp + 2))) (s.peek (stackAddress (sp + 1))) + 1))

/-- BRK takes the trap: it pushes its own address plus 2, high byte first, then P with bits 4 and 5 set, sets I, and loads
pc from the little-endian word at 0xFFFE; no other bit of P and no other register but SP changes (R224, R268). -/
def Obligations.BrkTakesTheTrap : Prop :=
  ∀ s : State, Quiet 5 s →
    let sp := s.reg .stack
    let pushed := ((s.setCell (resolve s.cfg (stackAddress sp)) (highByte (s.pc + 2))).setCell
      (resolve s.cfg (stackAddress (sp - 1))) (lowByte (s.pc + 2))).setCell
      (resolve s.cfg (stackAddress (sp - 2))) (s.reg .status ||| 0x30)
    exec .brk s = .next ((((pushed.addCycles 5).setReg .stack (sp - 3)).setFlag .i true).setPc
      (wordOf (pushed.peek 0xFFFF) (pushed.peek 0xFFFE)))

/-- RTI pulls P with bits 4 and 5 of the live one kept, then pc, low byte first, without adding one (R223). -/
def Obligations.RtiReturnsFromTheTrap : Prop :=
  ∀ s : State, Quiet 3 s →
    let sp := s.reg .stack
    let p := (s.peek (stackAddress (sp + 1)) &&& 0xCF) ||| (s.reg .status &&& 0x30)
    exec .rti s = .next ((((s.addCycles 3).setReg .status p).setReg .stack (sp + 3)).setPc
      (wordOf (s.peek (stackAddress (sp + 3))) (s.peek (stackAddress (sp + 2)))))

/-- RTS undoes JSR and RTI undoes BRK where no mirror zone makes one cell of the stack cells the frame takes: every
register is back, pc is past the JSR, or at the BRK's address plus 2. -/
def Obligations.ReturnsUndoCalls : Prop :=
  ∀ (s : State) (addr : Word), Quiet 8 s →
    let cell : Byte → Nat := fun k => resolve s.cfg (stackAddress (s.reg .stack - k))
    cell 0 ≠ cell 1 →
    (∃ t u, exec (.jsr addr) s = .next t ∧ t.pc = addr ∧ exec .rts t = .next u ∧ u.regs = s.regs ∧ u.pc = s.pc + 3) ∧
    (cell 0 ≠ cell 2 → cell 1 ≠ cell 2 →
      ∃ t u, exec .brk s = .next t ∧ t.flag .i = true ∧ exec .rti t = .next u ∧ u.regs = s.regs ∧ u.pc = s.pc + 2)

/-- The branches on any machine: encoding, cost, condition, target; no flag, no register, no access of their own; an
offset of 0xFE branches to itself (R225 to R232, R236). -/
def Obligations.BranchesTestOneFlag : Prop :=
  ∀ (off : Byte) (s : State),
    (∀ b ∈ [(Instr.bcc off, 0x90, Flag.c, false), (.bcs off, 0xB0, .c, true), (.beq off, 0xF0, .z, true),
        (.bmi off, 0x30, .n, true), (.bne off, 0xD0, .z, false), (.bpl off, 0x10, .n, false),
        (.bvc off, 0x50, .v, false), (.bvs off, 0x70, .v, true)],
      encode b.1 = [b.2.1, off] ∧ (∃ n, b.1.entry = some ⟨n, .relative, 2⟩ ∧ accesses ⟨n, .relative, 2⟩ = 2) ∧
      exec b.1 s = .next (s.setPc (if s.flag b.2.2.1 = b.2.2.2
        then BitVec.ofInt 16 ((s.pc.toNat : Int) + 2 + off.toInt) else s.pc + 2))) ∧
    (off = 0xFE → BitVec.ofInt 16 ((s.pc.toNat : Int) + 2 + off.toInt) = s.pc)

/-! ## Flag instructions (46_flags_misc.md) -/

/-- CLC, CLD, CLI, CLV, SEC, SED, SEI and NOP on any machine: encoding, cost, the one flag, and nothing else; after the
opcode read they cannot fault (R240 to R247). -/
def Obligations.FlagInstructionsWriteOneFlag : Prop :=
  ∀ s : State,
    (∀ b ∈ [(Instr.clc, (0x18 : Byte), Flag.c, false), (.cld, 0xD8, .d, false), (.cli, 0x58, .i, false),
        (.clv, 0xB8, .v, false), (.sec, 0x38, .c, true), (.sed, 0xF8, .d, true), (.sei, 0x78, .i, true)],
      encode b.1 = [b.2.1] ∧ (∃ n, b.1.entry = some ⟨n, .implied, 1⟩ ∧ accesses ⟨n, .implied, 1⟩ = 1) ∧
      exec b.1 s = .next ((s.setPc (s.pc + 1)).setFlag b.2.2.1 b.2.2.2)) ∧
    encode .nop = [0xEA] ∧ Instr.nop.entry = some ⟨.nop, .implied, 1⟩ ∧ accesses ⟨.nop, .implied, 1⟩ = 1 ∧
    exec .nop s = .next (s.setPc (s.pc + 1))

/-! ## Whole-machine rules -/

/-- Every documented instruction completes when every address has a cell or a device, no indexed sum is refused, and the
counter has room for its accesses, whatever listeners and devices there are; without the room it ends in
CycleCounterOverflow. -/
def Obligations.EveryInstructionCompletes : Prop :=
  ∀ (i : Instr) (e : Entry) (s : State), i.entry = some e → Routable s.cfg → s.cfg.absIndexOverflow = .wrap16 →
    (s.cycles.toNat + execAccesses e < 2 ^ 64 → ∃ t, exec i s = .next t) ∧
    (2 ^ 64 ≤ s.cycles.toNat + execAccesses e → ∃ t, exec i s = .fault (.cycleCounterOverflow t))

/-- A byte that is UNIMPLEMENTED raises UnimplementedOpcode after its one counted read; no register and not pc
changes (R260, R100). -/
def Obligations.UnimplementedByteFaults : Prop :=
  (∀ (op : Byte) (s : State), exec (.unimplemented op) s = .fault (.unimplementedOpcode { s with
    fault := some { kind := .unimplementedOpcode, pcAtFault := s.pc, detail := .opcode op } })) ∧
  ∀ (op : Byte) (s u : State), s.resetDone = true → s.fault = none → memRead s.pc s = .next (op, u) →
    metadata op = none →
    step s = .fault (.unimplementedOpcode { u with
      fault := some { kind := .unimplementedOpcode, pcAtFault := s.pc, detail := .opcode op } }) ∧
    u.regs = s.regs ∧ u.pc = s.pc ∧ u.cycles.toNat = s.cycles.toNat + 1

/-- An instruction writes no flag but those R13 lists for it and no register but those R15 to R18 list for it. -/
def Obligations.OnlyListedFlagsAndRegistersChange : Prop :=
  ∀ (i : Instr) (e : Entry) (s t : State), i.entry = some e → exec i s = .next t →
    (∀ f, e.name ∉ flagWriters f → t.flag f = s.flag f) ∧
    (∀ r, r ≠ .status → writesReg r e = false → t.reg r = s.reg r)

/-- After LDA, LDX, LDY, TAX, TAY, TXA, TYA, TSX, PLA, AND, ORA, EOR, INX, INY, DEX, DEY, ADC and SBC with D = 0, and a
shift or rotate of A, N and Z are of the register written, whatever listeners and devices did (R8's NZ, by the rules of
the families). TXS sets no flag, and with D = 1 ADC and SBC have other rules. -/
def Obligations.NZFollowTheWrittenRegister : Prop :=
  ∀ (i : Instr) (e : Entry) (r : Reg) (s t : State), i.entry = some e → exec i s = .next t →
    (e.name, r) ∈ [(.lda, .accum), (.ldx, .indX), (.ldy, .indY), (.tax, .indX), (.tay, .indY), (.txa, .accum),
      (.tya, .accum), (.tsx, .indX), (.pla, .accum), (.and, .accum), (.ora, .accum), (.eor, .accum), (.inx, .indX),
      (.iny, .indY), (.dex, .indX), (.dey, .indY)] ∨
    (e.name ∈ [.adc, .sbc] ∧ s.flag .d = false ∧ r = .accum) ∨
    (e.name ∈ [.asl, .lsr, .rol, .ror] ∧ e.mode = .accumulator ∧ r = .accum) →
    t.flag .n = (t.reg r).getLsbD 7 ∧ t.flag .z = decide (t.reg r = 0)

/-- No step, completed or faulted, changes bits 4 and 5 of STATUS (R14), the spare slots (R11) or the configuration, or
lowers the count (R21, R60) or next_seq (R23). -/
def Obligations.StepKeepsReservedState : Prop :=
  ∀ s t : State, (step s = .next t ∨ ∃ f, step s = .fault f ∧ f.after = t) →
    t.reg .status &&& 0x30 = s.reg .status &&& 0x30 ∧ t.reg .s5 = s.reg .s5 ∧ t.reg .s6 = s.reg .s6 ∧
    t.reg .s7 = s.reg .s7 ∧ t.cfg = s.cfg ∧ t.resetDone = s.resetDone ∧ s.cycles.toNat ≤ t.cycles.toNat ∧
    s.nextSeq ≤ t.nextSeq

/-- No program can observe bits 4 and 5 of STATUS or the spare slots: two machines that differ only there take the same
step (R14, R11). Where devices, listeners or unwritten bytes are involved the two machines are in one environment: the
free values they meet are the same functions of the state (notes/assumptions/4.md, 6.md, 7.md, 8.md and
12.md), which R131 does not say of a machine with devices or listeners. -/
def Obligations.UnreadBitsAreNotObserved : Prop :=
  ∀ (s : State) (bits s5 s6 s7 : Byte),
    (∀ t, step s = .next t → step (s.withUnread bits s5 s6 s7) = .next (t.withUnread bits s5 s6 s7)) ∧
    (∀ f, step s = .fault f → ∃ g, step (s.withUnread bits s5 s6 s7) = .fault g ∧ g.kind = f.kind ∧
      g.after = f.after.withUnread bits s5 s6 s7) ∧
    (∀ r, step s = .refused r → step (s.withUnread bits s5 s6 s7) = .refused r)

/-- An instruction that is no control transfer leaves pc just past itself; a branch leaves it there or at its target
(R20, R120). -/
def Obligations.PcMovesPastTheInstruction : Prop :=
  ∀ (i : Instr) (e : Entry) (s t : State), i.entry = some e → exec i s = .next t →
    (e.name ∉ controlTransfers → t.pc = s.pc + BitVec.ofNat 16 e.size) ∧
    (e.mode = .relative → t.pc = s.pc + 2 ∨ t.pc = addressOf i .relative s)

/-- A step that completes costs the accesses R310 gives its opcode; one that faults costs fewer. -/
def Obligations.StepCostsItsAccesses : Prop :=
  ∀ (s u : State) (op : Byte) (e : Entry), s.resetDone = true → s.fault = none → memRead s.pc s = .next (op, u) →
    metadata op = some e →
    (∀ t, step s = .next t → t.cycles.toNat = s.cycles.toNat + accesses e) ∧
    (∀ f, step s = .fault f → f.after.cycles.toNat < s.cycles.toNat + accesses e)

/-- With no listener, an instruction that stores nothing leaves every byte of memory (R67). -/
def Obligations.NonStoringInstructionsKeepMemory : Prop :=
  ∀ (i : Instr) (e : Entry) (s t : State), i.entry = some e → s.listeners = [] → storedAddresses e i s = [] →
    exec i s = .next t → ∀ a, t.peek a = s.peek a

/-- With no listener and no device, an instruction changes no byte but those at the addresses it stores to: the effective
address of a store or of a read-modify-write, the stack cells of a push. -/
def Obligations.StoresChangeOnlyTheirAddresses : Prop :=
  ∀ (i : Instr) (e : Entry) (s t : State), i.entry = some e → s.listeners = [] → s.cfg.devices = [] →
    exec i s = .next t →
    ∀ a, (∀ b ∈ storedAddresses e i s, resolve s.cfg a ≠ resolve s.cfg b) → t.peek a = s.peek a

/-! ## Faults (60_exceptions.md) -/

/-- A step that faults writes the record of R264: its kind, pc at the fault (the instruction's own address, or just past
the instruction whose opcode was read), and the detail of the kind (R260, R261, R263). -/
def Obligations.FaultWritesItsRecord : Prop :=
  ∀ (s : State) (f : Fault), step s = .fault f →
    ∃ d, f.after.fault = some { kind := f.kind, pcAtFault := f.after.pc, detail := d } ∧
    (f.kind = .unimplementedOpcode → ∃ op u, memRead s.pc s = .next (op, u) ∧ metadata op = none ∧ d = .opcode op ∧
      f.after.pc = s.pc) ∧
    (f.kind = .outOfRange → ∃ n, d = .address n ∧
      ((∃ a : Word, n = a.toNat ∧ route s.cfg a = .outOfRange) ∨
        (0xFFFF < n ∧ n ≤ 0x100FE ∧ s.cfg.absIndexOverflow = .fault))) ∧
    (f.kind = .cycleCounterOverflow → d = .none ∧ f.after.cycles.toNat = 2 ^ 64 - 1) ∧
    (f.after.pc = s.pc ∨ ∃ op u e, memRead s.pc s = .next (op, u) ∧ metadata op = some e ∧
      f.after.pc = s.pc + BitVec.ofNat 16 e.size)

/-- No operation of the host but reset, and no callback, changes the fault status; so after a fault no step is enabled
until reset, which clears it. CycleCounterOverflow is raised again by the first access after reset; with the default
configuration OutOfRange never arises (R24, R261, R275, R290). -/
def Obligations.FaultsStayUntilReset : Prop :=
  (∀ s : State, (∀ a, (hostRead a s).2.fault = s.fault) ∧ (∀ a, (hostRead16 a s).2.fault = s.fault) ∧
    (∀ a v, (hostWrite a v s).2.fault = s.fault) ∧ (∀ a bs n, (hostWriteArray a bs n s).2.fault = s.fault) ∧
    (∀ target id, (addListener target id s).fault = s.fault) ∧ (∀ r v, (writeRegister r v s).fault = s.fault) ∧
    (∀ w, (writePc w s).fault = s.fault) ∧ ∀ l, (invoke l s).fault = s.fault) ∧
  (∀ s : State, s.fault ≠ none → ∀ t, step s ≠ .next t) ∧
  ∀ (s : State) (f : Fault), step s = .fault f →
    step f.after = .refused .faultSet ∧ (∀ w, (hostReset w f.after).fault = none) ∧
    (f.kind = .cycleCounterOverflow → ∀ w, route s.cfg w ≠ .outOfRange →
      ∃ g, step (hostReset w f.after) = .fault g ∧ g.kind = .cycleCounterOverflow ∧ g.after.pc = w) ∧
    (s.cfg = Config.default → f.kind ≠ .outOfRange)

/-! ## Counted accesses, listeners, the host (20_memory.md, 70_reset_and_hazards.md) -/

/-- MemRead and MemWrite: the route check, then the overflow check, then the transfer, the count and the listener scan
(R61, R62). A device's answer is free. -/
def Obligations.CountedAccessesInOrder : Prop :=
  ∀ (a : Word) (s : State),
    (route s.cfg a = .outOfRange →
      let f := Fault.outOfRange { s with
        fault := some { kind := .outOfRange, pcAtFault := s.pc, detail := .address a.toNat } }
      memRead a s = .fault f ∧ ∀ v, memWrite a v s = .fault f) ∧
    (route s.cfg a ≠ .outOfRange → s.cycles.toNat = 2 ^ 64 - 1 →
      let f := Fault.cycleCounterOverflow { s with
        fault := some { kind := .cycleCounterOverflow, pcAtFault := s.pc, detail := .none } }
      memRead a s = .fault f ∧ ∀ v, memWrite a v s = .fault f) ∧
    (∀ r, route s.cfg a = .backing r → s.cycles.toNat ≠ 2 ^ 64 - 1 →
      memRead a s = .next (s.cell r, fireDue { s with cycles := s.cycles + 1 }) ∧
      ∀ v, memWrite a v s = .next (fireDue { s.setCell r v with cycles := s.cycles + 1 })) ∧
    (∀ d r, route s.cfg a = .device d r → s.cycles.toNat ≠ 2 ^ 64 - 1 →
      (∃ v, memRead a s = .next (v, fireDue { s with
        cycles := s.cycles + 1, deviceLog := .read d r :: s.deviceLog })) ∧
      ∀ v, memWrite a v s = .next (fireDue { s with
        cycles := s.cycles + 1, deviceLog := .write d r v :: s.deviceLog }))

/-- fire_due: the due listeners are invoked in order of target and then of registration, each once; after it the pending
ones are those not due, in their order, and any a callback registered; with none registered it does nothing (R63, R64,
R67). -/
def Obligations.DueListenersFireOnceInOrder : Prop :=
  (∀ ls : List Listener, (sortDue ls).Perm ls ∧ (sortDue ls).Pairwise Listener.before) ∧
  (∀ s : State, fireDue s = invokeAll (sortDue (s.listeners.filter fun l => decide (l.target < s.cycles)))
    { s with listeners := s.listeners.filter fun l => !decide (l.target < s.cycles) }) ∧
  (∀ s : State, ∃ added, (fireDue s).listeners =
      (s.listeners.filter fun l => !decide (l.target < s.cycles)) ++ added ∧
    (∀ l ∈ added, s.nextSeq ≤ l.seq ∧ l.seq < (fireDue s).nextSeq)) ∧
  ∀ s : State, s.listeners = [] → fireDue s = s

/-- Whatever a callback does, and whatever memory operation the host makes, it changes no register, not pc, not the count
and not the fault status, and takes no pending listener away (R66, R65, R68). -/
def Obligations.HostActionsLeaveTheCpu : Prop :=
  ∀ (s t : State), (∃ l, t = invoke l s) ∨ (∃ a, t = (hostRead a s).2) ∨ (∃ a, t = (hostRead16 a s).2) ∨
      (∃ a v, t = (hostWrite a v s).2) ∨ (∃ a bs n, t = (hostWriteArray a bs n s).2) →
    t.regs = s.regs ∧ t.pc = s.pc ∧ t.cycles = s.cycles ∧ t.fault = s.fault ∧ t.resetDone = s.resetDone ∧
    t.cfg = s.cfg ∧ s.listeners <+: t.listeners

/-- The host's read, write and read16 by the route of the address; read16 reads both bytes, puts the byte at the address
high, and fails if either read fails (R46, R48, R49). That a read16 which fails leaves the state after both reads, and not
the state before, is the model's choice (notes/assumptions/19.md). -/
def Obligations.HostReadsAndWrites : Prop :=
  ∀ (a : Word) (s : State),
    (∀ r, route s.cfg a = .backing r →
      hostRead a s = (.success (s.cell r), s) ∧ ∀ v, hostWrite a v s = (.success (), s.setCell r v)) ∧
    (∀ d r, route s.cfg a = .device d r →
      (∃ v, hostRead a s = (.success v, { s with deviceLog := .read d r :: s.deviceLog })) ∧
      ∀ v, hostWrite a v s = (.success (), { s with deviceLog := .write d r v :: s.deviceLog })) ∧
    (route s.cfg a = .outOfRange →
      hostRead a s = (.failure .outOfRange, s) ∧ ∀ v, hostWrite a v s = (.failure .outOfRange, s)) ∧
    (∀ h l u t, hostRead a s = (.success h, u) → hostRead (a + 1) u = (.success l, t) →
      hostRead16 a s = (.success (BitVec.ofNat 16 (256 * h.toNat + l.toNat)), t)) ∧
    ((route s.cfg a = .outOfRange ∨ route s.cfg (a + 1) = .outOfRange) →
      hostRead16 a s = (.failure .outOfRange, (hostRead (a + 1) (hostRead a s).2).2))

/-- writeArray: past CAPACITY it fails and writes nothing; otherwise it succeeds: `length` bytes are loaded, those of the
list where it has them, each goes where its own address routes, of two bytes for one cell the later stays, devices get
their bytes in order, and under a well-formed configuration no byte is lost to OUT_OF_RANGE (R47). That a length above the
list's succeeds too, and loads some byte past the list's end, is the model's choice (notes/assumptions/12.md). -/
def Obligations.WriteArrayIsAllOrNothing : Prop :=
  ∀ (start : Word) (bytes : List Byte) (length : Nat) (s : State),
    let t := (hostWriteArray start bytes length s).2
    let at' := fun k : Nat => route s.cfg (start + BitVec.ofNat 16 k)
    (start.toNat + length > s.cfg.capacity →
      hostWriteArray start bytes length s = (.failure .overlapOrOverrun, s)) ∧
    (start.toNat + length ≤ s.cfg.capacity →
      (hostWriteArray start bytes length s).1 = .success () ∧
      (∃ loaded : List Byte, loaded.length = length ∧
        (∀ k v, k < length → bytes[k]? = some v → loaded[k]? = some v) ∧
        (∀ k v r, loaded[k]? = some v → at' k = .backing r →
          (∀ j, k < j → j < length → at' j ≠ .backing r) → t.cell r = v) ∧
        t.deviceLog = (deviceWrites s.cfg loaded start).reverse ++ s.deviceLog) ∧
      (∀ r, (∀ j, j < length → at' j ≠ .backing r) → t.cell r = s.cell r) ∧
      t.listeners = s.listeners ∧ t.cycles = s.cycles ∧
      (s.cfg.wellFormed = true → ∀ k, k < length → at' k ≠ .outOfRange))

/-- Mirrors are views: under a well-formed configuration an address of a zone and the same offset of any of its mirrors
route to the same place, so a byte written through one is read through the other (R42, R50). -/
def Obligations.MirrorsAreViews : Prop :=
  ∀ (c : Config) (z : Zone) (m k : Nat), c.wellFormed = true → z ∈ c.zones → m ∈ z.mirrors → k < z.length →
    resolve c (BitVec.ofNat 16 (m + k)) = z.start + k ∧ resolve c (BitVec.ofNat 16 (z.start + k)) = z.start + k ∧
    ∀ (s : State) (v : Byte), s.cfg = c → (∀ d r, route c (BitVec.ofNat 16 (z.start + k)) ≠ .device d r) →
      (hostRead (BitVec.ofNat 16 (m + k)) (hostWrite (BitVec.ofNat 16 (z.start + k)) v s).2).1 = .success v ∧
      (hostRead (BitVec.ofNat 16 (z.start + k)) (hostWrite (BitVec.ofNat 16 (m + k)) v s).2).1 = .success v

/-- reset: every register slot to 0, pc to the start address, memory per RESET_MEMORY, the fault cleared; the count, the
listeners, next_seq and the devices stay; a second reset with the same start changes nothing more of these (R291, R292,
R294). That unspecified memory is memory with nothing listed is the model's form of it (notes/assumptions/4.md). -/
def Obligations.ResetZeroesRegistersAndKeepsTime : Prop :=
  ∀ (start : Word) (s : State),
    let t := hostReset start s
    let u := hostReset start t
    (∀ r, t.reg r = 0) ∧ t.pc = start ∧ t.fault = none ∧ t.resetDone = true ∧ t.cycles = s.cycles ∧
    t.listeners = s.listeners ∧ t.nextSeq = s.nextSeq ∧ t.deviceLog = s.deviceLog ∧ t.cfg = s.cfg ∧
    (s.cfg.resetMemory = .preserved → ∀ r, t.cell r = s.cell r) ∧
    (s.cfg.resetMemory = .unspecified → ∀ r, t.mem.read r = none) ∧
    u.regs = t.regs ∧ u.pc = t.pc ∧ u.cycles = t.cycles ∧ u.listeners = t.listeners ∧ u.fault = t.fault

/-- construct refuses exactly the ill-formed configurations; a constructed machine has no count, no listener and no fault,
and refuses a step and the reading of a register until its first reset (R43, R290, R296, R26). Ill-formed is the model's
Config.wellFormed: R43 and R44, the model's deduction that no device range passes 65536 (notes/assumptions/11.md), and its choice
that one may have length zero (notes/assumptions/20.md). -/
def Obligations.ConstructionWaitsForReset : Prop :=
  ∀ c : Config,
    (c.wellFormed = false → construct c = .refused .illFormedConfig) ∧
    (c.wellFormed = true → ∃ s, construct c = .success s ∧ s.cfg = c ∧ s.cycles = 0 ∧ s.listeners = [] ∧
      s.nextSeq = 0 ∧ s.fault = none ∧ step s = .refused .notReset ∧ (∀ r, readReg r s = .refused .notReset) ∧
      ∀ w, step (hostReset w s) ≠ .refused .notReset ∧ ∀ r, readReg r (hostReset w s) = .success 0)

/-- add_listener appends `(target, next_seq, id)` and raises next_seq; write_register and write_pc set one thing;
read_state shows the registers, pc, the count, the listeners and the fault status, and is refused before the first reset
(R22, R23, R290, R296; that write_register reaches the spare slots: notes/assumptions/13.md). -/
def Obligations.HostPortsListenersAndReadState : Prop :=
  ∀ s : State,
    (∀ target id, addListener target id s = { s with
      listeners := s.listeners ++ [{ target := target, seq := s.nextSeq, id := id }], nextSeq := s.nextSeq + 1 }) ∧
    (∀ r v, (writeRegister r v s).reg r = v ∧ (∀ q, q ≠ r → (writeRegister r v s).reg q = s.reg q) ∧
      writeRegister r v s = { s with regs := (writeRegister r v s).regs }) ∧
    (∀ w, writePc w s = { s with pc := w }) ∧
    (s.resetDone = true → readState s = .success
      { regs := s.regs, pc := s.pc, cycles := s.cycles, listeners := s.listeners, fault := s.fault }) ∧
    (s.resetDone = false → readState s = .refused .notReset)

/-! ## The invariant -/

/-- The invariant holds of the machine right after reset (whose start address is the model's choice,
notes/assumptions/3.md), which is reset of a constructed default machine. -/
def Obligations.ResetStateIsSafeAndDerived : Prop :=
  State.reset.Inv ∧ construct Config.default = .success (constructed Config.default) ∧
  hostReset 0x0000 (constructed Config.default) = State.reset

/-- Every step keeps the invariant, a step that faults too. -/
def Obligations.InvariantKeptByEveryStep : Prop :=
  ∀ s : State, s.Inv →
    (∀ t, step s = .next t → t.Inv) ∧ (∀ f, step s = .fault f → f.after.Inv)

/-- The host's operations keep the invariant, construction makes it hold, and reset makes it hold again; a host that
writes STATUS or a spare slot may break its clauses about these, and only those (R14, R11). Of a constructed machine the
clauses about STATUS and the spare slots rest on the model's choice: R26 and R296 give the registers no value before the
first reset, and the model has zeros there (notes/assumptions/10.md). -/
def Obligations.InvariantKeptByTheHost : Prop :=
  (∀ c, c.wellFormed = true → (constructed c).Inv) ∧
  ∀ s : State, s.Inv →
    (∀ a v, (hostWrite a v s).2.Inv) ∧ (∀ a, (hostRead a s).2.Inv) ∧ (∀ a, (hostRead16 a s).2.Inv) ∧
    (∀ a bs n, (hostWriteArray a bs n s).2.Inv) ∧ (∀ target id, (addListener target id s).Inv) ∧
    (∀ w, (writePc w s).Inv) ∧ (∀ w, (hostReset w s).Inv) ∧
    (∀ r v, r ∈ [.accum, .indX, .indY, .stack] → (writeRegister r v s).Inv) ∧
    (∀ r v q, q ≠ r → (writeRegister r v s).reg q = s.reg q) ∧
    (∀ v, v &&& 0x30 = 0 → (writeRegister .status v s).Inv) ∧
    (∀ r v, let t := writeRegister r v s
      t.cfg.wellFormed = true ∧ t.mem.wf = true ∧ (∀ x ∈ t.mem, x.1 < t.cfg.capacity) ∧
      (t.listeners.map Listener.seq).Pairwise (· < ·) ∧ (∀ l ∈ t.listeners, l.seq < t.nextSeq) ∧
      (r ≠ .status → t.reg .status &&& 0x30 = 0) ∧
      (r ∉ [.s5, .s6, .s7] → t.reg .s5 = 0 ∧ t.reg .s6 = 0 ∧ t.reg .s7 = 0)) ∧
    (∀ r v w, (hostReset w (writeRegister r v s)).Inv)

end
end

