-- ==== Sys2Proof/Laws/State.lean ====
section
/-!
SUPPORT. One lemma per field per update of the state, so that no later proof unfolds a record update; what a register and
a flag read as after each update.
-/

namespace Sys2Proof.Machine

variable (s : State)

/-! ### The register file -/

@[simp] theorem RegFile.get_set (f : RegFile) (r q : Reg) (v : Byte) :
    (f.set r v).get q = if q = r then v else f.get q := by
  cases r <;> cases q <;> rfl

theorem RegFile.ext_get {f g : RegFile} (h : ∀ r, f.get r = g.get r) : f = g := by
  cases f; cases g
  simp only [RegFile.mk.injEq]
  exact ⟨h .status, h .stack, h .accum, h .indX, h .indY, h .s5, h .s6, h .s7⟩

theorem State.reg_eq_get (r : Reg) : s.reg r = s.regs.get r := rfl

/-! ### setReg -/

@[simp] theorem State.setReg_cfg (r : Reg) (v : Byte) : (s.setReg r v).cfg = s.cfg := rfl
@[simp] theorem State.setReg_regs (r : Reg) (v : Byte) : (s.setReg r v).regs = s.regs.set r v := rfl
@[simp] theorem State.setReg_pc (r : Reg) (v : Byte) : (s.setReg r v).pc = s.pc := rfl
@[simp] theorem State.setReg_resetDone (r : Reg) (v : Byte) : (s.setReg r v).resetDone = s.resetDone := rfl
@[simp] theorem State.setReg_cycles (r : Reg) (v : Byte) : (s.setReg r v).cycles = s.cycles := rfl
@[simp] theorem State.setReg_listeners (r : Reg) (v : Byte) : (s.setReg r v).listeners = s.listeners := rfl
@[simp] theorem State.setReg_nextSeq (r : Reg) (v : Byte) : (s.setReg r v).nextSeq = s.nextSeq := rfl
@[simp] theorem State.setReg_fault (r : Reg) (v : Byte) : (s.setReg r v).fault = s.fault := rfl
@[simp] theorem State.setReg_mem (r : Reg) (v : Byte) : (s.setReg r v).mem = s.mem := rfl
@[simp] theorem State.setReg_memEpoch (r : Reg) (v : Byte) : (s.setReg r v).memEpoch = s.memEpoch := rfl
@[simp] theorem State.setReg_deviceLog (r : Reg) (v : Byte) : (s.setReg r v).deviceLog = s.deviceLog := rfl
@[simp] theorem State.setReg_draws (r : Reg) (v : Byte) : (s.setReg r v).draws = s.draws := rfl

/-! ### setPc -/

@[simp] theorem State.setPc_cfg (w : Word) : (s.setPc w).cfg = s.cfg := rfl
@[simp] theorem State.setPc_regs (w : Word) : (s.setPc w).regs = s.regs := rfl
@[simp] theorem State.setPc_pc (w : Word) : (s.setPc w).pc = w := rfl
@[simp] theorem State.setPc_resetDone (w : Word) : (s.setPc w).resetDone = s.resetDone := rfl
@[simp] theorem State.setPc_cycles (w : Word) : (s.setPc w).cycles = s.cycles := rfl
@[simp] theorem State.setPc_listeners (w : Word) : (s.setPc w).listeners = s.listeners := rfl
@[simp] theorem State.setPc_nextSeq (w : Word) : (s.setPc w).nextSeq = s.nextSeq := rfl
@[simp] theorem State.setPc_fault (w : Word) : (s.setPc w).fault = s.fault := rfl
@[simp] theorem State.setPc_mem (w : Word) : (s.setPc w).mem = s.mem := rfl
@[simp] theorem State.setPc_memEpoch (w : Word) : (s.setPc w).memEpoch = s.memEpoch := rfl
@[simp] theorem State.setPc_deviceLog (w : Word) : (s.setPc w).deviceLog = s.deviceLog := rfl
@[simp] theorem State.setPc_draws (w : Word) : (s.setPc w).draws = s.draws := rfl

/-! ### setCell -/

@[simp] theorem State.setCell_cfg (r : Nat) (v : Byte) : (s.setCell r v).cfg = s.cfg := rfl
@[simp] theorem State.setCell_regs (r : Nat) (v : Byte) : (s.setCell r v).regs = s.regs := rfl
@[simp] theorem State.setCell_pc (r : Nat) (v : Byte) : (s.setCell r v).pc = s.pc := rfl
@[simp] theorem State.setCell_resetDone (r : Nat) (v : Byte) : (s.setCell r v).resetDone = s.resetDone := rfl
@[simp] theorem State.setCell_cycles (r : Nat) (v : Byte) : (s.setCell r v).cycles = s.cycles := rfl
@[simp] theorem State.setCell_listeners (r : Nat) (v : Byte) : (s.setCell r v).listeners = s.listeners := rfl
@[simp] theorem State.setCell_nextSeq (r : Nat) (v : Byte) : (s.setCell r v).nextSeq = s.nextSeq := rfl
@[simp] theorem State.setCell_fault (r : Nat) (v : Byte) : (s.setCell r v).fault = s.fault := rfl
@[simp] theorem State.setCell_mem (r : Nat) (v : Byte) : (s.setCell r v).mem = s.mem.write r v := rfl
@[simp] theorem State.setCell_memEpoch (r : Nat) (v : Byte) : (s.setCell r v).memEpoch = s.memEpoch := rfl
@[simp] theorem State.setCell_deviceLog (r : Nat) (v : Byte) : (s.setCell r v).deviceLog = s.deviceLog := rfl
@[simp] theorem State.setCell_draws (r : Nat) (v : Byte) : (s.setCell r v).draws = s.draws := rfl

/-! ### addCycles -/

@[simp] theorem State.addCycles_cfg (n : Nat) : (s.addCycles n).cfg = s.cfg := rfl
@[simp] theorem State.addCycles_regs (n : Nat) : (s.addCycles n).regs = s.regs := rfl
@[simp] theorem State.addCycles_pc (n : Nat) : (s.addCycles n).pc = s.pc := rfl
@[simp] theorem State.addCycles_resetDone (n : Nat) : (s.addCycles n).resetDone = s.resetDone := rfl
@[simp] theorem State.addCycles_cycles (n : Nat) : (s.addCycles n).cycles = s.cycles + BitVec.ofNat 64 n := rfl
@[simp] theorem State.addCycles_listeners (n : Nat) : (s.addCycles n).listeners = s.listeners := rfl
@[simp] theorem State.addCycles_nextSeq (n : Nat) : (s.addCycles n).nextSeq = s.nextSeq := rfl
@[simp] theorem State.addCycles_fault (n : Nat) : (s.addCycles n).fault = s.fault := rfl
@[simp] theorem State.addCycles_mem (n : Nat) : (s.addCycles n).mem = s.mem := rfl
@[simp] theorem State.addCycles_memEpoch (n : Nat) : (s.addCycles n).memEpoch = s.memEpoch := rfl
@[simp] theorem State.addCycles_deviceLog (n : Nat) : (s.addCycles n).deviceLog = s.deviceLog := rfl
@[simp] theorem State.addCycles_draws (n : Nat) : (s.addCycles n).draws = s.draws := rfl

/-! ### advance -/

@[simp] theorem State.advance_cfg (n : Nat) : (s.advance n).cfg = s.cfg := rfl
@[simp] theorem State.advance_regs (n : Nat) : (s.advance n).regs = s.regs := rfl
@[simp] theorem State.advance_pc (n : Nat) : (s.advance n).pc = s.pc + BitVec.ofNat 16 n := rfl
@[simp] theorem State.advance_resetDone (n : Nat) : (s.advance n).resetDone = s.resetDone := rfl
@[simp] theorem State.advance_cycles (n : Nat) : (s.advance n).cycles = s.cycles := rfl
@[simp] theorem State.advance_listeners (n : Nat) : (s.advance n).listeners = s.listeners := rfl
@[simp] theorem State.advance_nextSeq (n : Nat) : (s.advance n).nextSeq = s.nextSeq := rfl
@[simp] theorem State.advance_fault (n : Nat) : (s.advance n).fault = s.fault := rfl
@[simp] theorem State.advance_mem (n : Nat) : (s.advance n).mem = s.mem := rfl
@[simp] theorem State.advance_memEpoch (n : Nat) : (s.advance n).memEpoch = s.memEpoch := rfl
@[simp] theorem State.advance_deviceLog (n : Nat) : (s.advance n).deviceLog = s.deviceLog := rfl
@[simp] theorem State.advance_draws (n : Nat) : (s.advance n).draws = s.draws := rfl

/-! ### logDevice -/

@[simp] theorem State.logDevice_cfg (e : DeviceEvent) : (s.logDevice e).cfg = s.cfg := rfl
@[simp] theorem State.logDevice_regs (e : DeviceEvent) : (s.logDevice e).regs = s.regs := rfl
@[simp] theorem State.logDevice_pc (e : DeviceEvent) : (s.logDevice e).pc = s.pc := rfl
@[simp] theorem State.logDevice_resetDone (e : DeviceEvent) : (s.logDevice e).resetDone = s.resetDone := rfl
@[simp] theorem State.logDevice_cycles (e : DeviceEvent) : (s.logDevice e).cycles = s.cycles := rfl
@[simp] theorem State.logDevice_listeners (e : DeviceEvent) : (s.logDevice e).listeners = s.listeners := rfl
@[simp] theorem State.logDevice_nextSeq (e : DeviceEvent) : (s.logDevice e).nextSeq = s.nextSeq := rfl
@[simp] theorem State.logDevice_fault (e : DeviceEvent) : (s.logDevice e).fault = s.fault := rfl
@[simp] theorem State.logDevice_mem (e : DeviceEvent) : (s.logDevice e).mem = s.mem := rfl
@[simp] theorem State.logDevice_memEpoch (e : DeviceEvent) : (s.logDevice e).memEpoch = s.memEpoch := rfl
@[simp] theorem State.logDevice_deviceLog (e : DeviceEvent) : (s.logDevice e).deviceLog = e :: s.deviceLog := rfl
@[simp] theorem State.logDevice_draws (e : DeviceEvent) : (s.logDevice e).draws = s.draws := rfl

/-! ### withFault -/

@[simp] theorem State.withFault_cfg (k : FaultKind) (d : FaultDetail) : (s.withFault k d).cfg = s.cfg := rfl
@[simp] theorem State.withFault_regs (k : FaultKind) (d : FaultDetail) : (s.withFault k d).regs = s.regs := rfl
@[simp] theorem State.withFault_pc (k : FaultKind) (d : FaultDetail) : (s.withFault k d).pc = s.pc := rfl
@[simp] theorem State.withFault_resetDone (k : FaultKind) (d : FaultDetail) : (s.withFault k d).resetDone = s.resetDone := rfl
@[simp] theorem State.withFault_cycles (k : FaultKind) (d : FaultDetail) : (s.withFault k d).cycles = s.cycles := rfl
@[simp] theorem State.withFault_listeners (k : FaultKind) (d : FaultDetail) : (s.withFault k d).listeners = s.listeners := rfl
@[simp] theorem State.withFault_nextSeq (k : FaultKind) (d : FaultDetail) : (s.withFault k d).nextSeq = s.nextSeq := rfl
@[simp] theorem State.withFault_fault (k : FaultKind) (d : FaultDetail) : (s.withFault k d).fault = some { kind := k, pcAtFault := s.pc, detail := d } := rfl
@[simp] theorem State.withFault_mem (k : FaultKind) (d : FaultDetail) : (s.withFault k d).mem = s.mem := rfl
@[simp] theorem State.withFault_memEpoch (k : FaultKind) (d : FaultDetail) : (s.withFault k d).memEpoch = s.memEpoch := rfl
@[simp] theorem State.withFault_deviceLog (k : FaultKind) (d : FaultDetail) : (s.withFault k d).deviceLog = s.deviceLog := rfl
@[simp] theorem State.withFault_draws (k : FaultKind) (d : FaultDetail) : (s.withFault k d).draws = s.draws := rfl

/-! ### setFlag -/

@[simp] theorem State.setFlag_cfg (f : Flag) (b : Bool) : (s.setFlag f b).cfg = s.cfg := rfl
@[simp] theorem State.setFlag_pc (f : Flag) (b : Bool) : (s.setFlag f b).pc = s.pc := rfl
@[simp] theorem State.setFlag_resetDone (f : Flag) (b : Bool) : (s.setFlag f b).resetDone = s.resetDone := rfl
@[simp] theorem State.setFlag_cycles (f : Flag) (b : Bool) : (s.setFlag f b).cycles = s.cycles := rfl
@[simp] theorem State.setFlag_listeners (f : Flag) (b : Bool) : (s.setFlag f b).listeners = s.listeners := rfl
@[simp] theorem State.setFlag_nextSeq (f : Flag) (b : Bool) : (s.setFlag f b).nextSeq = s.nextSeq := rfl
@[simp] theorem State.setFlag_fault (f : Flag) (b : Bool) : (s.setFlag f b).fault = s.fault := rfl
@[simp] theorem State.setFlag_mem (f : Flag) (b : Bool) : (s.setFlag f b).mem = s.mem := rfl
@[simp] theorem State.setFlag_memEpoch (f : Flag) (b : Bool) : (s.setFlag f b).memEpoch = s.memEpoch := rfl
@[simp] theorem State.setFlag_deviceLog (f : Flag) (b : Bool) : (s.setFlag f b).deviceLog = s.deviceLog := rfl
@[simp] theorem State.setFlag_draws (f : Flag) (b : Bool) : (s.setFlag f b).draws = s.draws := rfl

/-! ### setNZ -/

@[simp] theorem State.setNZ_cfg (v : Byte) : (s.setNZ v).cfg = s.cfg := rfl
@[simp] theorem State.setNZ_pc (v : Byte) : (s.setNZ v).pc = s.pc := rfl
@[simp] theorem State.setNZ_resetDone (v : Byte) : (s.setNZ v).resetDone = s.resetDone := rfl
@[simp] theorem State.setNZ_cycles (v : Byte) : (s.setNZ v).cycles = s.cycles := rfl
@[simp] theorem State.setNZ_listeners (v : Byte) : (s.setNZ v).listeners = s.listeners := rfl
@[simp] theorem State.setNZ_nextSeq (v : Byte) : (s.setNZ v).nextSeq = s.nextSeq := rfl
@[simp] theorem State.setNZ_fault (v : Byte) : (s.setNZ v).fault = s.fault := rfl
@[simp] theorem State.setNZ_mem (v : Byte) : (s.setNZ v).mem = s.mem := rfl
@[simp] theorem State.setNZ_memEpoch (v : Byte) : (s.setNZ v).memEpoch = s.memEpoch := rfl
@[simp] theorem State.setNZ_deviceLog (v : Byte) : (s.setNZ v).deviceLog = s.deviceLog := rfl
@[simp] theorem State.setNZ_draws (v : Byte) : (s.setNZ v).draws = s.draws := rfl

/-! ### writeAlu -/

@[simp] theorem State.writeAlu_cfg (a : AluOut) : (s.writeAlu a).cfg = s.cfg := rfl
@[simp] theorem State.writeAlu_pc (a : AluOut) : (s.writeAlu a).pc = s.pc := rfl
@[simp] theorem State.writeAlu_resetDone (a : AluOut) : (s.writeAlu a).resetDone = s.resetDone := rfl
@[simp] theorem State.writeAlu_cycles (a : AluOut) : (s.writeAlu a).cycles = s.cycles := rfl
@[simp] theorem State.writeAlu_listeners (a : AluOut) : (s.writeAlu a).listeners = s.listeners := rfl
@[simp] theorem State.writeAlu_nextSeq (a : AluOut) : (s.writeAlu a).nextSeq = s.nextSeq := rfl
@[simp] theorem State.writeAlu_fault (a : AluOut) : (s.writeAlu a).fault = s.fault := rfl
@[simp] theorem State.writeAlu_mem (a : AluOut) : (s.writeAlu a).mem = s.mem := rfl
@[simp] theorem State.writeAlu_memEpoch (a : AluOut) : (s.writeAlu a).memEpoch = s.memEpoch := rfl
@[simp] theorem State.writeAlu_deviceLog (a : AluOut) : (s.writeAlu a).deviceLog = s.deviceLog := rfl
@[simp] theorem State.writeAlu_draws (a : AluOut) : (s.writeAlu a).draws = s.draws := rfl

/-! ### setCompare -/

@[simp] theorem State.setCompare_cfg (r m : Byte) : (s.setCompare r m).cfg = s.cfg := rfl
@[simp] theorem State.setCompare_pc (r m : Byte) : (s.setCompare r m).pc = s.pc := rfl
@[simp] theorem State.setCompare_resetDone (r m : Byte) : (s.setCompare r m).resetDone = s.resetDone := rfl
@[simp] theorem State.setCompare_cycles (r m : Byte) : (s.setCompare r m).cycles = s.cycles := rfl
@[simp] theorem State.setCompare_listeners (r m : Byte) : (s.setCompare r m).listeners = s.listeners := rfl
@[simp] theorem State.setCompare_nextSeq (r m : Byte) : (s.setCompare r m).nextSeq = s.nextSeq := rfl
@[simp] theorem State.setCompare_fault (r m : Byte) : (s.setCompare r m).fault = s.fault := rfl
@[simp] theorem State.setCompare_mem (r m : Byte) : (s.setCompare r m).mem = s.mem := rfl
@[simp] theorem State.setCompare_memEpoch (r m : Byte) : (s.setCompare r m).memEpoch = s.memEpoch := rfl
@[simp] theorem State.setCompare_deviceLog (r m : Byte) : (s.setCompare r m).deviceLog = s.deviceLog := rfl
@[simp] theorem State.setCompare_draws (r m : Byte) : (s.setCompare r m).draws = s.draws := rfl

/-! ### setBitTest -/

@[simp] theorem State.setBitTest_cfg (m : Byte) : (s.setBitTest m).cfg = s.cfg := rfl
@[simp] theorem State.setBitTest_pc (m : Byte) : (s.setBitTest m).pc = s.pc := rfl
@[simp] theorem State.setBitTest_resetDone (m : Byte) : (s.setBitTest m).resetDone = s.resetDone := rfl
@[simp] theorem State.setBitTest_cycles (m : Byte) : (s.setBitTest m).cycles = s.cycles := rfl
@[simp] theorem State.setBitTest_listeners (m : Byte) : (s.setBitTest m).listeners = s.listeners := rfl
@[simp] theorem State.setBitTest_nextSeq (m : Byte) : (s.setBitTest m).nextSeq = s.nextSeq := rfl
@[simp] theorem State.setBitTest_fault (m : Byte) : (s.setBitTest m).fault = s.fault := rfl
@[simp] theorem State.setBitTest_mem (m : Byte) : (s.setBitTest m).mem = s.mem := rfl
@[simp] theorem State.setBitTest_memEpoch (m : Byte) : (s.setBitTest m).memEpoch = s.memEpoch := rfl
@[simp] theorem State.setBitTest_deviceLog (m : Byte) : (s.setBitTest m).deviceLog = s.deviceLog := rfl
@[simp] theorem State.setBitTest_draws (m : Byte) : (s.setBitTest m).draws = s.draws := rfl

/-! ### countDraw -/

@[simp] theorem State.countDraw_cfg (b : Bool) : (s.countDraw b).cfg = s.cfg := by cases b <;> rfl
@[simp] theorem State.countDraw_regs (b : Bool) : (s.countDraw b).regs = s.regs := by cases b <;> rfl
@[simp] theorem State.countDraw_pc (b : Bool) : (s.countDraw b).pc = s.pc := by cases b <;> rfl
@[simp] theorem State.countDraw_resetDone (b : Bool) : (s.countDraw b).resetDone = s.resetDone := by cases b <;> rfl
@[simp] theorem State.countDraw_cycles (b : Bool) : (s.countDraw b).cycles = s.cycles := by cases b <;> rfl
@[simp] theorem State.countDraw_listeners (b : Bool) : (s.countDraw b).listeners = s.listeners := by cases b <;> rfl
@[simp] theorem State.countDraw_nextSeq (b : Bool) : (s.countDraw b).nextSeq = s.nextSeq := by cases b <;> rfl
@[simp] theorem State.countDraw_fault (b : Bool) : (s.countDraw b).fault = s.fault := by cases b <;> rfl
@[simp] theorem State.countDraw_mem (b : Bool) : (s.countDraw b).mem = s.mem := by cases b <;> rfl
@[simp] theorem State.countDraw_memEpoch (b : Bool) : (s.countDraw b).memEpoch = s.memEpoch := by cases b <;> rfl
@[simp] theorem State.countDraw_deviceLog (b : Bool) : (s.countDraw b).deviceLog = s.deviceLog := by cases b <;> rfl
@[simp] theorem State.countDraw_draws (b : Bool) : (s.countDraw b).draws = if b then s.draws + 1 else s.draws := by cases b <;> rfl

/-! ### Registers after an update -/

@[simp] theorem State.setReg_reg (r q : Reg) (v : Byte) : (s.setReg r v).reg q = if q = r then v else s.reg q :=
  RegFile.get_set _ _ _ _

@[simp] theorem State.setPc_reg (w : Word) (q : Reg) : (s.setPc w).reg q = s.reg q := by simp [State.reg]
@[simp] theorem State.setCell_reg (r : Nat) (v : Byte) (q : Reg) : (s.setCell r v).reg q = s.reg q := by simp [State.reg]
@[simp] theorem State.addCycles_reg (n : Nat) (q : Reg) : (s.addCycles n).reg q = s.reg q := by simp [State.reg]
@[simp] theorem State.advance_reg (n : Nat) (q : Reg) : (s.advance n).reg q = s.reg q := by simp [State.reg]
@[simp] theorem State.logDevice_reg (e : DeviceEvent) (q : Reg) : (s.logDevice e).reg q = s.reg q := by simp [State.reg]
@[simp] theorem State.withFault_reg (k : FaultKind) (d : FaultDetail) (q : Reg) : (s.withFault k d).reg q = s.reg q := by simp [State.reg]
@[simp] theorem State.countDraw_reg (b : Bool) (q : Reg) : (s.countDraw b).reg q = s.reg q := by simp [State.reg]

@[simp] theorem State.setFlag_reg (f : Flag) (b : Bool) (q : Reg) :
    (s.setFlag f b).reg q = if q = .status then withFlag (s.reg .status) f b else s.reg q := by
  simp [State.setFlag]

theorem State.setFlag_reg_of_ne (f : Flag) (b : Bool) {q : Reg} (h : q ≠ .status) :
    (s.setFlag f b).reg q = s.reg q := by
  simp [h]

@[simp] theorem State.setNZ_reg_of_ne (v : Byte) {q : Reg} (h : q ≠ .status) : (s.setNZ v).reg q = s.reg q := by
  simp [State.setNZ, h]

@[simp] theorem State.writeAlu_reg_of_ne (a : AluOut) {q : Reg} (h : q ≠ .status) :
    (s.writeAlu a).reg q = if q = .accum then a.value else s.reg q := by
  simp [State.writeAlu, h]

@[simp] theorem State.setCompare_reg_of_ne (r m : Byte) {q : Reg} (h : q ≠ .status) :
    (s.setCompare r m).reg q = s.reg q := by
  simp [State.setCompare, h]

@[simp] theorem State.setBitTest_reg_of_ne (m : Byte) {q : Reg} (h : q ≠ .status) :
    (s.setBitTest m).reg q = s.reg q := by
  simp [State.setBitTest, h]

/-! ### Flags -/

/-- Writing one flag of a status byte changes that bit alone (R8). -/
@[simp] theorem flagOf_withFlag (p : Byte) (f g : Flag) (b : Bool) :
    flagOf (withFlag p f b) g = if g = f then b else flagOf p g := by
  cases b <;> cases f <;> cases g <;> simp [flagOf, withFlag, Flag.mask, Flag.index]

/-- A status byte is its eight flags (R12). -/
theorem status_ext {p q : Byte} (h : ∀ f, flagOf p f = flagOf q f) : p = q := by
  apply BitVec.eq_of_getLsbD_eq
  intro i hi
  have h0 := h .c; have h1 := h .z; have h2 := h .i; have h3 := h .d
  have h4 := h .b; have h5 := h .unused; have h6 := h .v; have h7 := h .n
  simp only [flagOf, Flag.index] at h0 h1 h2 h3 h4 h5 h6 h7
  rcases i with _ | _ | _ | _ | _ | _ | _ | _ | i <;> first | assumption | omega

theorem State.flag_eq_flagOf (f : Flag) : s.flag f = flagOf (s.reg .status) f := rfl

@[simp] theorem State.setReg_flag (r : Reg) (v : Byte) (f : Flag) :
    (s.setReg r v).flag f = if r = .status then flagOf v f else s.flag f := by
  cases r <;> simp [State.flag]

@[simp] theorem State.setFlag_flag (f g : Flag) (b : Bool) :
    (s.setFlag f b).flag g = if g = f then b else s.flag g := by
  simp [State.flag]

@[simp] theorem State.setNZ_flag (v : Byte) (g : Flag) :
    (s.setNZ v).flag g = if g = .z then decide (v = 0) else if g = .n then v.getLsbD 7 else s.flag g := by
  simp [State.setNZ]

@[simp] theorem State.setPc_flag (w : Word) (f : Flag) : (s.setPc w).flag f = s.flag f := by simp [State.flag]
@[simp] theorem State.setCell_flag (r : Nat) (v : Byte) (f : Flag) : (s.setCell r v).flag f = s.flag f := by simp [State.flag]
@[simp] theorem State.addCycles_flag (n : Nat) (f : Flag) : (s.addCycles n).flag f = s.flag f := by simp [State.flag]
@[simp] theorem State.advance_flag (n : Nat) (f : Flag) : (s.advance n).flag f = s.flag f := by simp [State.flag]
@[simp] theorem State.logDevice_flag (e : DeviceEvent) (f : Flag) : (s.logDevice e).flag f = s.flag f := by simp [State.flag]
@[simp] theorem State.withFault_flag (k : FaultKind) (d : FaultDetail) (f : Flag) : (s.withFault k d).flag f = s.flag f := by simp [State.flag]
@[simp] theorem State.countDraw_flag (b : Bool) (f : Flag) : (s.countDraw b).flag f = s.flag f := by simp [State.flag]

@[simp] theorem State.writeAlu_flag (a : AluOut) (g : Flag) :
    (s.writeAlu a).flag g = if g = .z then a.z else if g = .n then a.n else if g = .v then a.v
      else if g = .c then a.c else s.flag g := by
  simp [State.writeAlu]

@[simp] theorem State.setCompare_flag (r m : Byte) (g : Flag) :
    (s.setCompare r m).flag g = if g = .z then decide (r - m = 0) else if g = .n then (r - m).getLsbD 7
      else if g = .c then decide (r.toNat ≥ m.toNat) else s.flag g := by
  simp [State.setCompare]

@[simp] theorem State.setBitTest_flag (m : Byte) (g : Flag) :
    (s.setBitTest m).flag g = if g = .v then m.getLsbD 6 else if g = .n then m.getLsbD 7
      else if g = .z then decide (s.reg .accum &&& m = 0) else s.flag g := by
  simp [State.setBitTest]

/-! ### Bits 4 and 5 of STATUS -/

theorem pulledStatus_keeps (pulled live : Byte) : pulledStatus pulled live &&& 0x30 = live &&& 0x30 := by
  ext i hi
  have : i < 8 := hi
  simp only [pulledStatus, BitVec.getElem_and, BitVec.getElem_or]
  interval_cases i <;> simp

/-- Bits 4 and 5 of a status byte are the two flags nothing writes (R13). -/
theorem statusBits_eq {p q : Byte} (hb : flagOf p .b = flagOf q .b) (hu : flagOf p .unused = flagOf q .unused) :
    p &&& 0x30 = q &&& 0x30 := by
  simp only [flagOf, Flag.index] at hb hu
  apply BitVec.eq_of_getLsbD_eq
  intro i hi
  rcases i with _ | _ | _ | _ | _ | _ | _ | _ | i <;> first | omega | simp_all

end Sys2Proof.Machine
end

