-- ==== Sys2Proof/Laws/Memory.lean ====
section
/-!
SUPPORT. The backing store: read after write, and that every operation keeps the canonical form.
-/

namespace Sys2Proof.Machine

/-- A write is read back at its address and changes no other. -/
@[simp] theorem Memory.read_write (m : Memory) (a b : Nat) (v : Byte) :
    Memory.read (Memory.write m a v) b = if b = a then some v else Memory.read m b := by
  induction m with
  | nil => simp [Memory.write, Memory.read, eq_comm]
  | cons x m ih =>
    obtain ⟨k, w⟩ := x
    unfold Memory.write
    split
    · simp only [Memory.read, @eq_comm _ a b]
    · split
      · next h =>
        subst h
        simp only [Memory.read, @eq_comm _ a b]
        split <;> rfl
      · next h =>
        simp only [Memory.read, ih]
        by_cases hb : b = a
        · subst hb; simp [Ne.symm h]
        · simp [hb]

theorem Memory.wf_cons {a : Nat} {v : Byte} {m : Memory} :
    Memory.wf ((a, v) :: m) = true ↔ (∀ x ∈ m, a < x.1) ∧ Memory.wf m = true := by
  induction m generalizing a v with
  | nil => simp [Memory.wf]
  | cons x m ih =>
    obtain ⟨b, w⟩ := x
    rw [Memory.wf, Bool.and_eq_true, decide_eq_true_eq, ih]
    constructor
    · rintro ⟨hab, hb, hm⟩
      refine ⟨?_, hb, hm⟩
      intro x hx
      rcases List.mem_cons.1 hx with rfl | hx
      · exact hab
      · exact hab.trans (hb x hx)
    · rintro ⟨h, hb, hm⟩
      exact ⟨h _ List.mem_cons_self, hb, hm⟩

/-- What a write lists was listed before, or is the byte written. -/
theorem Memory.mem_write {m : Memory} {a : Nat} {v : Byte} {x : Host.Cell}
    (h : x ∈ Memory.write m a v) : x = (a, v) ∨ x ∈ m := by
  induction m with
  | nil => simpa [Memory.write] using h
  | cons y m ih =>
    obtain ⟨k, w⟩ := y
    unfold Memory.write at h
    split at h
    · simpa using h
    · split at h
      · rcases List.mem_cons.1 h with rfl | h
        · exact .inl rfl
        · exact .inr (List.mem_cons_of_mem _ h)
      · rcases List.mem_cons.1 h with rfl | h
        · exact .inr List.mem_cons_self
        · exact (ih h).imp id (List.mem_cons_of_mem _)

/-- A write keeps the canonical form. -/
theorem Memory.write_wf {m : Memory} (a : Nat) (v : Byte) (h : m.wf = true) : (Memory.write m a v).wf = true := by
  induction m with
  | nil => rfl
  | cons x m ih =>
    obtain ⟨k, w⟩ := x
    obtain ⟨hk, hm⟩ := Memory.wf_cons.1 h
    unfold Memory.write
    split
    · next hak =>
      refine Memory.wf_cons.2 ⟨?_, h⟩
      intro x hx
      rcases List.mem_cons.1 hx with rfl | hx
      · exact hak
      · exact hak.trans (hk x hx)
    · split
      · next hak => subst hak; exact Memory.wf_cons.2 ⟨hk, hm⟩
      · next h1 h2 =>
        refine Memory.wf_cons.2 ⟨?_, ih hm⟩
        intro x hx
        rcases Memory.mem_write hx with rfl | hx
        · simp only; omega
        · exact hk x hx

/-- A cell after a write. -/
@[simp] theorem State.setCell_cell (s : State) (r q : Nat) (v : Byte) :
    (s.setCell r v).cell q = if q = r then v else s.cell q := by
  simp only [State.cell, State.setCell_mem, State.setCell_memEpoch, Memory.read_write]
  by_cases h : q = r <;> simp [h]

/-- A cell depends on the memory and its epoch alone. -/
theorem State.cell_congr {s t : State} (hm : t.mem = s.mem) (he : t.memEpoch = s.memEpoch) (r : Nat) :
    t.cell r = s.cell r := by
  simp [State.cell, hm, he]

/-- A peek depends on the configuration and the memory alone. -/
theorem State.peek_congr {s t : State} (hc : t.cfg = s.cfg) (hm : t.mem = s.mem) (he : t.memEpoch = s.memEpoch)
    (a : Word) : t.peek a = s.peek a := by
  rw [State.peek, State.peek, hc, State.cell_congr hm he]

end Sys2Proof.Machine
end

