-- ==== Sys2Proof/Laws/Ops.lean ====
section
/-!
SUPPORT. What each shared operation can do, said once: sequencing, the fault entry, the host's mapper operations and the
callbacks, the counted accesses, the stack, the trap. Three kinds of lemma: on a quiet machine an operation answers
exactly this; whatever an operation answers, the CPU's own state is kept or changed so; the invariant is kept.
-/

namespace Sys2Proof.Machine

/-! ### Sequencing -/

section
variable {α β : Type}

@[simp] theorem andThen_next (x : α) (k : α → Host.Outcome β Fault Refusal) : andThen (.next x) k = k x := rfl

@[simp] theorem andThen_fault (f : Fault) (k : α → Host.Outcome β Fault Refusal) :
    andThen (.fault f) k = .fault f := rfl

@[simp] theorem andThen_refused (r : Refusal) (k : α → Host.Outcome β Fault Refusal) :
    andThen (.refused r) k = .refused r := rfl

theorem andThen_eq_next {o : Host.Outcome α Fault Refusal} {k : α → Host.Outcome β Fault Refusal} {y : β} :
    andThen o k = .next y ↔ ∃ x, o = .next x ∧ k x = .next y := by
  cases o <;> simp

theorem andThen_eq_fault {o : Host.Outcome α Fault Refusal} {k : α → Host.Outcome β Fault Refusal} {f : Fault} :
    andThen o k = .fault f ↔ o = .fault f ∨ ∃ x, o = .next x ∧ k x = .fault f := by
  cases o <;> simp

theorem andThen_eq_refused {o : Host.Outcome α Fault Refusal} {k : α → Host.Outcome β Fault Refusal} {r : Refusal} :
    andThen o k = .refused r ↔ o = .refused r ∨ ∃ x, o = .next x ∧ k x = .refused r := by
  cases o <;> simp

/-- Raising a fault answers a fault, whose state has the record written and nothing else changed (R264). -/
theorem raise_eq_fault {k : FaultKind} {d : FaultDetail} {s : State} :
    ∃ f, (raise k d s : Host.Outcome α Fault Refusal) = .fault f ∧ f.after = s.withFault k d := by
  cases k <;> exact ⟨_, rfl, rfl⟩

@[simp] theorem raise_ne_next (k : FaultKind) (d : FaultDetail) (s : State) (x : α) :
    (raise k d s : Host.Outcome α Fault Refusal) = .next x ↔ False := by
  cases k <;> simp [raise]

@[simp] theorem raise_ne_refused (k : FaultKind) (d : FaultDetail) (s : State) (r : Refusal) :
    (raise k d s : Host.Outcome α Fault Refusal) = .refused r ↔ False := by
  cases k <;> simp [raise]

theorem raise_after {k : FaultKind} {d : FaultDetail} {s : State} {f : Fault}
    (h : (raise k d s : Host.Outcome α Fault Refusal) = .fault f) : f.after = s.withFault k d := by
  cases k <;> simp only [raise, Host.Outcome.fault.injEq] at h <;> subst h <;> rfl

end

/-! ### What a host operation or a callback leaves alone (R66, R68) -/

/-- The CPU's own state is the same: configuration, registers, pc, reset flag, fault status. -/
structure SameCpu (s t : State) : Prop where
  cfg       : t.cfg = s.cfg
  regs      : t.regs = s.regs
  pc        : t.pc = s.pc
  resetDone : t.resetDone = s.resetDone
  fault     : t.fault = s.fault

theorem SameCpu.refl (s : State) : SameCpu s s := ⟨rfl, rfl, rfl, rfl, rfl⟩

theorem SameCpu.trans {s t u : State} (h : SameCpu s t) (k : SameCpu t u) : SameCpu s u :=
  ⟨k.cfg.trans h.cfg, k.regs.trans h.regs, k.pc.trans h.pc, k.resetDone.trans h.resetDone, k.fault.trans h.fault⟩

theorem SameCpu.reg {s t : State} (h : SameCpu s t) (r : Reg) : t.reg r = s.reg r := by
  simp [State.reg, h.regs]

theorem SameCpu.flag {s t : State} (h : SameCpu s t) (f : Flag) : t.flag f = s.flag f := by
  simp [State.flag, h.reg]

/-- What an uncounted operation of the host or of a callback leaves alone: the CPU's own state and the count. -/
structure Uncounted (s t : State) : Prop where
  cpu    : SameCpu s t
  cycles : t.cycles = s.cycles

theorem Uncounted.refl (s : State) : Uncounted s s := ⟨.refl s, rfl⟩

theorem Uncounted.trans {s t u : State} (h : Uncounted s t) (k : Uncounted t u) : Uncounted s u :=
  ⟨h.cpu.trans k.cpu, k.cycles.trans h.cycles⟩

/-- Whatever the host's operations do at a route, the CPU's state and the count stay. -/
theorem transferRead_uncounted {t : Route} {s u : State} {v : Byte} (h : transferRead t s = some (v, u)) :
    Uncounted s u := by
  cases t <;> simp only [transferRead, deviceRead, Option.some.injEq, Prod.mk.injEq, reduceCtorEq] at h
  · rw [← h.2]; exact ⟨⟨rfl, rfl, rfl, rfl, rfl⟩, rfl⟩
  · rw [← h.2]; exact .refl _

theorem transferWrite_uncounted {t : Route} {s u : State} {v : Byte} (h : transferWrite t v s = some u) :
    Uncounted s u := by
  cases t <;> simp only [transferWrite, Option.some.injEq, reduceCtorEq] at h
  · rw [← h]; exact ⟨⟨rfl, rfl, rfl, rfl, rfl⟩, rfl⟩
  · rw [← h]; exact ⟨⟨rfl, rfl, rfl, rfl, rfl⟩, rfl⟩

theorem hostRead_uncounted (a : Word) (s : State) : Uncounted s (hostRead a s).2 := by
  unfold hostRead
  split
  · next h => exact transferRead_uncounted h
  · exact .refl s

theorem hostWrite_uncounted (a : Word) (v : Byte) (s : State) : Uncounted s (hostWrite a v s).2 := by
  unfold hostWrite
  split
  · next h => exact transferWrite_uncounted h
  · exact .refl s

theorem hostRead16_uncounted (a : Word) (s : State) : Uncounted s (hostRead16 a s).2 :=
  (hostRead_uncounted a s).trans (hostRead_uncounted (a + 1) _)

theorem storeBytes_uncounted (bs : List Byte) (a : Word) (s : State) : Uncounted s (storeBytes bs a s) := by
  induction bs generalizing a s with
  | nil => exact .refl s
  | cons v bs ih => exact (hostWrite_uncounted a v s).trans (ih _ _)

/-- What a load stores: as many bytes as its length, those of the list where it has them (R47). -/
theorem loadedBytes_length (d n k : Nat) (bs : List Byte) : (loadedBytes d n k bs).length = n := by
  induction n generalizing k bs with
  | zero => rfl
  | succ n ih => cases bs <;> simp [loadedBytes, ih]

theorem loadedBytes_getElem? {d n k j : Nat} {bs : List Byte} {v : Byte} (hj : j < n) (h : bs[j]? = some v) :
    (loadedBytes d n k bs)[j]? = some v := by
  induction n generalizing k j bs with
  | zero => omega
  | succ n ih =>
    cases bs with
    | nil => simp at h
    | cons b bs =>
      cases j with
      | zero => simpa [loadedBytes] using h
      | succ j =>
        simp only [loadedBytes, List.getElem?_cons_succ] at h ⊢
        exact ih (by omega) h

theorem loadedBytes_of_le {d n k : Nat} {bs : List Byte} (h : n ≤ bs.length) : loadedBytes d n k bs = bs.take n := by
  induction n generalizing k bs with
  | zero => rfl
  | succ n ih =>
    cases bs with
    | nil => simp at h
    | cons b bs =>
      rw [loadedBytes, ih (by simpa using h), List.take_succ_cons]

theorem countDraw_uncounted (s : State) (b : Bool) : Uncounted s (s.countDraw b) := by
  cases b <;> exact ⟨⟨rfl, rfl, rfl, rfl, rfl⟩, rfl⟩

theorem hostWriteArray_uncounted (a : Word) (bs : List Byte) (n : Nat) (s : State) :
    Uncounted s (hostWriteArray a bs n s).2 := by
  unfold hostWriteArray
  split
  · exact .refl s
  · exact (storeBytes_uncounted _ _ _).trans (countDraw_uncounted _ _)

theorem applyAction_uncounted (s : State) (a : HostAction) : Uncounted s (applyAction s a) := by
  cases a with
  | read a => exact hostRead_uncounted a s
  | read16 a => exact hostRead16_uncounted a s
  | write a v => exact hostWrite_uncounted a v s
  | writeArray a bs n => exact hostWriteArray_uncounted a bs n s
  | addListener t i => exact ⟨⟨rfl, rfl, rfl, rfl, rfl⟩, rfl⟩
  | changeDevice d t => exact ⟨⟨rfl, rfl, rfl, rfl, rfl⟩, rfl⟩

theorem applyActions_uncounted (as : List HostAction) (s : State) : Uncounted s (applyActions as s) := by
  induction as generalizing s with
  | nil => exact .refl s
  | cons a as ih => exact (applyAction_uncounted s a).trans (ih _)

theorem invoke_uncounted (l : Listener) (s : State) : Uncounted s (invoke l s) :=
  Uncounted.trans (t := { s with draws := s.draws + 1 }) ⟨⟨rfl, rfl, rfl, rfl, rfl⟩, rfl⟩ (applyActions_uncounted _ _)

theorem invokeAll_uncounted (ls : List Listener) (s : State) : Uncounted s (invokeAll ls s) := by
  induction ls generalizing s with
  | nil => exact .refl s
  | cons l ls ih => exact (invoke_uncounted l s).trans (ih _)

/-- A listener scan changes no register, not pc, not the count, not the fault status (R65, R66). -/
theorem fireDue_uncounted (s : State) : Uncounted s (fireDue s) :=
  Uncounted.trans (t := { s with listeners := s.listeners.filter fun l => !s.isDue l })
    ⟨⟨rfl, rfl, rfl, rfl, rfl⟩, rfl⟩ (invokeAll_uncounted _ _)

/-! ### A machine with no listener (R67) -/

/-- With no listener registered the scan does nothing (R67). -/
theorem fireDue_of_no_listener {s : State} (h : s.listeners = []) : fireDue s = s := by
  obtain ⟨cfg, regs, pc, rd, cy, ls, ns, f, m, e, log, d⟩ := s
  subst h
  rfl

theorem tick_of_no_listener {s : State} (h : s.listeners = []) : s.tick = s.addCycles 1 :=
  fireDue_of_no_listener h

/-! ### Counted accesses -/

theorem lastCycle_toNat : lastCycle.toNat = 2 ^ 64 - 1 := by
  simp [lastCycle]

/-- Below the last count, one more cycle raises the number by one (R21). -/
theorem cycles_succ {c : Cycles} (h : c ≠ lastCycle) : (c + 1).toNat = c.toNat + 1 := by
  have h1 : c.toNat ≠ 2 ^ 64 - 1 := fun e => h (BitVec.eq_of_toNat_eq (e.trans lastCycle_toNat.symm))
  have h2 := c.isLt
  rw [BitVec.toNat_add]
  exact Nat.mod_eq_of_lt (by simp; omega)

/-- What a counted access that succeeds does to the CPU: nothing but one cycle (R60, R61). -/
structure Accessed (s t : State) : Prop where
  cpu    : SameCpu s t
  cycles : t.cycles.toNat = s.cycles.toNat + 1

theorem tick_accessed {s u : State} (h : Uncounted s u) (hc : s.cycles ≠ lastCycle) : Accessed s u.tick := by
  have h1 := fireDue_uncounted { u with cycles := u.cycles + 1 }
  refine ⟨⟨h1.cpu.cfg.trans h.cpu.cfg, h1.cpu.regs.trans h.cpu.regs, h1.cpu.pc.trans h.cpu.pc,
    h1.cpu.resetDone.trans h.cpu.resetDone, h1.cpu.fault.trans h.cpu.fault⟩, ?_⟩
  have h2 : u.tick.cycles = s.cycles + 1 := h1.cycles.trans (by simp [h.cycles])
  rw [h2, cycles_succ hc]

/-- A counted read that succeeds: the byte at the route, and one cycle (R61). -/
theorem memRead_eq_next {a : Word} {s t : State} {v : Byte} :
    memRead a s = .next (v, t) ↔
      ∃ u, transferRead (route s.cfg a) s = some (v, u) ∧ s.cycles ≠ lastCycle ∧ t = u.tick := by
  unfold memRead
  split
  · next h => simp [h]
  · next w u h =>
    by_cases hc : s.cycles = lastCycle
    · simp [hc]
    · simp only [hc, if_false, Host.Outcome.next.injEq, Prod.mk.injEq, h, Option.some.injEq, ne_eq,
        not_false_eq_true, true_and]
      constructor
      · rintro ⟨rfl, rfl⟩; exact ⟨u, ⟨rfl, rfl⟩, rfl⟩
      · rintro ⟨u', ⟨rfl, rfl⟩, rfl⟩; exact ⟨rfl, rfl⟩

theorem memWrite_eq_next {a : Word} {v : Byte} {s t : State} :
    memWrite a v s = .next t ↔
      ∃ u, transferWrite (route s.cfg a) v s = some u ∧ s.cycles ≠ lastCycle ∧ t = u.tick := by
  unfold memWrite
  split
  · next h => simp [h]
  · next u h =>
    by_cases hc : s.cycles = lastCycle
    · simp [hc]
    · simp only [hc, if_false, Host.Outcome.next.injEq, h, Option.some.injEq, ne_eq, not_false_eq_true, true_and]
      constructor
      · rintro rfl; exact ⟨u, rfl, rfl⟩
      · rintro ⟨u', rfl, rfl⟩; rfl

theorem memRead_accessed {a : Word} {s t : State} {v : Byte} (h : memRead a s = .next (v, t)) : Accessed s t := by
  obtain ⟨u, hu, hc, rfl⟩ := memRead_eq_next.1 h
  exact tick_accessed (transferRead_uncounted hu) hc

theorem memWrite_accessed {a : Word} {v : Byte} {s t : State} (h : memWrite a v s = .next t) : Accessed s t := by
  obtain ⟨u, hu, hc, rfl⟩ := memWrite_eq_next.1 h
  exact tick_accessed (transferWrite_uncounted hu) hc

/-- A counted access that faults: OUT_OF_RANGE first, then the counter; nothing is transferred or counted (R61, R266). -/
theorem memRead_eq_fault {a : Word} {s : State} {f : Fault} (h : memRead a s = .fault f) :
    (route s.cfg a = .outOfRange ∧ f = .outOfRange (s.withFault .outOfRange (.address a.toNat))) ∨
    (s.cycles = lastCycle ∧ f = .cycleCounterOverflow (s.withFault .cycleCounterOverflow .none)) := by
  unfold memRead at h
  split at h
  · next e =>
    left
    simp only [raise, Host.Outcome.fault.injEq] at h
    refine ⟨?_, h.symm⟩
    revert e
    cases route s.cfg a <;> simp [transferRead]
  · split at h
    · next hc => right; simp only [raise, Host.Outcome.fault.injEq] at h; exact ⟨hc, h.symm⟩
    · cases h

theorem memWrite_eq_fault {a : Word} {v : Byte} {s : State} {f : Fault} (h : memWrite a v s = .fault f) :
    (route s.cfg a = .outOfRange ∧ f = .outOfRange (s.withFault .outOfRange (.address a.toNat))) ∨
    (s.cycles = lastCycle ∧ f = .cycleCounterOverflow (s.withFault .cycleCounterOverflow .none)) := by
  unfold memWrite at h
  split at h
  · next e =>
    left
    simp only [raise, Host.Outcome.fault.injEq] at h
    refine ⟨?_, h.symm⟩
    revert e
    cases route s.cfg a <;> simp [transferWrite]
  · split at h
    · next hc => right; simp only [raise, Host.Outcome.fault.injEq] at h; exact ⟨hc, h.symm⟩
    · cases h

@[simp] theorem memRead_ne_refused (a : Word) (s : State) (r : Refusal) : memRead a s = .refused r ↔ False := by
  unfold memRead
  split
  · simp
  · split <;> simp

@[simp] theorem memWrite_ne_refused (a : Word) (v : Byte) (s : State) (r : Refusal) :
    memWrite a v s = .refused r ↔ False := by
  unfold memWrite
  split
  · simp
  · split <;> simp

/-- With every address routed and room in the counter a read succeeds (R61). -/
theorem memRead_completes {a : Word} {s : State} (hr : Routable s.cfg) (hc : s.cycles.toNat + 1 < 2 ^ 64) :
    ∃ v t, memRead a s = .next (v, t) := by
  have hne : s.cycles ≠ lastCycle := by
    intro e; rw [e, lastCycle_toNat] at hc; omega
  unfold memRead
  split
  · next e => exact absurd (by revert e; cases route s.cfg a <;> simp [transferRead]) (hr a)
  · exact ⟨_, _, by rw [if_neg hne]⟩

theorem memWrite_completes {a : Word} {v : Byte} {s : State} (hr : Routable s.cfg)
    (hc : s.cycles.toNat + 1 < 2 ^ 64) : ∃ t, memWrite a v s = .next t := by
  have hne : s.cycles ≠ lastCycle := by
    intro e; rw [e, lastCycle_toNat] at hc; omega
  unfold memWrite
  split
  · next e => exact absurd (by revert e; cases route s.cfg a <;> simp [transferWrite]) (hr a)
  · exact ⟨_, by rw [if_neg hne]⟩

/-! ### A quiet machine -/

theorem deviceAt_nil (r : Nat) : deviceAt r [] = none := rfl

/-- On a machine with no device a routable address goes to its resolved cell (R45). -/
theorem route_of_no_device {c : Config} (hd : c.devices = []) (hr : Routable c) (a : Word) :
    route c a = .backing (resolve c a) := by
  have h := hr a
  simp only [route, hd, deviceAt_nil] at h ⊢
  split
  · rfl
  · next hc => simp [hc] at h

theorem Quiet.route {n : Nat} {s : State} (h : Quiet n s) (a : Word) :
    route s.cfg a = .backing (resolve s.cfg a) :=
  route_of_no_device h.noDevice h.routable a

theorem Quiet.mono {n m : Nat} {s : State} (h : Quiet n s) (hm : m ≤ n) : Quiet m s :=
  ⟨h.noListener, h.noDevice, h.routable, by have := h.room; omega⟩

theorem State.addCycles_zero (s : State) : s.addCycles 0 = s := by
  simp [State.addCycles]

@[simp] theorem State.addCycles_add (s : State) (n m : Nat) : (s.addCycles n).addCycles m = s.addCycles (n + m) := by
  simp [State.addCycles, BitVec.ofNat_add, add_assoc]

theorem Quiet.cycles {n k : Nat} {s : State} (h : Quiet n s) (hk : k ≤ n) :
    (s.addCycles k).cycles.toNat = s.cycles.toNat + k := by
  have := h.room
  simp only [State.addCycles_cycles, BitVec.toNat_add, BitVec.toNat_ofNat]
  omega

/-- A quiet machine stays quiet after some of its accesses. -/
theorem Quiet.addCycles {n k : Nat} {s : State} (h : Quiet n s) (hk : k ≤ n) : Quiet (n - k) (s.addCycles k) :=
  ⟨h.noListener, h.noDevice, h.routable, by rw [h.cycles hk]; have := h.room; omega⟩

theorem Quiet.setReg {n : Nat} {s : State} (h : Quiet n s) (r : Reg) (v : Byte) : Quiet n (s.setReg r v) :=
  ⟨h.noListener, h.noDevice, h.routable, h.room⟩

theorem Quiet.setFlag {n : Nat} {s : State} (h : Quiet n s) (f : Flag) (b : Bool) : Quiet n (s.setFlag f b) :=
  h.setReg _ _

theorem Quiet.setCell {n : Nat} {s : State} (h : Quiet n s) (r : Nat) (v : Byte) : Quiet n (s.setCell r v) :=
  ⟨h.noListener, h.noDevice, h.routable, h.room⟩

theorem Quiet.setPc {n : Nat} {s : State} (h : Quiet n s) (w : Word) : Quiet n (s.setPc w) :=
  ⟨h.noListener, h.noDevice, h.routable, h.room⟩

theorem Quiet.advance {n : Nat} {s : State} (h : Quiet n s) (k : Nat) : Quiet n (s.advance k) := h.setPc _

theorem Quiet.ne_lastCycle {n : Nat} {s : State} (h : Quiet n s) (hn : 1 ≤ n) : s.cycles ≠ lastCycle := by
  intro e
  have := h.room
  rw [e, lastCycle_toNat] at this
  omega

/-- A counted read on a quiet machine: the byte of the cell, and one cycle (R61, R67). -/
theorem Quiet.memRead {n : Nat} {s : State} (h : Quiet n s) (hn : 1 ≤ n) (a : Word) :
    memRead a s = .next (s.peek a, s.addCycles 1) := by
  rw [memRead_eq_next]
  exact ⟨s, by rw [h.route a]; rfl, h.ne_lastCycle hn, (tick_of_no_listener h.noListener).symm⟩

/-- A counted write on a quiet machine: the cell written, and one cycle (R62, R67). -/
theorem Quiet.memWrite {n : Nat} {s : State} (h : Quiet n s) (hn : 1 ≤ n) (a : Word) (v : Byte) :
    memWrite a v s = .next ((s.setCell (resolve s.cfg a) v).addCycles 1) := by
  rw [memWrite_eq_next]
  exact ⟨_, by rw [h.route a]; rfl, h.ne_lastCycle hn,
    (tick_of_no_listener (s := s.setCell (resolve s.cfg a) v) h.noListener).symm⟩

@[simp] theorem State.peek_addCycles (s : State) (n : Nat) (a : Word) : (s.addCycles n).peek a = s.peek a := rfl
@[simp] theorem State.peek_setReg (s : State) (r : Reg) (v : Byte) (a : Word) : (s.setReg r v).peek a = s.peek a := rfl
@[simp] theorem State.peek_setFlag (s : State) (f : Flag) (b : Bool) (a : Word) :
    (s.setFlag f b).peek a = s.peek a := rfl
@[simp] theorem State.peek_setPc (s : State) (w : Word) (a : Word) : (s.setPc w).peek a = s.peek a := rfl
@[simp] theorem State.peek_advance (s : State) (n : Nat) (a : Word) : (s.advance n).peek a = s.peek a := rfl

/-- The word a quiet machine reads at two addresses (R53). -/
theorem Quiet.readWord {n : Nat} {s : State} (h : Quiet n s) (hn : 2 ≤ n) (lo hi : Word) :
    readWord lo hi s = .next (s.peekWord lo hi, s.addCycles 2) := by
  have h1 := h.addCycles (k := 1) (by omega)
  simp [Machine.readWord, h.memRead (by omega), h1.memRead (by omega : 1 ≤ n - 1), State.peekWord]

/-! ### The invariant -/

/-- Registers, pc, count, flags of control and the model's counters are free to change while these are kept. -/
theorem State.Inv.of_data {s t : State} (h : s.Inv) (hc : t.cfg = s.cfg) (hm : t.mem.wf = true)
    (hb : ∀ x ∈ t.mem, x.1 < t.cfg.capacity) (hl : t.listeners = s.listeners) (hn : t.nextSeq = s.nextSeq)
    (hr : t.regs = s.regs) : t.Inv := by
  refine ⟨hc ▸ h.config, hm, hb, hl ▸ h.ordered, hl ▸ hn ▸ h.registered, ?_, ?_⟩
  · rw [State.reg, hr]; exact h.statusBits
  · simp only [State.reg, hr]; exact h.spare

/-- A change outside the configuration, the registers, the memory and the listeners keeps the invariant. -/
theorem State.Inv.of_same {s t : State} (h : s.Inv) (hc : t.cfg = s.cfg) (hm : t.mem = s.mem)
    (hl : t.listeners = s.listeners) (hn : t.nextSeq = s.nextSeq) (hr : t.regs = s.regs) : t.Inv :=
  h.of_data hc (hm ▸ h.memory) (by rw [hm, hc]; exact h.bounded) hl hn hr

theorem setCell_inv {s : State} (h : s.Inv) {r : Nat} (hr : r < s.cfg.capacity) (v : Byte) : (s.setCell r v).Inv :=
  h.of_data rfl (Memory.write_wf r v h.memory)
    (fun x hx => by rcases Memory.mem_write hx with rfl | hx; exacts [hr, h.bounded x hx]) rfl rfl rfl

theorem logDevice_inv {s : State} (h : s.Inv) (e : DeviceEvent) : (s.logDevice e).Inv :=
  h.of_same rfl rfl rfl rfl rfl

/-- A route to a backing cell is below CAPACITY (R45). -/
theorem route_backing_lt {c : Config} {a : Word} {r : Nat} (h : route c a = .backing r) : r < c.capacity := by
  simp only [route] at h
  split at h
  · cases h
  · split at h
    · next hr => cases h; exact hr
    · cases h

theorem transferRead_inv {a : Word} {s u : State} {v : Byte} (h : s.Inv)
    (e : transferRead (route s.cfg a) s = some (v, u)) : u.Inv := by
  revert e
  cases route s.cfg a <;> simp only [transferRead, Option.some.injEq, Prod.mk.injEq, reduceCtorEq, false_imp_iff]
  · rintro ⟨-, rfl⟩; exact logDevice_inv h _
  · rintro ⟨-, rfl⟩; exact h

theorem transferWrite_inv {a : Word} {s u : State} {v : Byte} (h : s.Inv)
    (e : transferWrite (route s.cfg a) v s = some u) : u.Inv := by
  cases hr : route s.cfg a <;> simp only [hr, transferWrite, Option.some.injEq, reduceCtorEq] at e
  · rw [← e]; exact logDevice_inv h _
  · rw [← e]; exact setCell_inv h (route_backing_lt hr) v

theorem hostRead_inv {s : State} (h : s.Inv) (a : Word) : (hostRead a s).2.Inv := by
  unfold hostRead
  split
  · next e => exact transferRead_inv h e
  · exact h

theorem hostWrite_inv {s : State} (h : s.Inv) (a : Word) (v : Byte) : (hostWrite a v s).2.Inv := by
  unfold hostWrite
  split
  · next e => exact transferWrite_inv h e
  · exact h

theorem hostRead16_inv {s : State} (h : s.Inv) (a : Word) : (hostRead16 a s).2.Inv :=
  hostRead_inv (hostRead_inv h a) (a + 1)

theorem storeBytes_inv {s : State} (h : s.Inv) (bs : List Byte) (a : Word) : (storeBytes bs a s).Inv := by
  induction bs generalizing a s with
  | nil => exact h
  | cons v bs ih => exact ih (hostWrite_inv h a v) _

theorem countDraw_inv {s : State} (h : s.Inv) (b : Bool) : (s.countDraw b).Inv := by
  cases b
  · exact h
  · exact h.of_same rfl rfl rfl rfl rfl

theorem hostWriteArray_inv {s : State} (h : s.Inv) (a : Word) (bs : List Byte) (n : Nat) :
    (hostWriteArray a bs n s).2.Inv := by
  unfold hostWriteArray
  split
  · exact h
  · exact countDraw_inv (storeBytes_inv h _ _) _

theorem addListener_inv {s : State} (h : s.Inv) (target : Cycles) (id : Nat) : (addListener target id s).Inv := by
  refine ⟨h.config, h.memory, h.bounded, ?_, ?_, h.statusBits, h.spare⟩
  · simp only [addListener, List.map_append, List.map_cons, List.map_nil, List.pairwise_append,
      List.pairwise_singleton, List.mem_singleton, true_and]
    refine ⟨h.ordered, ?_⟩
    rintro a ha b rfl
    obtain ⟨l, hl, rfl⟩ := List.mem_map.1 ha
    exact h.registered l hl
  · intro l hl
    simp only [addListener, List.mem_append, List.mem_singleton] at hl ⊢
    rcases hl with hl | rfl
    · exact Nat.lt_succ_of_lt (h.registered l hl)
    · exact Nat.lt_succ_self _

theorem applyAction_inv {s : State} (h : s.Inv) (a : HostAction) : (applyAction s a).Inv := by
  cases a with
  | read a => exact hostRead_inv h a
  | read16 a => exact hostRead16_inv h a
  | write a v => exact hostWrite_inv h a v
  | writeArray a bs n => exact hostWriteArray_inv h a bs n
  | addListener t i => exact addListener_inv h t i
  | changeDevice d t => exact logDevice_inv h _

theorem applyActions_inv {s : State} (h : s.Inv) (as : List HostAction) : (applyActions as s).Inv := by
  induction as generalizing s with
  | nil => exact h
  | cons a as ih => exact ih (applyAction_inv h a)

theorem invoke_inv {s : State} (h : s.Inv) (l : Listener) : (invoke l s).Inv :=
  applyActions_inv (s := { s with draws := s.draws + 1 }) (h.of_same rfl rfl rfl rfl rfl) _

theorem invokeAll_inv {s : State} (h : s.Inv) (ls : List Listener) : (invokeAll ls s).Inv := by
  induction ls generalizing s with
  | nil => exact h
  | cons l ls ih => exact ih (invoke_inv h l)

theorem fireDue_inv {s : State} (h : s.Inv) : (fireDue s).Inv := by
  refine invokeAll_inv (s := { s with listeners := s.listeners.filter fun l => !s.isDue l }) ⟨h.config, h.memory, h.bounded, ?_, ?_, h.statusBits, h.spare⟩ _
  · exact List.Pairwise.sublist (List.Sublist.map _ List.filter_sublist) h.ordered
  · intro l hl
    exact h.registered l (List.mem_filter.1 hl).1

theorem tick_inv {s : State} (h : s.Inv) : s.tick.Inv := fireDue_inv (h.of_same rfl rfl rfl rfl rfl)

theorem memRead_inv {a : Word} {s t : State} {v : Byte} (h : s.Inv) (e : memRead a s = .next (v, t)) : t.Inv := by
  obtain ⟨u, hu, -, rfl⟩ := memRead_eq_next.1 e
  exact tick_inv (transferRead_inv h hu)

theorem memWrite_inv {a : Word} {v : Byte} {s t : State} (h : s.Inv) (e : memWrite a v s = .next t) : t.Inv := by
  obtain ⟨u, hu, -, rfl⟩ := memWrite_eq_next.1 e
  exact tick_inv (transferWrite_inv h hu)

theorem withFault_inv {s : State} (h : s.Inv) (k : FaultKind) (d : FaultDetail) : (s.withFault k d).Inv :=
  h.of_same rfl rfl rfl rfl rfl

theorem setPc_inv {s : State} (h : s.Inv) (w : Word) : (s.setPc w).Inv := h.of_same rfl rfl rfl rfl rfl

/-- Writing A, X, Y or SP keeps the invariant. -/
theorem setReg_inv {s : State} (h : s.Inv) {r : Reg} (hr : r = .accum ∨ r = .indX ∨ r = .indY ∨ r = .stack)
    (v : Byte) : (s.setReg r v).Inv := by
  refine ⟨h.config, h.memory, h.bounded, h.ordered, h.registered, ?_, ?_⟩
  · rcases hr with rfl | rfl | rfl | rfl <;> simpa using h.statusBits
  · rcases hr with rfl | rfl | rfl | rfl <;> simpa using h.spare

/-- Writing STATUS with bits 4 and 5 kept keeps the invariant (R14). -/
theorem setStatus_inv {s : State} (h : s.Inv) {p : Byte} (hp : p &&& 0x30 = s.reg .status &&& 0x30) :
    (s.setReg .status p).Inv := by
  refine ⟨h.config, h.memory, h.bounded, h.ordered, h.registered, ?_, ?_⟩
  · simpa using hp.trans h.statusBits
  · simpa using h.spare

theorem setFlag_inv {s : State} (h : s.Inv) {f : Flag} (hb : f ≠ .b) (hu : f ≠ .unused) (b : Bool) :
    (s.setFlag f b).Inv :=
  setStatus_inv h (statusBits_eq (by simp [Ne.symm hb]) (by simp [Ne.symm hu]))

theorem setNZ_inv {s : State} (h : s.Inv) (v : Byte) : (s.setNZ v).Inv :=
  setFlag_inv (setFlag_inv h (by decide) (by decide) _) (by decide) (by decide) _

end Sys2Proof.Machine
end

