-- ==== Sys2Proof/Laws/Operands.lean ====
section
/-!
SUPPORT. What fetch's mode resolution, LOAD, STORE, RMW and the stack primitives can do: exactly what they answer on a
quiet machine, and what any answer keeps.
-/

namespace Sys2Proof.Machine

/-- How many accesses fetch makes in a mode after the instruction's own bytes (R118). -/
def resolveReads (m : Mode) : Nat := fetchAccesses m - (1 + m.operandBytes)

/-! ### Quiet machines -/

theorem Quiet.preRead {n : Nat} {s : State} (h : Quiet n s) (hn : 1 ≤ n) (ea : Word) :
    preRead ea s = .next ((some (s.peek ea), ea), s.addCycles 1) := by
  simp [Machine.preRead, h.memRead hn]

/-- On a quiet machine fetch resolves a mode to the operand and the address of the mode table (R102 to R114). -/
theorem Quiet.resolveMode {s : State} {m : Mode} (h : Quiet (resolveReads m) s) {b1 b2 : Byte}
    (hf : indexFaults m b1 b2 s = false) :
    resolveMode m b1 b2 s =
      .next ((operandField m b1 b2 s, effectiveAddress m b1 b2 s), s.addCycles (resolveReads m)) := by
  have h1 : 1 ≤ resolveReads m → ∀ ea, Machine.preRead ea s = _ := fun hk => h.preRead hk
  have h2 : 2 ≤ resolveReads m → ∀ lo hi, Machine.readWord lo hi s = _ := fun hk => h.readWord hk
  have h3 : 3 ≤ resolveReads m → ∀ ea, Machine.preRead ea (s.addCycles 2) = _ := fun hk ea =>
    (h.addCycles (k := 2) (by omega)).preRead (by omega) ea
  clear h
  cases m <;>
    simp_all [Machine.resolveMode, operandField, effectiveAddress, resolveReads, fetchAccesses, Mode.operandBytes,
      addressOnly, indexedSum, indexBase, indexFaults, State.addCycles_zero]

/-- One instruction on a quiet machine: the operation on the parameters of the mode table, with pc advanced (R119 to
R121). -/
theorem Quiet.runEntry {s : State} {m : Mode} (h : Quiet (resolveReads m) s) {n : Nat} {b1 b2 : Byte}
    (op : Operation) (hf : indexFaults m b1 b2 s = false) :
    runEntry m n b1 b2 op s =
      op { operand := operandField m b1 b2 s, address := effectiveAddress m b1 b2 s, mode := m, size := n }
        ((s.addCycles (resolveReads m)).advance n) := by
  simp [Machine.runEntry, h.resolveMode hf]

/-- The modes LOAD takes (R122). -/
def loadable : Mode → Bool
  | .implied | .indirect | .relative => false
  | _ => true

/-- LOAD on a quiet machine (R122). -/
theorem Quiet.load {n k : Nat} {s u : State} (hu : Quiet n u) {m : Mode} (hn : readsItself m = true → 1 ≤ n)
    {b1 b2 : Byte} (hm : loadable m = true) (hp : ∀ a, u.peek a = s.peek a) :
    load { operand := operandField m b1 b2 s, address := effectiveAddress m b1 b2 s, mode := m, size := k } u =
      .next (dataByte m b1 b2 s, u.addCycles (if readsItself m then 1 else 0)) := by
  have hr : readsItself m = true → ∀ a, Machine.memRead a u = _ := fun h => hu.memRead (hn h)
  cases m <;> simp_all [loadable, Machine.load, operandOf, operandField, dataByte, readsItself, State.addCycles_zero]

/-- `push` on a quiet machine (R160). -/
theorem Quiet.push {n : Nat} {s : State} (h : Quiet n s) (hn : 1 ≤ n) (v : Byte) :
    push v s = .next (((s.setCell (resolve s.cfg (stackAddress (s.reg .stack))) v).addCycles 1).setReg .stack
      (s.reg .stack - 1)) := by
  simp [Machine.push, h.memWrite hn]

/-- `pull` on a quiet machine (R161). -/
theorem Quiet.pull {n : Nat} {s : State} (h : Quiet n s) (hn : 1 ≤ n) :
    pull s = .next (s.peek (stackAddress (s.reg .stack + 1)),
      (s.setReg .stack (s.reg .stack + 1)).addCycles 1) := by
  have h1 := (h.setReg .stack (s.reg .stack + 1)).memRead hn (stackAddress (s.reg .stack + 1))
  simpa [Machine.pull] using h1

/-! ### What any answer of a read keeps -/

/-- What `k` counted reads do that succeed: `k` cycles, and nothing of the CPU's own (R60, R117); the invariant is kept,
and with no listener the memory is the same (R67). -/
structure ReadEffect (k : Nat) (s t : State) : Prop where
  cpu    : SameCpu s t
  cycles : t.cycles.toNat = s.cycles.toNat + k
  inv    : s.Inv → t.Inv
  still  : s.listeners = [] → t.listeners = [] ∧ t.mem = s.mem ∧ t.memEpoch = s.memEpoch

theorem ReadEffect.refl (s : State) : ReadEffect 0 s s := ⟨.refl s, rfl, id, fun h => ⟨h, rfl, rfl⟩⟩

theorem ReadEffect.trans {j k : Nat} {s t u : State} (h : ReadEffect j s t) (g : ReadEffect k t u) :
    ReadEffect (j + k) s u :=
  ⟨h.cpu.trans g.cpu, by rw [g.cycles, h.cycles, add_assoc], fun hi => g.inv (h.inv hi), fun hs =>
    have a := h.still hs
    have b := g.still a.1
    ⟨b.1, b.2.1.trans a.2.1, b.2.2.trans a.2.2⟩⟩

theorem memRead_effect {a : Word} {s t : State} {v : Byte} (h : memRead a s = .next (v, t)) : ReadEffect 1 s t := by
  have ha := memRead_accessed h
  refine ⟨ha.cpu, ha.cycles, fun hi => memRead_inv hi h, fun hl => ?_⟩
  obtain ⟨u, hu, -, rfl⟩ := memRead_eq_next.1 h
  have hul : u.listeners = s.listeners ∧ u.mem = s.mem ∧ u.memEpoch = s.memEpoch := by
    revert hu
    cases route s.cfg a <;> simp only [transferRead, deviceRead, Option.some.injEq, Prod.mk.injEq, reduceCtorEq,
      false_imp_iff]
    · rintro ⟨-, rfl⟩; exact ⟨rfl, rfl, rfl⟩
    · rintro ⟨-, rfl⟩; exact ⟨rfl, rfl, rfl⟩
  rw [tick_of_no_listener (hul.1.trans hl)]
  exact ⟨hul.1.trans hl, hul.2.1, hul.2.2⟩

theorem readWord_effect {lo hi w : Word} {s t : State} (h : readWord lo hi s = .next (w, t)) : ReadEffect 2 s t := by
  simp only [readWord, andThen_eq_next, Prod.exists, Host.Outcome.next.injEq, Prod.mk.injEq] at h
  obtain ⟨l, u, h1, h', u', h2, -, rfl⟩ := h
  exact (memRead_effect h1).trans (memRead_effect h2)

theorem preRead_effect {ea a : Word} {o : Option Byte} {s t : State} (h : preRead ea s = .next ((o, a), t)) :
    ReadEffect 1 s t := by
  simp only [preRead, andThen_eq_next, Prod.exists, Host.Outcome.next.injEq, Prod.mk.injEq] at h
  obtain ⟨v, u, h1, -, rfl⟩ := h
  exact memRead_effect h1

theorem indexedSum_effect {base a : Word} {idx : Byte} {s t : State} (h : indexedSum base idx s = .next (a, t)) :
    ReadEffect 0 s t := by
  unfold indexedSum at h
  split at h
  · simp at h
  · cases h; exact .refl s

theorem addressOnly_effect {k : Nat} {o : Host.Outcome (Word × State) Fault Refusal} {a : Word} {w : Option Byte}
    {s t : State} (h : addressOnly o = .next ((w, a), t)) (ho : ∀ a t, o = .next (a, t) → ReadEffect k s t) :
    ReadEffect k s t := by
  simp only [addressOnly, andThen_eq_next, Prod.exists, Host.Outcome.next.injEq, Prod.mk.injEq] at h
  obtain ⟨a', t', h1, -, rfl⟩ := h
  exact ho _ _ h1

/-- The rest of fetch changes only the count, and what listeners and devices do (R117, R118). -/
theorem resolveMode_effect {m : Mode} {b1 b2 : Byte} {s t : State} {o : Option Byte} {a : Word}
    (h : resolveMode m b1 b2 s = .next ((o, a), t)) : ReadEffect (resolveReads m) s t := by
  cases m with
  | absolute => cases h; exact .refl s
  | accumulator => cases h; exact .refl s
  | absoluteX => exact addressOnly_effect h fun _ _ => indexedSum_effect
  | absoluteY => exact addressOnly_effect h fun _ _ => indexedSum_effect
  | immediate => cases h; exact .refl s
  | indexedIndirect =>
    simp only [resolveMode, andThen_eq_next, Prod.exists] at h
    obtain ⟨w, u, h1, h2⟩ := h
    exact (readWord_effect h1).trans (preRead_effect h2)
  | indirect => exact addressOnly_effect h fun _ _ => readWord_effect
  | indirectIndexed =>
    simp only [resolveMode, andThen_eq_next, Prod.exists] at h
    obtain ⟨w, u, h1, w', u', h2, h3⟩ := h
    exact ((readWord_effect h1).trans (indexedSum_effect h2)).trans (preRead_effect h3)
  | implied => cases h; exact .refl s
  | zeroPage => exact preRead_effect h
  | zeroPageX => exact preRead_effect h
  | zeroPageY => exact preRead_effect h
  | relative => cases h; exact .refl s

theorem load_effect {p : Params} {s t : State} {v : Byte} (h : load p s = .next (v, t)) :
    ReadEffect (if readsItself p.mode then 1 else 0) s t := by
  obtain ⟨o, a, m, n⟩ := p
  cases m <;> simp only [load, operandOf, readsItself, reduceCtorEq] at h ⊢
  all_goals first
    | exact memRead_effect h
    | (cases o <;> simp only [Host.Outcome.next.injEq, Prod.mk.injEq, reduceCtorEq] at h
       rw [← h.2]; exact .refl s)

/-! ### What any answer of a write keeps -/

/-- What a counted write does that succeeds: one cycle, nothing of the CPU's own; with no listener only the cell its
address resolves to can change (R62, R67). -/
structure WriteEffect (a : Word) (s t : State) : Prop where
  cpu    : SameCpu s t
  cycles : t.cycles.toNat = s.cycles.toNat + 1
  inv    : s.Inv → t.Inv
  still  : s.listeners = [] → t.listeners = [] ∧ ∀ r, r ≠ resolve s.cfg a → t.cell r = s.cell r

theorem route_backing {c : Config} {a : Word} {r : Nat} (h : route c a = .backing r) : r = resolve c a := by
  simp only [route] at h
  split at h
  · cases h
  · split at h <;> cases h; rfl

theorem memWrite_effect {a : Word} {v : Byte} {s t : State} (h : memWrite a v s = .next t) : WriteEffect a s t := by
  have ha := memWrite_accessed h
  refine ⟨ha.cpu, ha.cycles, fun hi => memWrite_inv hi h, fun hl => ?_⟩
  obtain ⟨u, hu, -, rfl⟩ := memWrite_eq_next.1 h
  cases hr : route s.cfg a with
  | device d r =>
    simp only [hr, transferWrite, Option.some.injEq] at hu
    subst hu
    rw [tick_of_no_listener (s := deviceWrite d r v s) hl]
    exact ⟨hl, fun _ _ => rfl⟩
  | backing r =>
    simp only [hr, transferWrite, Option.some.injEq] at hu
    subst hu
    rw [tick_of_no_listener (s := s.setCell r v) hl]
    refine ⟨hl, fun q hq => ?_⟩
    rw [← route_backing hr] at hq
    show (s.setCell r v).cell q = s.cell q
    simp [hq]
  | outOfRange => simp [hr, transferWrite] at hu

theorem push_eq_next {v : Byte} {s t : State} (h : push v s = .next t) :
    ∃ u, memWrite (stackAddress (s.reg .stack)) v s = .next u ∧ t = u.setReg .stack (s.reg .stack - 1) := by
  simp only [push, andThen_eq_next, Host.Outcome.next.injEq] at h
  obtain ⟨u, h1, rfl⟩ := h
  exact ⟨u, h1, by rw [(memWrite_accessed h1).cpu.reg]⟩

theorem pull_eq_next {v : Byte} {s t : State} (h : pull s = .next (v, t)) :
    ReadEffect 1 (s.setReg .stack (s.reg .stack + 1)) t := memRead_effect h

theorem stack_inv {s : State} (h : s.Inv) (v : Byte) : (s.setReg .stack v).Inv := setReg_inv h (by simp) v

end Sys2Proof.Machine
end

