-- ==== Sys2Proof/Laws/Exec.lean ====
section
/-!
SUPPORT. exec as the pipeline runs it: every documented instruction is its row's mode, size and bytes given to the
operation of its mnemonic.
-/

namespace Sys2Proof.Machine

/-- exec of a documented instruction, by its entry (R119 to R121). -/
theorem exec_eq_runEntry {i : Instr} {e : Entry} (h : i.entry = some e) (s : State) :
    exec i s = runEntry e.mode e.size i.byte1 i.byte2 (operation e.name) s := by
  cases i <;> first | (cases h; rfl) | cases h

/-- An instruction has no entry only when it is `unimplemented`. -/
theorem entry_eq_none {i : Instr} (h : i.entry = none) : ∃ op, i = .unimplemented op := by
  cases i <;> first | exact ⟨_, rfl⟩ | cases h

/-- exec of a documented instruction on a quiet machine: its operation on the parameters of the mode table. -/
theorem Quiet.exec {s : State} {i : Instr} {e : Entry} (he : i.entry = some e) (h : Quiet (resolveReads e.mode) s)
    (hf : indexFaults e.mode i.byte1 i.byte2 s = false) :
    exec i s = operation e.name
      { operand := operandField e.mode i.byte1 i.byte2 s, address := addressOf i e.mode s, mode := e.mode,
        size := e.size }
      ((s.addCycles (resolveReads e.mode)).advance e.size) := by
  rw [exec_eq_runEntry he, h.runEntry _ hf, addressOf]

/-- What exec answers next: fetch's rest answered next, then the operation did. -/
theorem exec_eq_next {i : Instr} {e : Entry} (he : i.entry = some e) {s t : State} (h : exec i s = .next t) :
    ∃ o a u, ReadEffect (resolveReads e.mode) s u ∧
      operation e.name { operand := o, address := a, mode := e.mode, size := e.size } (u.advance e.size) = .next t := by
  rw [exec_eq_runEntry he, runEntry, andThen_eq_next] at h
  obtain ⟨⟨⟨o, a⟩, u⟩, h1, h2⟩ := h
  exact ⟨o, a, u, resolveMode_effect h1, h2⟩

/-- An instruction that is `unimplemented` answers no next state (R260). -/
theorem entry_of_next {i : Instr} {s t : State} (h : exec i s = .next t) : ∃ e, i.entry = some e := by
  cases he : i.entry with
  | some e => exact ⟨e, rfl⟩
  | none =>
    obtain ⟨op, rfl⟩ := entry_eq_none he
    simp [exec, execUnimplemented] at h

end Sys2Proof.Machine
end

