-- ==== Sys2Proof/Laws/PerInstr.lean ====
section
/-!
SUPPORT. Two facts about every instruction as syntax: its length is the size of its row and its mode's operand bytes say
so too (30_encoding.md R80, R84); and the opcode table gives its opcode byte the entry it has (R86, R88).
-/

namespace Sys2Proof.Laws

/-- The encoded length is the size, and the size is one more than the mode's operand bytes. -/
def EncodedSize.Statement (i : Instr) : Prop :=
  ∀ e, i.entry = some e → (encode i).length = e.size ∧ e.size = 1 + e.mode.operandBytes

/-- A row of the table by its opcode. -/
theorem row (op : Byte) (e : Option Entry) (h : metadata op = e) : metadata op = e := h

/-- METADATA at the opcode of a well-formed instruction is its entry. -/
def TableEntry.Statement (i : Instr) : Prop := i.wellFormed = true → metadata i.opcode = i.entry

theorem EncodedSize.ldaIndX (zp : Byte) : EncodedSize.Statement (.ldaIndX zp) := by rintro _ ⟨⟩; exact ⟨rfl, rfl⟩
theorem EncodedSize.ldaZp (zp : Byte) : EncodedSize.Statement (.ldaZp zp) := by rintro _ ⟨⟩; exact ⟨rfl, rfl⟩
theorem EncodedSize.ldaImm (v : Byte) : EncodedSize.Statement (.ldaImm v) := by rintro _ ⟨⟩; exact ⟨rfl, rfl⟩
theorem EncodedSize.ldaAbs (addr : Word) : EncodedSize.Statement (.ldaAbs addr) := by rintro _ ⟨⟩; exact ⟨rfl, rfl⟩
theorem EncodedSize.ldaIndY (zp : Byte) : EncodedSize.Statement (.ldaIndY zp) := by rintro _ ⟨⟩; exact ⟨rfl, rfl⟩
theorem EncodedSize.ldaZpX (zp : Byte) : EncodedSize.Statement (.ldaZpX zp) := by rintro _ ⟨⟩; exact ⟨rfl, rfl⟩
theorem EncodedSize.ldaAbsY (addr : Word) : EncodedSize.Statement (.ldaAbsY addr) := by rintro _ ⟨⟩; exact ⟨rfl, rfl⟩
theorem EncodedSize.ldaAbsX (addr : Word) : EncodedSize.Statement (.ldaAbsX addr) := by rintro _ ⟨⟩; exact ⟨rfl, rfl⟩
theorem EncodedSize.ldxImm (v : Byte) : EncodedSize.Statement (.ldxImm v) := by rintro _ ⟨⟩; exact ⟨rfl, rfl⟩
theorem EncodedSize.ldxZp (zp : Byte) : EncodedSize.Statement (.ldxZp zp) := by rintro _ ⟨⟩; exact ⟨rfl, rfl⟩
theorem EncodedSize.ldxAbs (addr : Word) : EncodedSize.Statement (.ldxAbs addr) := by rintro _ ⟨⟩; exact ⟨rfl, rfl⟩
theorem EncodedSize.ldxZpY (zp : Byte) : EncodedSize.Statement (.ldxZpY zp) := by rintro _ ⟨⟩; exact ⟨rfl, rfl⟩
theorem EncodedSize.ldxAbsY (addr : Word) : EncodedSize.Statement (.ldxAbsY addr) := by rintro _ ⟨⟩; exact ⟨rfl, rfl⟩
theorem EncodedSize.ldyImm (v : Byte) : EncodedSize.Statement (.ldyImm v) := by rintro _ ⟨⟩; exact ⟨rfl, rfl⟩
theorem EncodedSize.ldyZp (zp : Byte) : EncodedSize.Statement (.ldyZp zp) := by rintro _ ⟨⟩; exact ⟨rfl, rfl⟩
theorem EncodedSize.ldyAbs (addr : Word) : EncodedSize.Statement (.ldyAbs addr) := by rintro _ ⟨⟩; exact ⟨rfl, rfl⟩
theorem EncodedSize.ldyZpX (zp : Byte) : EncodedSize.Statement (.ldyZpX zp) := by rintro _ ⟨⟩; exact ⟨rfl, rfl⟩
theorem EncodedSize.ldyAbsX (addr : Word) : EncodedSize.Statement (.ldyAbsX addr) := by rintro _ ⟨⟩; exact ⟨rfl, rfl⟩
theorem EncodedSize.staIndX (zp : Byte) : EncodedSize.Statement (.staIndX zp) := by rintro _ ⟨⟩; exact ⟨rfl, rfl⟩
theorem EncodedSize.staZp (zp : Byte) : EncodedSize.Statement (.staZp zp) := by rintro _ ⟨⟩; exact ⟨rfl, rfl⟩
theorem EncodedSize.staAbs (addr : Word) : EncodedSize.Statement (.staAbs addr) := by rintro _ ⟨⟩; exact ⟨rfl, rfl⟩
theorem EncodedSize.staIndY (zp : Byte) : EncodedSize.Statement (.staIndY zp) := by rintro _ ⟨⟩; exact ⟨rfl, rfl⟩
theorem EncodedSize.staZpX (zp : Byte) : EncodedSize.Statement (.staZpX zp) := by rintro _ ⟨⟩; exact ⟨rfl, rfl⟩
theorem EncodedSize.staAbsY (addr : Word) : EncodedSize.Statement (.staAbsY addr) := by rintro _ ⟨⟩; exact ⟨rfl, rfl⟩
theorem EncodedSize.staAbsX (addr : Word) : EncodedSize.Statement (.staAbsX addr) := by rintro _ ⟨⟩; exact ⟨rfl, rfl⟩
theorem EncodedSize.stxZp (zp : Byte) : EncodedSize.Statement (.stxZp zp) := by rintro _ ⟨⟩; exact ⟨rfl, rfl⟩
theorem EncodedSize.stxAbs (addr : Word) : EncodedSize.Statement (.stxAbs addr) := by rintro _ ⟨⟩; exact ⟨rfl, rfl⟩
theorem EncodedSize.stxZpY (zp : Byte) : EncodedSize.Statement (.stxZpY zp) := by rintro _ ⟨⟩; exact ⟨rfl, rfl⟩
theorem EncodedSize.styZp (zp : Byte) : EncodedSize.Statement (.styZp zp) := by rintro _ ⟨⟩; exact ⟨rfl, rfl⟩
theorem EncodedSize.styAbs (addr : Word) : EncodedSize.Statement (.styAbs addr) := by rintro _ ⟨⟩; exact ⟨rfl, rfl⟩
theorem EncodedSize.styZpX (zp : Byte) : EncodedSize.Statement (.styZpX zp) := by rintro _ ⟨⟩; exact ⟨rfl, rfl⟩
theorem EncodedSize.tax : EncodedSize.Statement .tax := by rintro _ ⟨⟩; exact ⟨rfl, rfl⟩
theorem EncodedSize.tay : EncodedSize.Statement .tay := by rintro _ ⟨⟩; exact ⟨rfl, rfl⟩
theorem EncodedSize.txa : EncodedSize.Statement .txa := by rintro _ ⟨⟩; exact ⟨rfl, rfl⟩
theorem EncodedSize.tya : EncodedSize.Statement .tya := by rintro _ ⟨⟩; exact ⟨rfl, rfl⟩
theorem EncodedSize.tsx : EncodedSize.Statement .tsx := by rintro _ ⟨⟩; exact ⟨rfl, rfl⟩
theorem EncodedSize.txs : EncodedSize.Statement .txs := by rintro _ ⟨⟩; exact ⟨rfl, rfl⟩
theorem EncodedSize.pha : EncodedSize.Statement .pha := by rintro _ ⟨⟩; exact ⟨rfl, rfl⟩
theorem EncodedSize.php : EncodedSize.Statement .php := by rintro _ ⟨⟩; exact ⟨rfl, rfl⟩
theorem EncodedSize.pla : EncodedSize.Statement .pla := by rintro _ ⟨⟩; exact ⟨rfl, rfl⟩
theorem EncodedSize.plp : EncodedSize.Statement .plp := by rintro _ ⟨⟩; exact ⟨rfl, rfl⟩
theorem EncodedSize.adcIndX (zp : Byte) : EncodedSize.Statement (.adcIndX zp) := by rintro _ ⟨⟩; exact ⟨rfl, rfl⟩
theorem EncodedSize.adcZp (zp : Byte) : EncodedSize.Statement (.adcZp zp) := by rintro _ ⟨⟩; exact ⟨rfl, rfl⟩
theorem EncodedSize.adcImm (v : Byte) : EncodedSize.Statement (.adcImm v) := by rintro _ ⟨⟩; exact ⟨rfl, rfl⟩
theorem EncodedSize.adcAbs (addr : Word) : EncodedSize.Statement (.adcAbs addr) := by rintro _ ⟨⟩; exact ⟨rfl, rfl⟩
theorem EncodedSize.adcIndY (zp : Byte) : EncodedSize.Statement (.adcIndY zp) := by rintro _ ⟨⟩; exact ⟨rfl, rfl⟩
theorem EncodedSize.adcZpX (zp : Byte) : EncodedSize.Statement (.adcZpX zp) := by rintro _ ⟨⟩; exact ⟨rfl, rfl⟩
theorem EncodedSize.adcAbsY (addr : Word) : EncodedSize.Statement (.adcAbsY addr) := by rintro _ ⟨⟩; exact ⟨rfl, rfl⟩
theorem EncodedSize.adcAbsX (addr : Word) : EncodedSize.Statement (.adcAbsX addr) := by rintro _ ⟨⟩; exact ⟨rfl, rfl⟩
theorem EncodedSize.sbcIndX (zp : Byte) : EncodedSize.Statement (.sbcIndX zp) := by rintro _ ⟨⟩; exact ⟨rfl, rfl⟩
theorem EncodedSize.sbcZp (zp : Byte) : EncodedSize.Statement (.sbcZp zp) := by rintro _ ⟨⟩; exact ⟨rfl, rfl⟩
theorem EncodedSize.sbcImm (v : Byte) : EncodedSize.Statement (.sbcImm v) := by rintro _ ⟨⟩; exact ⟨rfl, rfl⟩
theorem EncodedSize.sbcAbs (addr : Word) : EncodedSize.Statement (.sbcAbs addr) := by rintro _ ⟨⟩; exact ⟨rfl, rfl⟩
theorem EncodedSize.sbcIndY (zp : Byte) : EncodedSize.Statement (.sbcIndY zp) := by rintro _ ⟨⟩; exact ⟨rfl, rfl⟩
theorem EncodedSize.sbcZpX (zp : Byte) : EncodedSize.Statement (.sbcZpX zp) := by rintro _ ⟨⟩; exact ⟨rfl, rfl⟩
theorem EncodedSize.sbcAbsY (addr : Word) : EncodedSize.Statement (.sbcAbsY addr) := by rintro _ ⟨⟩; exact ⟨rfl, rfl⟩
theorem EncodedSize.sbcAbsX (addr : Word) : EncodedSize.Statement (.sbcAbsX addr) := by rintro _ ⟨⟩; exact ⟨rfl, rfl⟩
theorem EncodedSize.cmpIndX (zp : Byte) : EncodedSize.Statement (.cmpIndX zp) := by rintro _ ⟨⟩; exact ⟨rfl, rfl⟩
theorem EncodedSize.cmpZp (zp : Byte) : EncodedSize.Statement (.cmpZp zp) := by rintro _ ⟨⟩; exact ⟨rfl, rfl⟩
theorem EncodedSize.cmpImm (v : Byte) : EncodedSize.Statement (.cmpImm v) := by rintro _ ⟨⟩; exact ⟨rfl, rfl⟩
theorem EncodedSize.cmpAbs (addr : Word) : EncodedSize.Statement (.cmpAbs addr) := by rintro _ ⟨⟩; exact ⟨rfl, rfl⟩
theorem EncodedSize.cmpIndY (zp : Byte) : EncodedSize.Statement (.cmpIndY zp) := by rintro _ ⟨⟩; exact ⟨rfl, rfl⟩
theorem EncodedSize.cmpZpX (zp : Byte) : EncodedSize.Statement (.cmpZpX zp) := by rintro _ ⟨⟩; exact ⟨rfl, rfl⟩
theorem EncodedSize.cmpAbsY (addr : Word) : EncodedSize.Statement (.cmpAbsY addr) := by rintro _ ⟨⟩; exact ⟨rfl, rfl⟩
theorem EncodedSize.cmpAbsX (addr : Word) : EncodedSize.Statement (.cmpAbsX addr) := by rintro _ ⟨⟩; exact ⟨rfl, rfl⟩
theorem EncodedSize.cpxImm (v : Byte) : EncodedSize.Statement (.cpxImm v) := by rintro _ ⟨⟩; exact ⟨rfl, rfl⟩
theorem EncodedSize.cpxZp (zp : Byte) : EncodedSize.Statement (.cpxZp zp) := by rintro _ ⟨⟩; exact ⟨rfl, rfl⟩
theorem EncodedSize.cpxAbs (addr : Word) : EncodedSize.Statement (.cpxAbs addr) := by rintro _ ⟨⟩; exact ⟨rfl, rfl⟩
theorem EncodedSize.cpyImm (v : Byte) : EncodedSize.Statement (.cpyImm v) := by rintro _ ⟨⟩; exact ⟨rfl, rfl⟩
theorem EncodedSize.cpyZp (zp : Byte) : EncodedSize.Statement (.cpyZp zp) := by rintro _ ⟨⟩; exact ⟨rfl, rfl⟩
theorem EncodedSize.cpyAbs (addr : Word) : EncodedSize.Statement (.cpyAbs addr) := by rintro _ ⟨⟩; exact ⟨rfl, rfl⟩
theorem EncodedSize.incZp (zp : Byte) : EncodedSize.Statement (.incZp zp) := by rintro _ ⟨⟩; exact ⟨rfl, rfl⟩
theorem EncodedSize.incAbs (addr : Word) : EncodedSize.Statement (.incAbs addr) := by rintro _ ⟨⟩; exact ⟨rfl, rfl⟩
theorem EncodedSize.incZpX (zp : Byte) : EncodedSize.Statement (.incZpX zp) := by rintro _ ⟨⟩; exact ⟨rfl, rfl⟩
theorem EncodedSize.incAbsX (addr : Word) : EncodedSize.Statement (.incAbsX addr) := by rintro _ ⟨⟩; exact ⟨rfl, rfl⟩
theorem EncodedSize.decZp (zp : Byte) : EncodedSize.Statement (.decZp zp) := by rintro _ ⟨⟩; exact ⟨rfl, rfl⟩
theorem EncodedSize.decAbs (addr : Word) : EncodedSize.Statement (.decAbs addr) := by rintro _ ⟨⟩; exact ⟨rfl, rfl⟩
theorem EncodedSize.decZpX (zp : Byte) : EncodedSize.Statement (.decZpX zp) := by rintro _ ⟨⟩; exact ⟨rfl, rfl⟩
theorem EncodedSize.decAbsX (addr : Word) : EncodedSize.Statement (.decAbsX addr) := by rintro _ ⟨⟩; exact ⟨rfl, rfl⟩
theorem EncodedSize.inx : EncodedSize.Statement .inx := by rintro _ ⟨⟩; exact ⟨rfl, rfl⟩
theorem EncodedSize.iny : EncodedSize.Statement .iny := by rintro _ ⟨⟩; exact ⟨rfl, rfl⟩
theorem EncodedSize.dex : EncodedSize.Statement .dex := by rintro _ ⟨⟩; exact ⟨rfl, rfl⟩
theorem EncodedSize.dey : EncodedSize.Statement .dey := by rintro _ ⟨⟩; exact ⟨rfl, rfl⟩
theorem EncodedSize.andIndX (zp : Byte) : EncodedSize.Statement (.andIndX zp) := by rintro _ ⟨⟩; exact ⟨rfl, rfl⟩
theorem EncodedSize.andZp (zp : Byte) : EncodedSize.Statement (.andZp zp) := by rintro _ ⟨⟩; exact ⟨rfl, rfl⟩
theorem EncodedSize.andImm (v : Byte) : EncodedSize.Statement (.andImm v) := by rintro _ ⟨⟩; exact ⟨rfl, rfl⟩
theorem EncodedSize.andAbs (addr : Word) : EncodedSize.Statement (.andAbs addr) := by rintro _ ⟨⟩; exact ⟨rfl, rfl⟩
theorem EncodedSize.andIndY (zp : Byte) : EncodedSize.Statement (.andIndY zp) := by rintro _ ⟨⟩; exact ⟨rfl, rfl⟩
theorem EncodedSize.andZpX (zp : Byte) : EncodedSize.Statement (.andZpX zp) := by rintro _ ⟨⟩; exact ⟨rfl, rfl⟩
theorem EncodedSize.andAbsY (addr : Word) : EncodedSize.Statement (.andAbsY addr) := by rintro _ ⟨⟩; exact ⟨rfl, rfl⟩
theorem EncodedSize.andAbsX (addr : Word) : EncodedSize.Statement (.andAbsX addr) := by rintro _ ⟨⟩; exact ⟨rfl, rfl⟩
theorem EncodedSize.oraIndX (zp : Byte) : EncodedSize.Statement (.oraIndX zp) := by rintro _ ⟨⟩; exact ⟨rfl, rfl⟩
theorem EncodedSize.oraZp (zp : Byte) : EncodedSize.Statement (.oraZp zp) := by rintro _ ⟨⟩; exact ⟨rfl, rfl⟩
theorem EncodedSize.oraImm (v : Byte) : EncodedSize.Statement (.oraImm v) := by rintro _ ⟨⟩; exact ⟨rfl, rfl⟩
theorem EncodedSize.oraAbs (addr : Word) : EncodedSize.Statement (.oraAbs addr) := by rintro _ ⟨⟩; exact ⟨rfl, rfl⟩
theorem EncodedSize.oraIndY (zp : Byte) : EncodedSize.Statement (.oraIndY zp) := by rintro _ ⟨⟩; exact ⟨rfl, rfl⟩
theorem EncodedSize.oraZpX (zp : Byte) : EncodedSize.Statement (.oraZpX zp) := by rintro _ ⟨⟩; exact ⟨rfl, rfl⟩
theorem EncodedSize.oraAbsY (addr : Word) : EncodedSize.Statement (.oraAbsY addr) := by rintro _ ⟨⟩; exact ⟨rfl, rfl⟩
theorem EncodedSize.oraAbsX (addr : Word) : EncodedSize.Statement (.oraAbsX addr) := by rintro _ ⟨⟩; exact ⟨rfl, rfl⟩
theorem EncodedSize.eorIndX (zp : Byte) : EncodedSize.Statement (.eorIndX zp) := by rintro _ ⟨⟩; exact ⟨rfl, rfl⟩
theorem EncodedSize.eorZp (zp : Byte) : EncodedSize.Statement (.eorZp zp) := by rintro _ ⟨⟩; exact ⟨rfl, rfl⟩
theorem EncodedSize.eorImm (v : Byte) : EncodedSize.Statement (.eorImm v) := by rintro _ ⟨⟩; exact ⟨rfl, rfl⟩
theorem EncodedSize.eorAbs (addr : Word) : EncodedSize.Statement (.eorAbs addr) := by rintro _ ⟨⟩; exact ⟨rfl, rfl⟩
theorem EncodedSize.eorIndY (zp : Byte) : EncodedSize.Statement (.eorIndY zp) := by rintro _ ⟨⟩; exact ⟨rfl, rfl⟩
theorem EncodedSize.eorZpX (zp : Byte) : EncodedSize.Statement (.eorZpX zp) := by rintro _ ⟨⟩; exact ⟨rfl, rfl⟩
theorem EncodedSize.eorAbsY (addr : Word) : EncodedSize.Statement (.eorAbsY addr) := by rintro _ ⟨⟩; exact ⟨rfl, rfl⟩
theorem EncodedSize.eorAbsX (addr : Word) : EncodedSize.Statement (.eorAbsX addr) := by rintro _ ⟨⟩; exact ⟨rfl, rfl⟩
theorem EncodedSize.bitZp (zp : Byte) : EncodedSize.Statement (.bitZp zp) := by rintro _ ⟨⟩; exact ⟨rfl, rfl⟩
theorem EncodedSize.bitAbs (addr : Word) : EncodedSize.Statement (.bitAbs addr) := by rintro _ ⟨⟩; exact ⟨rfl, rfl⟩
theorem EncodedSize.aslZp (zp : Byte) : EncodedSize.Statement (.aslZp zp) := by rintro _ ⟨⟩; exact ⟨rfl, rfl⟩
theorem EncodedSize.aslAcc : EncodedSize.Statement .aslAcc := by rintro _ ⟨⟩; exact ⟨rfl, rfl⟩
theorem EncodedSize.aslAbs (addr : Word) : EncodedSize.Statement (.aslAbs addr) := by rintro _ ⟨⟩; exact ⟨rfl, rfl⟩
theorem EncodedSize.aslZpX (zp : Byte) : EncodedSize.Statement (.aslZpX zp) := by rintro _ ⟨⟩; exact ⟨rfl, rfl⟩
theorem EncodedSize.aslAbsX (addr : Word) : EncodedSize.Statement (.aslAbsX addr) := by rintro _ ⟨⟩; exact ⟨rfl, rfl⟩
theorem EncodedSize.lsrZp (zp : Byte) : EncodedSize.Statement (.lsrZp zp) := by rintro _ ⟨⟩; exact ⟨rfl, rfl⟩
theorem EncodedSize.lsrAcc : EncodedSize.Statement .lsrAcc := by rintro _ ⟨⟩; exact ⟨rfl, rfl⟩
theorem EncodedSize.lsrAbs (addr : Word) : EncodedSize.Statement (.lsrAbs addr) := by rintro _ ⟨⟩; exact ⟨rfl, rfl⟩
theorem EncodedSize.lsrZpX (zp : Byte) : EncodedSize.Statement (.lsrZpX zp) := by rintro _ ⟨⟩; exact ⟨rfl, rfl⟩
theorem EncodedSize.lsrAbsX (addr : Word) : EncodedSize.Statement (.lsrAbsX addr) := by rintro _ ⟨⟩; exact ⟨rfl, rfl⟩
theorem EncodedSize.rolZp (zp : Byte) : EncodedSize.Statement (.rolZp zp) := by rintro _ ⟨⟩; exact ⟨rfl, rfl⟩
theorem EncodedSize.rolAcc : EncodedSize.Statement .rolAcc := by rintro _ ⟨⟩; exact ⟨rfl, rfl⟩
theorem EncodedSize.rolAbs (addr : Word) : EncodedSize.Statement (.rolAbs addr) := by rintro _ ⟨⟩; exact ⟨rfl, rfl⟩
theorem EncodedSize.rolZpX (zp : Byte) : EncodedSize.Statement (.rolZpX zp) := by rintro _ ⟨⟩; exact ⟨rfl, rfl⟩
theorem EncodedSize.rolAbsX (addr : Word) : EncodedSize.Statement (.rolAbsX addr) := by rintro _ ⟨⟩; exact ⟨rfl, rfl⟩
theorem EncodedSize.rorZp (zp : Byte) : EncodedSize.Statement (.rorZp zp) := by rintro _ ⟨⟩; exact ⟨rfl, rfl⟩
theorem EncodedSize.rorAcc : EncodedSize.Statement .rorAcc := by rintro _ ⟨⟩; exact ⟨rfl, rfl⟩
theorem EncodedSize.rorAbs (addr : Word) : EncodedSize.Statement (.rorAbs addr) := by rintro _ ⟨⟩; exact ⟨rfl, rfl⟩
theorem EncodedSize.rorZpX (zp : Byte) : EncodedSize.Statement (.rorZpX zp) := by rintro _ ⟨⟩; exact ⟨rfl, rfl⟩
theorem EncodedSize.rorAbsX (addr : Word) : EncodedSize.Statement (.rorAbsX addr) := by rintro _ ⟨⟩; exact ⟨rfl, rfl⟩
theorem EncodedSize.jmpAbs (addr : Word) : EncodedSize.Statement (.jmpAbs addr) := by rintro _ ⟨⟩; exact ⟨rfl, rfl⟩
theorem EncodedSize.jmpInd (addr : Word) : EncodedSize.Statement (.jmpInd addr) := by rintro _ ⟨⟩; exact ⟨rfl, rfl⟩
theorem EncodedSize.jsr (addr : Word) : EncodedSize.Statement (.jsr addr) := by rintro _ ⟨⟩; exact ⟨rfl, rfl⟩
theorem EncodedSize.rts : EncodedSize.Statement .rts := by rintro _ ⟨⟩; exact ⟨rfl, rfl⟩
theorem EncodedSize.rti : EncodedSize.Statement .rti := by rintro _ ⟨⟩; exact ⟨rfl, rfl⟩
theorem EncodedSize.brk : EncodedSize.Statement .brk := by rintro _ ⟨⟩; exact ⟨rfl, rfl⟩
theorem EncodedSize.bcc (off : Byte) : EncodedSize.Statement (.bcc off) := by rintro _ ⟨⟩; exact ⟨rfl, rfl⟩
theorem EncodedSize.bcs (off : Byte) : EncodedSize.Statement (.bcs off) := by rintro _ ⟨⟩; exact ⟨rfl, rfl⟩
theorem EncodedSize.beq (off : Byte) : EncodedSize.Statement (.beq off) := by rintro _ ⟨⟩; exact ⟨rfl, rfl⟩
theorem EncodedSize.bmi (off : Byte) : EncodedSize.Statement (.bmi off) := by rintro _ ⟨⟩; exact ⟨rfl, rfl⟩
theorem EncodedSize.bne (off : Byte) : EncodedSize.Statement (.bne off) := by rintro _ ⟨⟩; exact ⟨rfl, rfl⟩
theorem EncodedSize.bpl (off : Byte) : EncodedSize.Statement (.bpl off) := by rintro _ ⟨⟩; exact ⟨rfl, rfl⟩
theorem EncodedSize.bvc (off : Byte) : EncodedSize.Statement (.bvc off) := by rintro _ ⟨⟩; exact ⟨rfl, rfl⟩
theorem EncodedSize.bvs (off : Byte) : EncodedSize.Statement (.bvs off) := by rintro _ ⟨⟩; exact ⟨rfl, rfl⟩
theorem EncodedSize.clc : EncodedSize.Statement .clc := by rintro _ ⟨⟩; exact ⟨rfl, rfl⟩
theorem EncodedSize.cld : EncodedSize.Statement .cld := by rintro _ ⟨⟩; exact ⟨rfl, rfl⟩
theorem EncodedSize.cli : EncodedSize.Statement .cli := by rintro _ ⟨⟩; exact ⟨rfl, rfl⟩
theorem EncodedSize.clv : EncodedSize.Statement .clv := by rintro _ ⟨⟩; exact ⟨rfl, rfl⟩
theorem EncodedSize.sec : EncodedSize.Statement .sec := by rintro _ ⟨⟩; exact ⟨rfl, rfl⟩
theorem EncodedSize.sed : EncodedSize.Statement .sed := by rintro _ ⟨⟩; exact ⟨rfl, rfl⟩
theorem EncodedSize.sei : EncodedSize.Statement .sei := by rintro _ ⟨⟩; exact ⟨rfl, rfl⟩
theorem EncodedSize.nop : EncodedSize.Statement .nop := by rintro _ ⟨⟩; exact ⟨rfl, rfl⟩
theorem EncodedSize.unimplemented (op : Byte) : EncodedSize.Statement (.unimplemented op) := by rintro _ ⟨⟩

theorem TableEntry.ldaIndX (zp : Byte) : TableEntry.Statement (.ldaIndX zp) := fun _ => row 0xA1 (some ⟨.lda, .indexedIndirect, 2⟩) (by decide)
theorem TableEntry.ldaZp (zp : Byte) : TableEntry.Statement (.ldaZp zp) := fun _ => row 0xA5 (some ⟨.lda, .zeroPage, 2⟩) (by decide)
theorem TableEntry.ldaImm (v : Byte) : TableEntry.Statement (.ldaImm v) := fun _ => row 0xA9 (some ⟨.lda, .immediate, 2⟩) (by decide)
theorem TableEntry.ldaAbs (addr : Word) : TableEntry.Statement (.ldaAbs addr) := fun _ => row 0xAD (some ⟨.lda, .absolute, 3⟩) (by decide)
theorem TableEntry.ldaIndY (zp : Byte) : TableEntry.Statement (.ldaIndY zp) := fun _ => row 0xB1 (some ⟨.lda, .indirectIndexed, 2⟩) (by decide)
theorem TableEntry.ldaZpX (zp : Byte) : TableEntry.Statement (.ldaZpX zp) := fun _ => row 0xB5 (some ⟨.lda, .zeroPageX, 2⟩) (by decide)
theorem TableEntry.ldaAbsY (addr : Word) : TableEntry.Statement (.ldaAbsY addr) := fun _ => row 0xB9 (some ⟨.lda, .absoluteY, 3⟩) (by decide)
theorem TableEntry.ldaAbsX (addr : Word) : TableEntry.Statement (.ldaAbsX addr) := fun _ => row 0xBD (some ⟨.lda, .absoluteX, 3⟩) (by decide)
theorem TableEntry.ldxImm (v : Byte) : TableEntry.Statement (.ldxImm v) := fun _ => row 0xA2 (some ⟨.ldx, .immediate, 2⟩) (by decide)
theorem TableEntry.ldxZp (zp : Byte) : TableEntry.Statement (.ldxZp zp) := fun _ => row 0xA6 (some ⟨.ldx, .zeroPage, 2⟩) (by decide)
theorem TableEntry.ldxAbs (addr : Word) : TableEntry.Statement (.ldxAbs addr) := fun _ => row 0xAE (some ⟨.ldx, .absolute, 3⟩) (by decide)
theorem TableEntry.ldxZpY (zp : Byte) : TableEntry.Statement (.ldxZpY zp) := fun _ => row 0xB6 (some ⟨.ldx, .zeroPageY, 2⟩) (by decide)
theorem TableEntry.ldxAbsY (addr : Word) : TableEntry.Statement (.ldxAbsY addr) := fun _ => row 0xBE (some ⟨.ldx, .absoluteY, 3⟩) (by decide)
theorem TableEntry.ldyImm (v : Byte) : TableEntry.Statement (.ldyImm v) := fun _ => row 0xA0 (some ⟨.ldy, .immediate, 2⟩) (by decide)
theorem TableEntry.ldyZp (zp : Byte) : TableEntry.Statement (.ldyZp zp) := fun _ => row 0xA4 (some ⟨.ldy, .zeroPage, 2⟩) (by decide)
theorem TableEntry.ldyAbs (addr : Word) : TableEntry.Statement (.ldyAbs addr) := fun _ => row 0xAC (some ⟨.ldy, .absolute, 3⟩) (by decide)
theorem TableEntry.ldyZpX (zp : Byte) : TableEntry.Statement (.ldyZpX zp) := fun _ => row 0xB4 (some ⟨.ldy, .zeroPageX, 2⟩) (by decide)
theorem TableEntry.ldyAbsX (addr : Word) : TableEntry.Statement (.ldyAbsX addr) := fun _ => row 0xBC (some ⟨.ldy, .absoluteX, 3⟩) (by decide)
theorem TableEntry.staIndX (zp : Byte) : TableEntry.Statement (.staIndX zp) := fun _ => row 0x81 (some ⟨.sta, .indexedIndirect, 2⟩) (by decide)
theorem TableEntry.staZp (zp : Byte) : TableEntry.Statement (.staZp zp) := fun _ => row 0x85 (some ⟨.sta, .zeroPage, 2⟩) (by decide)
theorem TableEntry.staAbs (addr : Word) : TableEntry.Statement (.staAbs addr) := fun _ => row 0x8D (some ⟨.sta, .absolute, 3⟩) (by decide)
theorem TableEntry.staIndY (zp : Byte) : TableEntry.Statement (.staIndY zp) := fun _ => row 0x91 (some ⟨.sta, .indirectIndexed, 2⟩) (by decide)
theorem TableEntry.staZpX (zp : Byte) : TableEntry.Statement (.staZpX zp) := fun _ => row 0x95 (some ⟨.sta, .zeroPageX, 2⟩) (by decide)
theorem TableEntry.staAbsY (addr : Word) : TableEntry.Statement (.staAbsY addr) := fun _ => row 0x99 (some ⟨.sta, .absoluteY, 3⟩) (by decide)
theorem TableEntry.staAbsX (addr : Word) : TableEntry.Statement (.staAbsX addr) := fun _ => row 0x9D (some ⟨.sta, .absoluteX, 3⟩) (by decide)
theorem TableEntry.stxZp (zp : Byte) : TableEntry.Statement (.stxZp zp) := fun _ => row 0x86 (some ⟨.stx, .zeroPage, 2⟩) (by decide)
theorem TableEntry.stxAbs (addr : Word) : TableEntry.Statement (.stxAbs addr) := fun _ => row 0x8E (some ⟨.stx, .absolute, 3⟩) (by decide)
theorem TableEntry.stxZpY (zp : Byte) : TableEntry.Statement (.stxZpY zp) := fun _ => row 0x96 (some ⟨.stx, .zeroPageY, 2⟩) (by decide)
theorem TableEntry.styZp (zp : Byte) : TableEntry.Statement (.styZp zp) := fun _ => row 0x84 (some ⟨.sty, .zeroPage, 2⟩) (by decide)
theorem TableEntry.styAbs (addr : Word) : TableEntry.Statement (.styAbs addr) := fun _ => row 0x8C (some ⟨.sty, .absolute, 3⟩) (by decide)
theorem TableEntry.styZpX (zp : Byte) : TableEntry.Statement (.styZpX zp) := fun _ => row 0x94 (some ⟨.sty, .zeroPageX, 2⟩) (by decide)
theorem TableEntry.tax : TableEntry.Statement .tax := fun _ => row 0xAA (some ⟨.tax, .implied, 1⟩) (by decide)
theorem TableEntry.tay : TableEntry.Statement .tay := fun _ => row 0xA8 (some ⟨.tay, .implied, 1⟩) (by decide)
theorem TableEntry.txa : TableEntry.Statement .txa := fun _ => row 0x8A (some ⟨.txa, .implied, 1⟩) (by decide)
theorem TableEntry.tya : TableEntry.Statement .tya := fun _ => row 0x98 (some ⟨.tya, .implied, 1⟩) (by decide)
theorem TableEntry.tsx : TableEntry.Statement .tsx := fun _ => row 0xBA (some ⟨.tsx, .implied, 1⟩) (by decide)
theorem TableEntry.txs : TableEntry.Statement .txs := fun _ => row 0x9A (some ⟨.txs, .implied, 1⟩) (by decide)
theorem TableEntry.pha : TableEntry.Statement .pha := fun _ => row 0x48 (some ⟨.pha, .implied, 1⟩) (by decide)
theorem TableEntry.php : TableEntry.Statement .php := fun _ => row 0x08 (some ⟨.php, .implied, 1⟩) (by decide)
theorem TableEntry.pla : TableEntry.Statement .pla := fun _ => row 0x68 (some ⟨.pla, .implied, 1⟩) (by decide)
theorem TableEntry.plp : TableEntry.Statement .plp := fun _ => row 0x28 (some ⟨.plp, .implied, 1⟩) (by decide)
theorem TableEntry.adcIndX (zp : Byte) : TableEntry.Statement (.adcIndX zp) := fun _ => row 0x61 (some ⟨.adc, .indexedIndirect, 2⟩) (by decide)
theorem TableEntry.adcZp (zp : Byte) : TableEntry.Statement (.adcZp zp) := fun _ => row 0x65 (some ⟨.adc, .zeroPage, 2⟩) (by decide)
theorem TableEntry.adcImm (v : Byte) : TableEntry.Statement (.adcImm v) := fun _ => row 0x69 (some ⟨.adc, .immediate, 2⟩) (by decide)
theorem TableEntry.adcAbs (addr : Word) : TableEntry.Statement (.adcAbs addr) := fun _ => row 0x6D (some ⟨.adc, .absolute, 3⟩) (by decide)
theorem TableEntry.adcIndY (zp : Byte) : TableEntry.Statement (.adcIndY zp) := fun _ => row 0x71 (some ⟨.adc, .indirectIndexed, 2⟩) (by decide)
theorem TableEntry.adcZpX (zp : Byte) : TableEntry.Statement (.adcZpX zp) := fun _ => row 0x75 (some ⟨.adc, .zeroPageX, 2⟩) (by decide)
theorem TableEntry.adcAbsY (addr : Word) : TableEntry.Statement (.adcAbsY addr) := fun _ => row 0x79 (some ⟨.adc, .absoluteY, 3⟩) (by decide)
theorem TableEntry.adcAbsX (addr : Word) : TableEntry.Statement (.adcAbsX addr) := fun _ => row 0x7D (some ⟨.adc, .absoluteX, 3⟩) (by decide)
theorem TableEntry.sbcIndX (zp : Byte) : TableEntry.Statement (.sbcIndX zp) := fun _ => row 0xE1 (some ⟨.sbc, .indexedIndirect, 2⟩) (by decide)
theorem TableEntry.sbcZp (zp : Byte) : TableEntry.Statement (.sbcZp zp) := fun _ => row 0xE5 (some ⟨.sbc, .zeroPage, 2⟩) (by decide)
theorem TableEntry.sbcImm (v : Byte) : TableEntry.Statement (.sbcImm v) := fun _ => row 0xE9 (some ⟨.sbc, .immediate, 2⟩) (by decide)
theorem TableEntry.sbcAbs (addr : Word) : TableEntry.Statement (.sbcAbs addr) := fun _ => row 0xED (some ⟨.sbc, .absolute, 3⟩) (by decide)
theorem TableEntry.sbcIndY (zp : Byte) : TableEntry.Statement (.sbcIndY zp) := fun _ => row 0xF1 (some ⟨.sbc, .indirectIndexed, 2⟩) (by decide)
theorem TableEntry.sbcZpX (zp : Byte) : TableEntry.Statement (.sbcZpX zp) := fun _ => row 0xF5 (some ⟨.sbc, .zeroPageX, 2⟩) (by decide)
theorem TableEntry.sbcAbsY (addr : Word) : TableEntry.Statement (.sbcAbsY addr) := fun _ => row 0xF9 (some ⟨.sbc, .absoluteY, 3⟩) (by decide)
theorem TableEntry.sbcAbsX (addr : Word) : TableEntry.Statement (.sbcAbsX addr) := fun _ => row 0xFD (some ⟨.sbc, .absoluteX, 3⟩) (by decide)
theorem TableEntry.cmpIndX (zp : Byte) : TableEntry.Statement (.cmpIndX zp) := fun _ => row 0xC1 (some ⟨.cmp, .indexedIndirect, 2⟩) (by decide)
theorem TableEntry.cmpZp (zp : Byte) : TableEntry.Statement (.cmpZp zp) := fun _ => row 0xC5 (some ⟨.cmp, .zeroPage, 2⟩) (by decide)
theorem TableEntry.cmpImm (v : Byte) : TableEntry.Statement (.cmpImm v) := fun _ => row 0xC9 (some ⟨.cmp, .immediate, 2⟩) (by decide)
theorem TableEntry.cmpAbs (addr : Word) : TableEntry.Statement (.cmpAbs addr) := fun _ => row 0xCD (some ⟨.cmp, .absolute, 3⟩) (by decide)
theorem TableEntry.cmpIndY (zp : Byte) : TableEntry.Statement (.cmpIndY zp) := fun _ => row 0xD1 (some ⟨.cmp, .indirectIndexed, 2⟩) (by decide)
theorem TableEntry.cmpZpX (zp : Byte) : TableEntry.Statement (.cmpZpX zp) := fun _ => row 0xD5 (some ⟨.cmp, .zeroPageX, 2⟩) (by decide)
theorem TableEntry.cmpAbsY (addr : Word) : TableEntry.Statement (.cmpAbsY addr) := fun _ => row 0xD9 (some ⟨.cmp, .absoluteY, 3⟩) (by decide)
theorem TableEntry.cmpAbsX (addr : Word) : TableEntry.Statement (.cmpAbsX addr) := fun _ => row 0xDD (some ⟨.cmp, .absoluteX, 3⟩) (by decide)
theorem TableEntry.cpxImm (v : Byte) : TableEntry.Statement (.cpxImm v) := fun _ => row 0xE0 (some ⟨.cpx, .immediate, 2⟩) (by decide)
theorem TableEntry.cpxZp (zp : Byte) : TableEntry.Statement (.cpxZp zp) := fun _ => row 0xE4 (some ⟨.cpx, .zeroPage, 2⟩) (by decide)
theorem TableEntry.cpxAbs (addr : Word) : TableEntry.Statement (.cpxAbs addr) := fun _ => row 0xEC (some ⟨.cpx, .absolute, 3⟩) (by decide)
theorem TableEntry.cpyImm (v : Byte) : TableEntry.Statement (.cpyImm v) := fun _ => row 0xC0 (some ⟨.cpy, .immediate, 2⟩) (by decide)
theorem TableEntry.cpyZp (zp : Byte) : TableEntry.Statement (.cpyZp zp) := fun _ => row 0xC4 (some ⟨.cpy, .zeroPage, 2⟩) (by decide)
theorem TableEntry.cpyAbs (addr : Word) : TableEntry.Statement (.cpyAbs addr) := fun _ => row 0xCC (some ⟨.cpy, .absolute, 3⟩) (by decide)
theorem TableEntry.incZp (zp : Byte) : TableEntry.Statement (.incZp zp) := fun _ => row 0xE6 (some ⟨.inc, .zeroPage, 2⟩) (by decide)
theorem TableEntry.incAbs (addr : Word) : TableEntry.Statement (.incAbs addr) := fun _ => row 0xEE (some ⟨.inc, .absolute, 3⟩) (by decide)
theorem TableEntry.incZpX (zp : Byte) : TableEntry.Statement (.incZpX zp) := fun _ => row 0xF6 (some ⟨.inc, .zeroPageX, 2⟩) (by decide)
theorem TableEntry.incAbsX (addr : Word) : TableEntry.Statement (.incAbsX addr) := fun _ => row 0xFE (some ⟨.inc, .absoluteX, 3⟩) (by decide)
theorem TableEntry.decZp (zp : Byte) : TableEntry.Statement (.decZp zp) := fun _ => row 0xC6 (some ⟨.dec, .zeroPage, 2⟩) (by decide)
theorem TableEntry.decAbs (addr : Word) : TableEntry.Statement (.decAbs addr) := fun _ => row 0xCE (some ⟨.dec, .absolute, 3⟩) (by decide)
theorem TableEntry.decZpX (zp : Byte) : TableEntry.Statement (.decZpX zp) := fun _ => row 0xD6 (some ⟨.dec, .zeroPageX, 2⟩) (by decide)
theorem TableEntry.decAbsX (addr : Word) : TableEntry.Statement (.decAbsX addr) := fun _ => row 0xDE (some ⟨.dec, .absoluteX, 3⟩) (by decide)
theorem TableEntry.inx : TableEntry.Statement .inx := fun _ => row 0xE8 (some ⟨.inx, .implied, 1⟩) (by decide)
theorem TableEntry.iny : TableEntry.Statement .iny := fun _ => row 0xC8 (some ⟨.iny, .implied, 1⟩) (by decide)
theorem TableEntry.dex : TableEntry.Statement .dex := fun _ => row 0xCA (some ⟨.dex, .implied, 1⟩) (by decide)
theorem TableEntry.dey : TableEntry.Statement .dey := fun _ => row 0x88 (some ⟨.dey, .implied, 1⟩) (by decide)
theorem TableEntry.andIndX (zp : Byte) : TableEntry.Statement (.andIndX zp) := fun _ => row 0x21 (some ⟨.and, .indexedIndirect, 2⟩) (by decide)
theorem TableEntry.andZp (zp : Byte) : TableEntry.Statement (.andZp zp) := fun _ => row 0x25 (some ⟨.and, .zeroPage, 2⟩) (by decide)
theorem TableEntry.andImm (v : Byte) : TableEntry.Statement (.andImm v) := fun _ => row 0x29 (some ⟨.and, .immediate, 2⟩) (by decide)
theorem TableEntry.andAbs (addr : Word) : TableEntry.Statement (.andAbs addr) := fun _ => row 0x2D (some ⟨.and, .absolute, 3⟩) (by decide)
theorem TableEntry.andIndY (zp : Byte) : TableEntry.Statement (.andIndY zp) := fun _ => row 0x31 (some ⟨.and, .indirectIndexed, 2⟩) (by decide)
theorem TableEntry.andZpX (zp : Byte) : TableEntry.Statement (.andZpX zp) := fun _ => row 0x35 (some ⟨.and, .zeroPageX, 2⟩) (by decide)
theorem TableEntry.andAbsY (addr : Word) : TableEntry.Statement (.andAbsY addr) := fun _ => row 0x39 (some ⟨.and, .absoluteY, 3⟩) (by decide)
theorem TableEntry.andAbsX (addr : Word) : TableEntry.Statement (.andAbsX addr) := fun _ => row 0x3D (some ⟨.and, .absoluteX, 3⟩) (by decide)
theorem TableEntry.oraIndX (zp : Byte) : TableEntry.Statement (.oraIndX zp) := fun _ => row 0x01 (some ⟨.ora, .indexedIndirect, 2⟩) (by decide)
theorem TableEntry.oraZp (zp : Byte) : TableEntry.Statement (.oraZp zp) := fun _ => row 0x05 (some ⟨.ora, .zeroPage, 2⟩) (by decide)
theorem TableEntry.oraImm (v : Byte) : TableEntry.Statement (.oraImm v) := fun _ => row 0x09 (some ⟨.ora, .immediate, 2⟩) (by decide)
theorem TableEntry.oraAbs (addr : Word) : TableEntry.Statement (.oraAbs addr) := fun _ => row 0x0D (some ⟨.ora, .absolute, 3⟩) (by decide)
theorem TableEntry.oraIndY (zp : Byte) : TableEntry.Statement (.oraIndY zp) := fun _ => row 0x11 (some ⟨.ora, .indirectIndexed, 2⟩) (by decide)
theorem TableEntry.oraZpX (zp : Byte) : TableEntry.Statement (.oraZpX zp) := fun _ => row 0x15 (some ⟨.ora, .zeroPageX, 2⟩) (by decide)
theorem TableEntry.oraAbsY (addr : Word) : TableEntry.Statement (.oraAbsY addr) := fun _ => row 0x19 (some ⟨.ora, .absoluteY, 3⟩) (by decide)
theorem TableEntry.oraAbsX (addr : Word) : TableEntry.Statement (.oraAbsX addr) := fun _ => row 0x1D (some ⟨.ora, .absoluteX, 3⟩) (by decide)
theorem TableEntry.eorIndX (zp : Byte) : TableEntry.Statement (.eorIndX zp) := fun _ => row 0x41 (some ⟨.eor, .indexedIndirect, 2⟩) (by decide)
theorem TableEntry.eorZp (zp : Byte) : TableEntry.Statement (.eorZp zp) := fun _ => row 0x45 (some ⟨.eor, .zeroPage, 2⟩) (by decide)
theorem TableEntry.eorImm (v : Byte) : TableEntry.Statement (.eorImm v) := fun _ => row 0x49 (some ⟨.eor, .immediate, 2⟩) (by decide)
theorem TableEntry.eorAbs (addr : Word) : TableEntry.Statement (.eorAbs addr) := fun _ => row 0x4D (some ⟨.eor, .absolute, 3⟩) (by decide)
theorem TableEntry.eorIndY (zp : Byte) : TableEntry.Statement (.eorIndY zp) := fun _ => row 0x51 (some ⟨.eor, .indirectIndexed, 2⟩) (by decide)
theorem TableEntry.eorZpX (zp : Byte) : TableEntry.Statement (.eorZpX zp) := fun _ => row 0x55 (some ⟨.eor, .zeroPageX, 2⟩) (by decide)
theorem TableEntry.eorAbsY (addr : Word) : TableEntry.Statement (.eorAbsY addr) := fun _ => row 0x59 (some ⟨.eor, .absoluteY, 3⟩) (by decide)
theorem TableEntry.eorAbsX (addr : Word) : TableEntry.Statement (.eorAbsX addr) := fun _ => row 0x5D (some ⟨.eor, .absoluteX, 3⟩) (by decide)
theorem TableEntry.bitZp (zp : Byte) : TableEntry.Statement (.bitZp zp) := fun _ => row 0x24 (some ⟨.bit, .zeroPage, 2⟩) (by decide)
theorem TableEntry.bitAbs (addr : Word) : TableEntry.Statement (.bitAbs addr) := fun _ => row 0x2C (some ⟨.bit, .absolute, 3⟩) (by decide)
theorem TableEntry.aslZp (zp : Byte) : TableEntry.Statement (.aslZp zp) := fun _ => row 0x06 (some ⟨.asl, .zeroPage, 2⟩) (by decide)
theorem TableEntry.aslAcc : TableEntry.Statement .aslAcc := fun _ => row 0x0A (some ⟨.asl, .accumulator, 1⟩) (by decide)
theorem TableEntry.aslAbs (addr : Word) : TableEntry.Statement (.aslAbs addr) := fun _ => row 0x0E (some ⟨.asl, .absolute, 3⟩) (by decide)
theorem TableEntry.aslZpX (zp : Byte) : TableEntry.Statement (.aslZpX zp) := fun _ => row 0x16 (some ⟨.asl, .zeroPageX, 2⟩) (by decide)
theorem TableEntry.aslAbsX (addr : Word) : TableEntry.Statement (.aslAbsX addr) := fun _ => row 0x1E (some ⟨.asl, .absoluteX, 3⟩) (by decide)
theorem TableEntry.lsrZp (zp : Byte) : TableEntry.Statement (.lsrZp zp) := fun _ => row 0x46 (some ⟨.lsr, .zeroPage, 2⟩) (by decide)
theorem TableEntry.lsrAcc : TableEntry.Statement .lsrAcc := fun _ => row 0x4A (some ⟨.lsr, .accumulator, 1⟩) (by decide)
theorem TableEntry.lsrAbs (addr : Word) : TableEntry.Statement (.lsrAbs addr) := fun _ => row 0x4E (some ⟨.lsr, .absolute, 3⟩) (by decide)
theorem TableEntry.lsrZpX (zp : Byte) : TableEntry.Statement (.lsrZpX zp) := fun _ => row 0x56 (some ⟨.lsr, .zeroPageX, 2⟩) (by decide)
theorem TableEntry.lsrAbsX (addr : Word) : TableEntry.Statement (.lsrAbsX addr) := fun _ => row 0x5E (some ⟨.lsr, .absoluteX, 3⟩) (by decide)
theorem TableEntry.rolZp (zp : Byte) : TableEntry.Statement (.rolZp zp) := fun _ => row 0x26 (some ⟨.rol, .zeroPage, 2⟩) (by decide)
theorem TableEntry.rolAcc : TableEntry.Statement .rolAcc := fun _ => row 0x2A (some ⟨.rol, .accumulator, 1⟩) (by decide)
theorem TableEntry.rolAbs (addr : Word) : TableEntry.Statement (.rolAbs addr) := fun _ => row 0x2E (some ⟨.rol, .absolute, 3⟩) (by decide)
theorem TableEntry.rolZpX (zp : Byte) : TableEntry.Statement (.rolZpX zp) := fun _ => row 0x36 (some ⟨.rol, .zeroPageX, 2⟩) (by decide)
theorem TableEntry.rolAbsX (addr : Word) : TableEntry.Statement (.rolAbsX addr) := fun _ => row 0x3E (some ⟨.rol, .absoluteX, 3⟩) (by decide)
theorem TableEntry.rorZp (zp : Byte) : TableEntry.Statement (.rorZp zp) := fun _ => row 0x66 (some ⟨.ror, .zeroPage, 2⟩) (by decide)
theorem TableEntry.rorAcc : TableEntry.Statement .rorAcc := fun _ => row 0x6A (some ⟨.ror, .accumulator, 1⟩) (by decide)
theorem TableEntry.rorAbs (addr : Word) : TableEntry.Statement (.rorAbs addr) := fun _ => row 0x6E (some ⟨.ror, .absolute, 3⟩) (by decide)
theorem TableEntry.rorZpX (zp : Byte) : TableEntry.Statement (.rorZpX zp) := fun _ => row 0x76 (some ⟨.ror, .zeroPageX, 2⟩) (by decide)
theorem TableEntry.rorAbsX (addr : Word) : TableEntry.Statement (.rorAbsX addr) := fun _ => row 0x7E (some ⟨.ror, .absoluteX, 3⟩) (by decide)
theorem TableEntry.jmpAbs (addr : Word) : TableEntry.Statement (.jmpAbs addr) := fun _ => row 0x4C (some ⟨.jmp, .absolute, 3⟩) (by decide)
theorem TableEntry.jmpInd (addr : Word) : TableEntry.Statement (.jmpInd addr) := fun _ => row 0x6C (some ⟨.jmp, .indirect, 3⟩) (by decide)
theorem TableEntry.jsr (addr : Word) : TableEntry.Statement (.jsr addr) := fun _ => row 0x20 (some ⟨.jsr, .absolute, 3⟩) (by decide)
theorem TableEntry.rts : TableEntry.Statement .rts := fun _ => row 0x60 (some ⟨.rts, .implied, 1⟩) (by decide)
theorem TableEntry.rti : TableEntry.Statement .rti := fun _ => row 0x40 (some ⟨.rti, .implied, 1⟩) (by decide)
theorem TableEntry.brk : TableEntry.Statement .brk := fun _ => row 0x00 (some ⟨.brk, .implied, 1⟩) (by decide)
theorem TableEntry.bcc (off : Byte) : TableEntry.Statement (.bcc off) := fun _ => row 0x90 (some ⟨.bcc, .relative, 2⟩) (by decide)
theorem TableEntry.bcs (off : Byte) : TableEntry.Statement (.bcs off) := fun _ => row 0xB0 (some ⟨.bcs, .relative, 2⟩) (by decide)
theorem TableEntry.beq (off : Byte) : TableEntry.Statement (.beq off) := fun _ => row 0xF0 (some ⟨.beq, .relative, 2⟩) (by decide)
theorem TableEntry.bmi (off : Byte) : TableEntry.Statement (.bmi off) := fun _ => row 0x30 (some ⟨.bmi, .relative, 2⟩) (by decide)
theorem TableEntry.bne (off : Byte) : TableEntry.Statement (.bne off) := fun _ => row 0xD0 (some ⟨.bne, .relative, 2⟩) (by decide)
theorem TableEntry.bpl (off : Byte) : TableEntry.Statement (.bpl off) := fun _ => row 0x10 (some ⟨.bpl, .relative, 2⟩) (by decide)
theorem TableEntry.bvc (off : Byte) : TableEntry.Statement (.bvc off) := fun _ => row 0x50 (some ⟨.bvc, .relative, 2⟩) (by decide)
theorem TableEntry.bvs (off : Byte) : TableEntry.Statement (.bvs off) := fun _ => row 0x70 (some ⟨.bvs, .relative, 2⟩) (by decide)
theorem TableEntry.clc : TableEntry.Statement .clc := fun _ => row 0x18 (some ⟨.clc, .implied, 1⟩) (by decide)
theorem TableEntry.cld : TableEntry.Statement .cld := fun _ => row 0xD8 (some ⟨.cld, .implied, 1⟩) (by decide)
theorem TableEntry.cli : TableEntry.Statement .cli := fun _ => row 0x58 (some ⟨.cli, .implied, 1⟩) (by decide)
theorem TableEntry.clv : TableEntry.Statement .clv := fun _ => row 0xB8 (some ⟨.clv, .implied, 1⟩) (by decide)
theorem TableEntry.sec : TableEntry.Statement .sec := fun _ => row 0x38 (some ⟨.sec, .implied, 1⟩) (by decide)
theorem TableEntry.sed : TableEntry.Statement .sed := fun _ => row 0xF8 (some ⟨.sed, .implied, 1⟩) (by decide)
theorem TableEntry.sei : TableEntry.Statement .sei := fun _ => row 0x78 (some ⟨.sei, .implied, 1⟩) (by decide)
theorem TableEntry.nop : TableEntry.Statement .nop := fun _ => row 0xEA (some ⟨.nop, .implied, 1⟩) (by decide)

/-- The opcode table has none of the 105 bytes (R88). -/
theorem metadata_unimplemented : ∀ op ∈ unimplementedBytes, metadata op = none := by decide

theorem TableEntry.unimplemented (op : Byte) : TableEntry.Statement (.unimplemented op) := fun h =>
  metadata_unimplemented op (by simpa [Instr.wellFormed] using h)

end Sys2Proof.Laws
end

