-- ==== Sys2Proof/Laws/Decode.lean ====
section
/-!
SUPPORT. The decoder and the encoder by the rows of the opcode table: what a row's form makes of its bytes, and what
decode answers on an opcode of each form.
-/

namespace Sys2Proof
open Laws

@[simp] theorem wordOf_low_high (w : Word) : wordOf (highByte w) (lowByte w) = w := by
  apply BitVec.eq_of_getLsbD_eq
  intro i hi
  simp only [wordOf, highByte, lowByte, BitVec.getLsbD_append, BitVec.getLsbD_setWidth, BitVec.getLsbD_ushiftRight]
  by_cases h : i < 8
  · simp [h]
  · simp [h]
    have : 8 + (i - 8) = i := by omega
    rw [this]; simp; omega

@[simp] theorem low_wordOf (h l : Byte) : lowByte (wordOf h l) = l := by
  apply BitVec.eq_of_getLsbD_eq
  intro i hi
  simp only [lowByte, wordOf, BitVec.getLsbD_append, BitVec.getLsbD_setWidth]
  simp [hi]

@[simp] theorem high_wordOf (h l : Byte) : highByte (wordOf h l) = h := by
  apply BitVec.eq_of_getLsbD_eq
  intro i hi
  simp only [highByte, wordOf, BitVec.getLsbD_append, BitVec.getLsbD_setWidth, BitVec.getLsbD_ushiftRight]
  simp [hi]

theorem findRow_mem {op : Byte} {rs : List Row} {r : Row} (h : findRow op rs = some r) : r ∈ rs ∧ r.opcode = op := by
  induction rs with
  | nil => cases h
  | cons x xs ih =>
    unfold findRow at h
    split at h
    · cases h; exact ⟨List.mem_cons_self, ‹_›⟩
    · exact ⟨List.mem_cons_of_mem _ (ih h).1, (ih h).2⟩

theorem decode_cons (op : Byte) (rest : List Byte) : decode (op :: rest) =
    match operandBytesOf op, rest with
    | 0, rest => .ok (instrOf op 0 0, rest)
    | 1, b1 :: rest => .ok (instrOf op b1 0, rest)
    | 2, b1 :: b2 :: rest => .ok (instrOf op b1 b2, rest)
    | _, _ => .error (.missingOperand op) := rfl

theorem decode_f1 {op : Byte} {r : Row} {i : Instr} (hr : rowOf op = some r) (hm : r.entry.mode.operandBytes = 0) (hf : r.form = .f1 i) (rest : List Byte) :
    decode (op :: rest) = .ok (i, rest) := by
  have : operandBytesOf op = 0 := by simp [operandBytesOf, metadata, hr, hm]
  rw [decode_cons, this]; simp [instrOf, hr, hf, RowForm.apply]

theorem decode_f2 {op : Byte} {r : Row} {b : Byte → Instr} (hr : rowOf op = some r) (hm : r.entry.mode.operandBytes = 1) (hf : r.form = .f2 b) (x : Byte) (rest : List Byte) :
    decode (op :: x :: rest) = .ok (b x, rest) := by
  have : operandBytesOf op = 1 := by simp [operandBytesOf, metadata, hr, hm]
  rw [decode_cons, this]; simp [instrOf, hr, hf, RowForm.apply]

theorem decode_f3 {op : Byte} {r : Row} {b : Word → Instr} (hr : rowOf op = some r) (hm : r.entry.mode.operandBytes = 2) (hf : r.form = .f3 b) (w : Word) (rest : List Byte) :
    decode (op :: lowByte w :: highByte w :: rest) = .ok (b w, rest) := by
  have : operandBytesOf op = 2 := by simp [operandBytesOf, metadata, hr, hm]
  rw [decode_cons, this]; simp [instrOf, hr, hf, RowForm.apply, wordOf_low_high]

/-- What a row's form makes of two bytes encodes to the opcode and as many of them as the mode has. -/
def RowOk (r : Row) : Prop :=
  ∀ b1 b2, (r.form.apply b1 b2).wellFormed = true ∧ (r.form.apply b1 b2).entry = some r.entry ∧
    encode (r.form.apply b1 b2) = r.opcode :: [b1, b2].take r.entry.mode.operandBytes

theorem rowsOk : ∀ r ∈ opcodeTable, RowOk r := by
  simp only [opcodeTable, rows0, rows1, rows2, rows3, rows4, rows5, rows6, rows7, rows8, rows9, rowsA, rowsB, rowsC, rowsD, rowsE, rowsF,
    List.cons_append, List.nil_append, List.forall_mem_cons]
  repeat' apply And.intro
  all_goals first
    | (intro b1 b2; exact ⟨rfl, rfl, rfl⟩)
    | (intro b1 b2; refine ⟨rfl, rfl, ?_⟩; simp [RowForm.apply, encode, low_wordOf, high_wordOf, Mode.operandBytes])
    | (intro r h; cases h)

theorem rowsOf_sub (n : Nat) : ∀ r ∈ rowsOf n, r ∈ opcodeTable := by
  intro r h
  unfold rowsOf at h
  simp only [opcodeTable, List.mem_append]
  split at h <;> simp [h]

theorem rowOf_ok {op : Byte} {r : Row} (h : rowOf op = some r) : RowOk r ∧ r.opcode = op :=
  have := findRow_mem h
  ⟨rowsOk r (rowsOf_sub _ r this.1), this.2⟩

theorem rowOf_none {op : Byte} : rowOf op = none ↔ op ∈ unimplementedBytes := by
  have : ∀ op : Byte, metadata op = none ↔ op ∈ unimplementedBytes := by decide
  rw [← this, metadata, Option.map_eq_none_iff]

theorem mode_operandBytes (m : Mode) : m.operandBytes = 0 ∨ m.operandBytes = 1 ∨ m.operandBytes = 2 := by
  cases m <;> simp [Mode.operandBytes]

theorem operandBytesOf_le (op : Byte) : operandBytesOf op ≤ 2 := by
  unfold operandBytesOf; split
  · next e _ => rcases mode_operandBytes e.mode with h | h | h <;> omega
  · omega

/-- The instruction of an opcode byte and of operand bytes that are 0 where its mode has none. -/
theorem instrOf_facts (op b1 b2 : Byte) (h0 : operandBytesOf op = 0 → b1 = 0) (h1 : operandBytesOf op ≤ 1 → b2 = 0) :
    (instrOf op b1 b2).wellFormed = true ∧ (instrOf op b1 b2).entry = metadata op ∧
    (encode (instrOf op b1 b2)).length = 1 + operandBytesOf op ∧
    (instrOf op b1 b2).byte1 = b1 ∧ (instrOf op b1 b2).byte2 = b2 := by
  cases hr : rowOf op with
  | none =>
    have hm : metadata op = none := by simp [metadata, hr]
    have ho : operandBytesOf op = 0 := by simp [operandBytesOf, hm]
    have := h0 ho; have := h1 (by omega)
    subst b1 b2
    simp only [instrOf, hr]
    exact ⟨by simpa [Instr.wellFormed] using rowOf_none.1 hr, hm.symm, by rw [ho]; rfl, rfl, rfl⟩
  | some r =>
    obtain ⟨hok, rfl⟩ := rowOf_ok hr
    have hm : metadata r.opcode = some r.entry := by simp [metadata, hr]
    have ho : operandBytesOf r.opcode = r.entry.mode.operandBytes := by simp [operandBytesOf, hm]
    simp only [instrOf, hr]
    obtain ⟨h2, h3, h4⟩ := hok b1 b2
    rw [ho] at h0 h1 ⊢
    refine ⟨h2, by rw [h3, hm], ?_, ?_, ?_⟩
    · rw [h4]; rcases mode_operandBytes r.entry.mode with h | h | h <;> rw [h] <;> rfl
    · rw [Instr.byte1, h4]; rcases mode_operandBytes r.entry.mode with h | h | h <;> rw [h] at h0 ⊢ <;> simp at h0 ⊢ <;> exact h0.symm
    · rw [Instr.byte2, h4]; rcases mode_operandBytes r.entry.mode with h | h | h <;> rw [h] at h1 ⊢ <;> simp at h1 ⊢ <;> exact h1.symm

/-- The instruction at the head of three bytes. -/
theorem decode3 {op b1 b2 : Byte} {i : Instr} {rest : List Byte} (h : decode [op, b1, b2] = .ok (i, rest)) :
    i = instrOf op (if 1 ≤ operandBytesOf op then b1 else 0) (if 2 ≤ operandBytesOf op then b2 else 0) := by
  rw [decode_cons] at h
  have := operandBytesOf_le op
  generalize operandBytesOf op = k at *
  match k, this with
  | 0, _ => simp at h; exact h.1.symm
  | 1, _ => simp at h; exact h.1.symm
  | 2, _ => simp at h; exact h.1.symm

end Sys2Proof
end

