-- ==== Sys2Proof/Laws/Step.lean ====
section
/-!
SUPPORT. The first part of a step: the enabling condition and the counted reads of the instruction's bytes, on any
machine and on a quiet one.
-/

namespace Sys2Proof.Machine

theorem whenEnabled_eq {s : State} (h1 : s.resetDone = true) (h2 : s.fault = none) (o : Host.Outcome State Fault Refusal) :
    whenEnabled s o = o := by simp [whenEnabled, h1, h2]

theorem readOperands_effect {k : Nat} {s u : State} {b1 b2 : Byte} (h : readOperands k s = .next ((b1, b2), u)) (hk : k ≤ 2) :
    ReadEffect k s u ∧ (k = 0 → b1 = 0) ∧ (k ≤ 1 → b2 = 0) := by
  match k, hk with
  | 0, _ => cases h; exact ⟨.refl s, fun _ => rfl, fun _ => rfl⟩
  | 1, _ =>
    simp only [readOperands, andThen_eq_next, Prod.exists, Host.Outcome.next.injEq, Prod.mk.injEq] at h
    obtain ⟨a, t, h1, ⟨-, rfl⟩, rfl⟩ := h
    exact ⟨memRead_effect h1, by simp, fun _ => rfl⟩
  | 2, _ =>
    simp only [readOperands, andThen_eq_next, Prod.exists, Host.Outcome.next.injEq, Prod.mk.injEq] at h
    obtain ⟨a, t, h1, b, w, h2, ⟨-, -⟩, rfl⟩ := h
    exact ⟨(memRead_effect h1).trans (memRead_effect h2), by simp, by simp⟩

/-- What fetch answers: the instruction of the bytes it read, after one counted read for each. -/
theorem fetchInstr_eq_next {s u : State} {i : Instr} (h : fetchInstr s = .next (i, u)) :
    ∃ op v b1 b2, memRead s.pc s = .next (op, v) ∧ i = instrOf op b1 b2 ∧ ReadEffect (encode i).length s u ∧
      i.wellFormed = true ∧ i.entry = metadata op := by
  simp only [fetchInstr, andThen_eq_next, Prod.exists, Host.Outcome.next.injEq, Prod.mk.injEq] at h
  obtain ⟨op, v, h1, b1, b2, w, h2, rfl, rfl⟩ := h
  obtain ⟨he, h0, h1'⟩ := readOperands_effect h2 (operandBytesOf_le op)
  obtain ⟨f1, f2, f3, -⟩ := instrOf_facts op b1 b2 h0 h1'
  exact ⟨op, v, b1, b2, h1, rfl, by rw [f3]; exact (memRead_effect h1).trans he, f1, f2⟩

theorem Quiet.readOperands {k : Nat} {s : State} (hk : k ≤ 2) (h : Quiet k s) :
    Machine.readOperands k s = .next ((if 1 ≤ k then s.peek (s.pc + 1) else 0, if 2 ≤ k then s.peek (s.pc + 2) else 0), s.addCycles k) := by
  match k, hk with
  | 0, _ => simp [Machine.readOperands, State.addCycles_zero]
  | 1, _ => simp [Machine.readOperands, h.memRead (Nat.le_refl 1)]
  | 2, _ =>
    have h2 := h.addCycles (k := 1) (by omega)
    simp [Machine.readOperands, h.memRead (by omega : 1 ≤ 2), h2.memRead (by omega)]

theorem Quiet.fetchInstr {s : State} (h : Quiet (1 + operandBytesOf (s.peek s.pc)) s) :
    Machine.fetchInstr s = .next (instrOf (s.peek s.pc) (if 1 ≤ operandBytesOf (s.peek s.pc) then s.peek (s.pc + 1) else 0)
      (if 2 ≤ operandBytesOf (s.peek s.pc) then s.peek (s.pc + 2) else 0), s.addCycles (1 + operandBytesOf (s.peek s.pc))) := by
  have h2 := (h.addCycles (k := 1) (by omega)).mono (m := operandBytesOf (s.peek s.pc)) (by omega)
  rw [Machine.fetchInstr, h.memRead (by omega), andThen_next]
  have := Quiet.readOperands (operandBytesOf_le _) h2
  simp only [this, andThen_next, State.addCycles_pc, State.peek_addCycles, State.addCycles_add]

/-- A mode reads no more operand bytes than it has. -/
theorem resolveMode_operands {m : Mode} {b1 b2 c1 c2 : Byte} {s : State} (h1 : 1 ≤ m.operandBytes → c1 = b1) (h2 : 2 ≤ m.operandBytes → c2 = b2) :
    resolveMode m c1 c2 s = resolveMode m b1 b2 s := by
  cases m <;> simp_all [Mode.operandBytes, resolveMode]

end Sys2Proof.Machine
end

