-- ==== Sys2Proof/Laws/Closure.lean ====
section
/-!
SUPPORT. Every step is made of a few moves: a counted read or write, a write of A, X, Y or SP, a write of STATUS that
keeps bits 4 and 5, a write of pc, a counted draw, a fault record. So a relation that holds across each move, and across
their chains, holds across every step, whether the step completes or faults.
-/

namespace Sys2Proof.Machine

/-- A relation between the states before and after that every move keeps. -/
structure Closed (R : State → State → Prop) : Prop where
  refl   : ∀ s, R s s
  trans  : ∀ {s t u}, R s t → R t u → R s u
  read   : ∀ {a s v t}, memRead a s = .next (v, t) → R s t
  write  : ∀ {a v s t}, memWrite a v s = .next t → R s t
  reg    : ∀ {r} v s, r = .accum ∨ r = .indX ∨ r = .indY ∨ r = .stack → R s (s.setReg r v)
  status : ∀ {p s}, p &&& 0x30 = s.reg .status &&& 0x30 → R s (s.setReg .status p)
  pc     : ∀ w s, R s (s.setPc w)
  draw   : ∀ b s, R s (s.countDraw b)
  fault  : ∀ k d s, R s (s.withFault k d)

/-- The relation holds from `s` to what an outcome leaves: the state `f` finds in its value, or the state after its
fault. -/
structure Ends (R : State → State → Prop) {α : Type} (f : α → State) (s : State) (o : Host.Outcome α Fault Refusal) :
    Prop where
  next  : ∀ x, o = .next x → R s (f x)
  fault : ∀ e, o = .fault e → R s e.after

variable {R : State → State → Prop} {s t : State} {α β : Type} {f : α → State} {g : β → State}

theorem Ends.ofNext (x : α) (h : R s (f x)) : Ends R f s (.next x) :=
  ⟨fun _ e => by cases e; exact h, fun _ e => by cases e⟩

theorem Ends.ofRefused (r : Refusal) : Ends R f s (.refused r) := ⟨fun _ e => (by cases e), fun _ e => (by cases e)⟩

theorem Ends.andThen (hR : Closed R) {o : Host.Outcome α Fault Refusal} {k : α → Host.Outcome β Fault Refusal}
    (h : Ends R f s o) (hk : ∀ x, Ends R g (f x) (k x)) : Ends R g s (andThen o k) := by
  cases o with
  | next x =>
    rw [andThen_next]
    exact ⟨fun y e => hR.trans (h.next x rfl) ((hk x).next y e), fun e he => hR.trans (h.next x rfl) ((hk x).fault e he)⟩
  | fault e => exact ⟨fun _ h => (by cases h), fun e' he => (by cases he; exact h.fault e rfl)⟩
  | refused r => exact .ofRefused r

theorem Ends.from (hR : Closed R) (hst : R s t) {o : Host.Outcome α Fault Refusal} (h : Ends R f t o) : Ends R f s o :=
  ⟨fun x e => hR.trans hst (h.next x e), fun x e => hR.trans hst (h.fault x e)⟩

namespace Closed

theorem raise (hR : Closed R) (k : FaultKind) (d : FaultDetail) (s : State) : Ends R f s (Machine.raise k d s) := by
  cases k <;> exact ⟨fun _ e => by simp [Machine.raise] at e, fun _ e => by cases e; exact hR.fault _ d s⟩

theorem memRead (hR : Closed R) (a : Word) (s : State) : Ends R Prod.snd s (Machine.memRead a s) := by
  refine ⟨fun _ => hR.read, fun e h => ?_⟩
  unfold Machine.memRead at h
  split at h
  · exact (hR.raise (f := Prod.snd) _ _ s).fault e h
  · split at h
    · exact (hR.raise (f := Prod.snd) _ _ s).fault e h
    · cases h

theorem memWrite (hR : Closed R) (a : Word) (v : Byte) (s : State) : Ends R id s (Machine.memWrite a v s) := by
  refine ⟨fun _ => hR.write, fun e h => ?_⟩
  unfold Machine.memWrite at h
  split at h
  · exact (hR.raise (f := id) _ _ s).fault e h
  · split at h
    · exact (hR.raise (f := id) _ _ s).fault e h
    · cases h

theorem setFlag (hR : Closed R) {f : Flag} (hb : f ≠ .b) (hu : f ≠ .unused) (b : Bool) (s : State) :
    R s (s.setFlag f b) :=
  hR.status (statusBits_eq (by simp [hb.symm]) (by simp [hu.symm]))

theorem setNZ (hR : Closed R) (v : Byte) (s : State) : R s (s.setNZ v) :=
  hR.trans (hR.setFlag (by decide) (by decide) _ _) (hR.setFlag (by decide) (by decide) _ _)

theorem readWord (hR : Closed R) (lo hi : Word) (s : State) : Ends R Prod.snd s (Machine.readWord lo hi s) :=
  (hR.memRead lo s).andThen hR fun x => (hR.memRead hi x.2).andThen hR fun _ => .ofNext _ (hR.refl _)

theorem push (hR : Closed R) (v : Byte) (s : State) : Ends R id s (Machine.push v s) :=
  (hR.memWrite _ v s).andThen hR fun _ => .ofNext _ (hR.reg _ _ (by simp))

theorem pull (hR : Closed R) (s : State) : Ends R Prod.snd s (Machine.pull s) :=
  .from hR (hR.reg (r := .stack) _ s (by simp)) (hR.memRead _ _)

theorem pushWord (hR : Closed R) (w : Word) (s : State) : Ends R id s (Machine.pushWord w s) :=
  (hR.push _ s).andThen hR fun t => hR.push _ t

theorem pullWord (hR : Closed R) (s : State) : Ends R Prod.snd s (Machine.pullWord s) :=
  (hR.pull s).andThen hR fun x => (hR.pull x.2).andThen hR fun _ => .ofNext _ (hR.refl _)

theorem pullStatus (hR : Closed R) (s : State) : Ends R id s (Machine.pullStatus s) :=
  (hR.pull s).andThen hR fun _ => .ofNext _ (hR.status (pulledStatus_keeps _ _))

theorem takeBreak (hR : Closed R) (s : State) : Ends R id s (Machine.takeBreak s) :=
  (hR.pushWord _ s).andThen hR fun t => (hR.push _ t).andThen hR fun u =>
    .from hR (hR.setFlag (f := .i) (by decide) (by decide) true u)
      ((hR.readWord _ _ _).andThen hR fun _ => .ofNext _ (hR.pc _ _))

theorem returnFromBreak (hR : Closed R) (s : State) : Ends R id s (Machine.returnFromBreak s) :=
  (hR.pullStatus s).andThen hR fun t => (hR.pullWord t).andThen hR fun _ => .ofNext _ (hR.pc _ _)

theorem preRead (hR : Closed R) (ea : Word) (s : State) : Ends R Prod.snd s (Machine.preRead ea s) :=
  (hR.memRead ea s).andThen hR fun _ => .ofNext _ (hR.refl _)

theorem indexedSum (hR : Closed R) (base : Word) (x : Byte) (s : State) :
    Ends R Prod.snd s (Machine.indexedSum base x s) := by
  unfold Machine.indexedSum
  split
  · exact hR.raise _ _ s
  · exact .ofNext _ (hR.refl s)

theorem addressOnly (hR : Closed R) {o : Host.Outcome (Word × State) Fault Refusal} (h : Ends R Prod.snd s o) :
    Ends R Prod.snd s (Machine.addressOnly o) := h.andThen hR fun _ => .ofNext _ (hR.refl _)

theorem resolveMode (hR : Closed R) (m : Mode) (b1 b2 : Byte) (s : State) :
    Ends R Prod.snd s (Machine.resolveMode m b1 b2 s) := by
  cases m
  case absoluteX | absoluteY => exact hR.addressOnly (hR.indexedSum _ _ s)
  case indirect => exact hR.addressOnly (hR.readWord _ _ s)
  case indexedIndirect => exact (hR.readWord _ _ s).andThen hR fun x => hR.preRead x.1 x.2
  case indirectIndexed =>
    exact (hR.readWord _ _ s).andThen hR fun x => (hR.indexedSum x.1 _ x.2).andThen hR fun y => hR.preRead y.1 y.2
  case zeroPage | zeroPageX | zeroPageY => exact hR.preRead _ s
  all_goals exact .ofNext _ (hR.refl s)

theorem operandOf (hR : Closed R) (p : Params) (s : State) : Ends R Prod.snd s (Machine.operandOf p s) := by
  unfold Machine.operandOf
  split
  · exact .ofNext _ (hR.refl s)
  · exact .ofRefused _

theorem load (hR : Closed R) (p : Params) (s : State) : Ends R Prod.snd s (Machine.load p s) := by
  unfold Machine.load
  split <;> first | exact hR.operandOf p s | exact hR.memRead _ s | exact .ofRefused _

/-- Operations that take a data byte and go on by moves. -/
theorem loadThen (hR : Closed R) (p : Params) {k : Byte → State → State} (h : ∀ v u, R u (k v u)) (s : State) :
    Ends R id s (Machine.andThen (Machine.load p s) fun (v, u) => .next (k v u)) :=
  (hR.load p s).andThen hR fun x => .ofNext _ (h x.1 x.2)

theorem rmw (hR : Closed R) (p : Params) {k : Byte → State → Byte × State} (h : ∀ v u, R u (k v u).2) (s : State) :
    Ends R Prod.snd s (Machine.rmw p k s) := by
  unfold Machine.rmw
  split
  · exact (hR.operandOf p s).andThen hR fun x => .ofNext _ (hR.trans (h x.1 x.2) (hR.reg _ _ (by simp)))
  · exact (hR.load p s).andThen hR fun x => .from hR (h x.1 x.2)
      ((hR.memWrite _ _ _).andThen hR fun _ => .ofNext _ (hR.refl _))

theorem writeAlu (hR : Closed R) (o : AluOut) (s : State) : R s (s.writeAlu o) :=
  have h1 := hR.reg (r := .accum) o.value s (by simp)
  have h2 := hR.setFlag (f := .c) (by decide) (by decide) o.c (s.setReg .accum o.value)
  have h3 := hR.setFlag (f := .v) (by decide) (by decide) o.v ((s.setReg .accum o.value).setFlag .c o.c)
  have h4 := hR.setFlag (f := .n) (by decide) (by decide) o.n (((s.setReg .accum o.value).setFlag .c o.c).setFlag .v o.v)
  have h5 := hR.setFlag (f := .z) (by decide) (by decide) o.z
    ((((s.setReg .accum o.value).setFlag .c o.c).setFlag .v o.v).setFlag .n o.n)
  hR.trans h1 (hR.trans h2 (hR.trans h3 (hR.trans h4 h5)))

theorem setCompare (hR : Closed R) (r m : Byte) (s : State) : R s (s.setCompare r m) :=
  hR.trans (hR.setFlag (f := .c) (by decide) (by decide) _ s) (hR.setNZ _ _)

theorem setBitTest (hR : Closed R) (m : Byte) (s : State) : R s (s.setBitTest m) :=
  have h1 := hR.setFlag (f := .z) (by decide) (by decide) (decide (s.reg .accum &&& m = 0)) s
  have h2 := hR.setFlag (f := .n) (by decide) (by decide) (m.getLsbD 7)
    (s.setFlag .z (decide (s.reg .accum &&& m = 0)))
  have h3 := hR.setFlag (f := .v) (by decide) (by decide) (m.getLsbD 6)
    ((s.setFlag .z (decide (s.reg .accum &&& m = 0))).setFlag .n (m.getLsbD 7))
  hR.trans h1 (hR.trans h2 h3)

theorem loadReg (hR : Closed R) {r : Reg} (hr : r = .accum ∨ r = .indX ∨ r = .indY ∨ r = .stack) (p : Params)
    (s : State) : Ends R id s (Machine.loadReg r p s) :=
  hR.loadThen p (k := fun v u => (u.setReg r v).setNZ v) (fun v u => hR.trans (hR.reg v u hr) (hR.setNZ v _)) s

theorem transfer (hR : Closed R) (src : Reg) {dst : Reg} (hr : dst = .accum ∨ dst = .indX ∨ dst = .indY ∨ dst = .stack)
    (p : Params) (s : State) : Ends R id s (Machine.transfer src dst p s) :=
  .ofNext _ (hR.trans (hR.reg (s.reg src) s hr) (hR.setNZ (s.reg src) _))

theorem stepReg (hR : Closed R) {r : Reg} (hr : r = .accum ∨ r = .indX ∨ r = .indY ∨ r = .stack) (f : Byte → Byte)
    (p : Params) (s : State) : Ends R id s (Machine.stepReg r f p s) :=
  .ofNext _ (hR.trans (hR.reg (f (s.reg r)) s hr) (hR.setNZ (f (s.reg r)) _))

theorem addSubtract (hR : Closed R) (op : DecimalOp) (p : Params) (s : State) :
    Ends R id s (Machine.addSubtract op p s) :=
  hR.loadThen p (k := fun m u => (u.writeAlu (u.alu op m)).countDraw (u.decimalOpen m))
    (fun m u => hR.trans (hR.writeAlu (u.alu op m) u) (hR.draw (u.decimalOpen m) _)) s

theorem compareReg (hR : Closed R) (r : Reg) (p : Params) (s : State) : Ends R id s (Machine.compareReg r p s) :=
  hR.loadThen p (k := fun m u => u.setCompare (u.reg r) m) (fun m u => hR.setCompare (u.reg r) m u) s

theorem logic (hR : Closed R) (f : Byte → Byte → Byte) (p : Params) (s : State) : Ends R id s (Machine.logic f p s) :=
  hR.loadThen p (k := fun m u => (u.setReg .accum (f (u.reg .accum) m)).setNZ (f (u.reg .accum) m))
    (fun _ u => hR.trans (hR.reg (r := .accum) _ u (by simp)) (hR.setNZ _ _)) s

theorem rmwPlain (hR : Closed R) (f : Byte → Byte) (p : Params) (s : State) : Ends R id s (Machine.rmwPlain f p s) :=
  (hR.rmw p (fun _ u => hR.refl u) s).andThen hR fun x => .ofNext _ (hR.setNZ x.1 x.2)

theorem shift (hR : Closed R) (c : Byte → Bool) (f : Byte → Byte) (p : Params) (s : State) :
    Ends R id s (Machine.shift c f p s) :=
  (hR.rmw p (fun _ u => hR.setFlag (by decide) (by decide) _ u) s).andThen hR fun x => .ofNext _ (hR.setNZ x.1 x.2)

theorem branch (hR : Closed R) (f : Flag) (b : Bool) (p : Params) (s : State) : Ends R id s (Machine.branch f b p s) := by
  refine .ofNext _ ?_
  split
  · exact hR.pc _ _
  · exact hR.refl s

theorem opPla (hR : Closed R) (p : Params) (s : State) : Ends R id s (Machine.opPla p s) :=
  (hR.pull s).andThen hR fun x => .ofNext ((x.2.setReg .accum x.1).setNZ x.1)
    (hR.trans (hR.reg (r := .accum) x.1 x.2 (by simp)) (hR.setNZ x.1 _))

theorem writeFlag (hR : Closed R) {f : Flag} (hb : f ≠ .b) (hu : f ≠ .unused) (b : Bool) (p : Params) (s : State) :
    Ends R id s (Machine.writeFlag f b p s) := .ofNext (s.setFlag f b) (hR.setFlag hb hu b s)

theorem operation (hR : Closed R) (n : Mnemonic) (p : Params) (s : State) : Ends R id s (Machine.operation n p s) := by
  cases n
  case lda | ldx | ldy => exact hR.loadReg (by simp) p s
  case sta | stx | sty => exact hR.memWrite _ _ s
  case tax | tay | txa | tya | tsx => exact hR.transfer _ (by simp) p s
  case txs => exact .ofNext _ (hR.reg _ _ (by simp))
  case pha | php => exact hR.push _ s
  case pla => exact hR.opPla p s
  case plp => exact hR.pullStatus s
  case adc | sbc => exact hR.addSubtract _ p s
  case cmp | cpx | cpy => exact hR.compareReg _ p s
  case inc => exact hR.rmwPlain (· + 1) p s
  case dec => exact hR.rmwPlain (· - 1) p s
  case inx => exact hR.stepReg (r := .indX) (by simp) (· + 1) p s
  case iny => exact hR.stepReg (r := .indY) (by simp) (· + 1) p s
  case dex => exact hR.stepReg (r := .indX) (by simp) (· - 1) p s
  case dey => exact hR.stepReg (r := .indY) (by simp) (· - 1) p s
  case and | ora | eor => exact hR.logic _ p s
  case bit => exact hR.loadThen p (k := fun m u => u.setBitTest m) (fun m u => hR.setBitTest m u) s
  case asl | lsr | rol | ror => exact hR.shift _ _ p s
  case jmp => exact .ofNext _ (hR.pc _ _)
  case jsr => exact (hR.pushWord _ s).andThen hR fun _ => .ofNext _ (hR.pc _ _)
  case rts => exact (hR.pullWord s).andThen hR fun _ => .ofNext _ (hR.pc _ _)
  case rti => exact hR.returnFromBreak s
  case brk => exact hR.takeBreak s
  case bcc | bcs | beq | bmi | bne | bpl | bvc | bvs => exact hR.branch _ _ p s
  case clc | cld | cli | clv | sec | sed | sei => exact hR.writeFlag (by decide) (by decide) _ p s
  case nop => exact .ofNext _ (hR.refl s)

theorem runEntry (hR : Closed R) (m : Mode) (k : Nat) (b1 b2 : Byte) {op : Operation} (h : ∀ p u, Ends R id u (op p u))
    (s : State) : Ends R id s (Machine.runEntry m k b1 b2 op s) :=
  (hR.resolveMode m b1 b2 s).andThen hR fun x => .from hR (hR.pc _ x.2) (h _ _)

theorem exec (hR : Closed R) (i : Instr) (s : State) : Ends R id s (Machine.exec i s) := by
  cases he : i.entry with
  | some e =>
    rw [exec_eq_runEntry he]
    exact hR.runEntry _ _ _ _ (hR.operation e.name) s
  | none =>
    obtain ⟨op, rfl⟩ := entry_eq_none he
    exact hR.raise (f := id) .unimplementedOpcode (.opcode op) s

theorem readOperands (hR : Closed R) (k : Nat) (s : State) : Ends R Prod.snd s (Machine.readOperands k s) := by
  unfold Machine.readOperands
  split
  · exact .ofNext _ (hR.refl s)
  · exact (hR.memRead _ s).andThen hR fun _ => .ofNext _ (hR.refl _)
  · exact (hR.memRead _ s).andThen hR fun x => (hR.memRead _ x.2).andThen hR fun _ => .ofNext _ (hR.refl _)

theorem fetchInstr (hR : Closed R) (s : State) : Ends R Prod.snd s (Machine.fetchInstr s) :=
  (hR.memRead _ s).andThen hR fun x => (hR.readOperands _ x.2).andThen hR fun _ => .ofNext _ (hR.refl _)

/-- A closed relation holds across every step. -/
theorem step (hR : Closed R) (s : State) : Ends R id s (Machine.step s) := by
  unfold Machine.step Machine.whenEnabled
  split
  · exact .ofRefused _
  · exact .ofRefused _
  · exact (hR.fetchInstr s).andThen hR fun x => hR.exec x.1 x.2

end Closed

end Sys2Proof.Machine
end

