-- ==== Sys2Proof/Laws/Families.lean ====
section
/-!
SUPPORT. What each shared operation of the instruction families does when it answers a next state, on any machine: which
registers and which pc it leaves, how many accesses it counted, and which addresses it stored to.
-/

namespace Sys2Proof.Machine

/-- From `s` to `t` by `k` counted accesses that store to `as`, with registers `f` and pc `pc` after it; with no listener
only the cells the stored addresses resolve to can change (R60, R67). -/
structure Effect (k : Nat) (as : List Word) (f : RegFile) (pc : Word) (s t : State) : Prop where
  regs      : t.regs = f
  pc        : t.pc = pc
  cfg       : t.cfg = s.cfg
  resetDone : t.resetDone = s.resetDone
  fault     : t.fault = s.fault
  cycles    : t.cycles.toNat = s.cycles.toNat + k
  still     : s.listeners = [] →
    t.listeners = [] ∧ ∀ r, (∀ a ∈ as, r ≠ resolve s.cfg a) → t.cell r = s.cell r

theorem Effect.refl (s : State) : Effect 0 [] s.regs s.pc s s :=
  ⟨rfl, rfl, rfl, rfl, rfl, rfl, fun h => ⟨h, fun _ _ => rfl⟩⟩

theorem Effect.trans {j k : Nat} {as bs : List Word} {f g : RegFile} {p q : Word} {s t u : State}
    (h : Effect j as f p s t) (e : Effect k bs g q t u) : Effect (j + k) (as ++ bs) g q s u :=
  ⟨e.regs, e.pc, e.cfg.trans h.cfg, e.resetDone.trans h.resetDone, e.fault.trans h.fault,
    by rw [e.cycles, h.cycles, Nat.add_assoc], fun hs =>
    have a := h.still hs
    have b := e.still a.1
    ⟨b.1, fun r hr => (b.2 r fun x hx => h.cfg ▸ hr x (List.mem_append_right _ hx)).trans
      (a.2 r fun x hx => hr x (List.mem_append_left _ hx))⟩⟩

theorem Effect.setReg {k : Nat} {as : List Word} {f : RegFile} {p : Word} {s t : State} (h : Effect k as f p s t)
    (r : Reg) (v : Byte) : Effect k as (f.set r v) p s (t.setReg r v) :=
  ⟨by rw [State.setReg_regs, h.regs], h.pc, h.cfg, h.resetDone, h.fault, h.cycles, h.still⟩

theorem Effect.setPc {k : Nat} {as : List Word} {f : RegFile} {p : Word} {s t : State} (h : Effect k as f p s t)
    (w : Word) : Effect k as f w s (t.setPc w) :=
  ⟨h.regs, rfl, h.cfg, h.resetDone, h.fault, h.cycles, h.still⟩

/-- A change of the registers alone, at the end. -/
theorem Effect.setRegs {k : Nat} {as : List Word} {f g : RegFile} {p : Word} {s t u : State} (h : Effect k as f p s t)
    (hu : u = { t with regs := g }) : Effect k as g p s u := by
  subst hu
  exact ⟨rfl, h.pc, h.cfg, h.resetDone, h.fault, h.cycles, h.still⟩

theorem ReadEffect.effect {k : Nat} {s t : State} (h : ReadEffect k s t) : Effect k [] s.regs s.pc s t :=
  ⟨h.cpu.regs, h.cpu.pc, h.cpu.cfg, h.cpu.resetDone, h.cpu.fault, h.cycles, fun hs =>
    have a := h.still hs
    ⟨a.1, fun r _ => State.cell_congr a.2.1 a.2.2 r⟩⟩

theorem WriteEffect.effect {a : Word} {s t : State} (h : WriteEffect a s t) : Effect 1 [a] s.regs s.pc s t :=
  ⟨h.cpu.regs, h.cpu.pc, h.cpu.cfg, h.cpu.resetDone, h.cpu.fault, h.cycles, fun hs =>
    have b := h.still hs
    ⟨b.1, fun r hr => b.2 r (hr a List.mem_cons_self)⟩⟩

/-- A change of the registers that depends on the registers alone. -/
theorem setFlag_regs_congr {s t : State} (h : t.regs = s.regs) (f : Flag) (b : Bool) :
    (t.setFlag f b).regs = (s.setFlag f b).regs := by
  simp [State.setFlag, State.reg, h]

theorem setNZ_regs_congr {s t : State} (h : t.regs = s.regs) (v : Byte) : (t.setNZ v).regs = (s.setNZ v).regs :=
  setFlag_regs_congr (setFlag_regs_congr h _ _) _ _

variable {p : Params} {s t : State}

/-! ### Loads, logic, arithmetic: one data byte, then registers alone -/

/-- Operations that take one data byte and then change registers alone. -/
theorem load_then {g : Byte → State → State} (hg : ∀ m u, ∃ f, g m u = { u with regs := f })
    (hc : ∀ m u w, u.regs = w.regs → (g m u).regs = (g m w).regs)
    (h : andThen (load p s) (fun (m, u) => .next (g m u)) = .next t) :
    ∃ m, Effect (if readsItself p.mode then 1 else 0) [] (g m s).regs s.pc s t := by
  simp only [andThen_eq_next, Prod.exists, Host.Outcome.next.injEq] at h
  obtain ⟨m, u, h1, rfl⟩ := h
  have e := load_effect h1
  obtain ⟨f, hf⟩ := hg m u
  refine ⟨m, e.effect.setRegs (g := (g m s).regs) ?_⟩
  rw [hf, hc m s u e.cpu.regs.symm, hf]

theorem loadReg_effect {r : Reg} (h : loadReg r p s = .next t) :
    ∃ v, Effect (if readsItself p.mode then 1 else 0) [] ((s.setReg r v).setNZ v).regs s.pc s t :=
  load_then (g := fun v u => (u.setReg r v).setNZ v) (fun _ _ => ⟨_, rfl⟩)
    (fun v u w h => setNZ_regs_congr (by rw [State.setReg_regs, State.setReg_regs, h]) v) h

theorem compareReg_effect {r : Reg} (h : compareReg r p s = .next t) :
    ∃ m, Effect (if readsItself p.mode then 1 else 0) [] (s.setCompare (s.reg r) m).regs s.pc s t :=
  load_then (g := fun m u => u.setCompare (u.reg r) m) (fun _ _ => ⟨_, rfl⟩)
    (fun m u w h => by
      have : u.reg r = w.reg r := by rw [State.reg, State.reg, h]
      simp only [State.setCompare, this]
      exact setNZ_regs_congr (setFlag_regs_congr h _ _) _) h

theorem opBit_effect (h : opBit p s = .next t) :
    ∃ m, Effect (if readsItself p.mode then 1 else 0) [] (s.setBitTest m).regs s.pc s t :=
  load_then (g := fun m u => u.setBitTest m) (fun _ _ => ⟨_, rfl⟩)
    (fun m u w h => by
      have : u.reg .accum = w.reg .accum := by rw [State.reg, State.reg, h]
      simp only [State.setBitTest, this]
      exact setFlag_regs_congr (setFlag_regs_congr (setFlag_regs_congr h _ _) _ _) _ _) h

theorem logic_effect {f : Byte → Byte → Byte} (h : logic f p s = .next t) :
    ∃ r, Effect (if readsItself p.mode then 1 else 0) [] ((s.setReg .accum r).setNZ r).regs s.pc s t := by
  obtain ⟨m, e⟩ := load_then (g := fun m u => (u.setReg .accum (f (u.reg .accum) m)).setNZ (f (u.reg .accum) m))
    (fun _ _ => ⟨_, rfl⟩)
    (fun m u w h => by
      have : u.reg .accum = w.reg .accum := by rw [State.reg, State.reg, h]
      simp only [this]
      exact setNZ_regs_congr (by rw [State.setReg_regs, State.setReg_regs, h]) _) h
  exact ⟨_, e⟩

theorem addSubtract_effect {op : DecimalOp} (h : addSubtract op p s = .next t) :
    ∃ o, Effect (if readsItself p.mode then 1 else 0) [] (s.writeAlu o).regs s.pc s t ∧
      (s.flag .d = false → ∃ m, o = binaryAlu op (s.reg .accum) m (s.flag .c)) := by
  simp only [addSubtract, andThen_eq_next, Prod.exists, Host.Outcome.next.injEq] at h
  obtain ⟨m, u, h1, rfl⟩ := h
  have e := load_effect h1
  have he := e.effect
  refine ⟨u.alu op m, ⟨?_, ?_, ?_, ?_, ?_, ?_, ?_⟩, fun hd => ⟨m, ?_⟩⟩
  · rw [State.countDraw_regs]
    exact setFlag_regs_congr (setFlag_regs_congr (setFlag_regs_congr (setFlag_regs_congr
      (by rw [State.setReg_regs, State.setReg_regs, e.cpu.regs]) _ _) _ _) _ _) _ _
  · rw [State.countDraw_pc]; exact he.pc
  · rw [State.countDraw_cfg]; exact he.cfg
  · rw [State.countDraw_resetDone]; exact he.resetDone
  · rw [State.countDraw_fault]; exact he.fault
  · rw [State.countDraw_cycles]; exact he.cycles
  · intro hs
    have a := he.still hs
    refine ⟨by rw [State.countDraw_listeners]; exact a.1, fun r hr => ?_⟩
    exact (State.cell_congr (State.countDraw_mem _ _) (State.countDraw_memEpoch _ _) r).trans (a.2 r hr)
  · rw [← e.cpu.flag] at hd
    rw [State.alu, State.decimalOpen, hd, e.cpu.reg, e.cpu.flag]
    simp

/-! ### Read-modify-write -/

/-- The Accumulator form writes A, the memory forms write the byte back at the address (R124). -/
theorem rmw_effect {f : Byte → State → Byte × State} {r : Byte}
    (hf : ∀ v u, ∃ g, (f v u).2 = { u with regs := g })
    (hc : ∀ v u w, u.regs = w.regs → (f v u).1 = (f v w).1 ∧ (f v u).2.regs = (f v w).2.regs)
    (h : rmw p f s = .next (r, t)) :
    ∃ v, r = (f v s).1 ∧
      (p.mode = .accumulator → Effect 0 [] ((f v s).2.setReg .accum r).regs s.pc s t) ∧
      (p.mode ≠ .accumulator →
        Effect ((if readsItself p.mode then 1 else 0) + 1) [p.address] (f v s).2.regs s.pc s t) := by
  by_cases hm : p.mode = .accumulator
  · obtain ⟨o, a, m, n⟩ := p
    subst hm
    simp only [rmw, andThen_eq_next, Prod.exists, Host.Outcome.next.injEq, Prod.mk.injEq, operandOf] at h
    obtain ⟨v, u, h1, rfl, rfl⟩ := h
    cases o with
    | none => cases h1
    | some w =>
      cases h1
      obtain ⟨g, hg⟩ := hf v s
      refine ⟨v, rfl, fun _ => ?_, fun h => absurd rfl h⟩
      exact (Effect.refl s).setRegs (by rw [hg]; rfl)
  · have h' : andThen (load p s) (fun (v, u) =>
        andThen (memWrite p.address (f v u).1 (f v u).2) fun w => .next ((f v u).1, w)) = .next (r, t) := by
      obtain ⟨o, a, m, n⟩ := p
      cases m <;> first | exact h | exact absurd rfl hm
    simp only [andThen_eq_next, Prod.exists, Host.Outcome.next.injEq, Prod.mk.injEq] at h'
    obtain ⟨v, u, h1, w, h2, rfl, rfl⟩ := h'
    have e := load_effect h1
    obtain ⟨g, hg⟩ := hf v u
    obtain ⟨c1, c2⟩ := hc v u s e.cpu.regs
    refine ⟨v, c1, fun h => absurd h hm, fun _ => ?_⟩
    have e1 := e.effect.setRegs (g := g) hg
    have e2 := (memWrite_effect h2).effect
    have hg' : (f v u).2.regs = (f v s).2.regs := c2
    have hp : (f v u).2.pc = s.pc := by rw [hg]; exact e.cpu.pc
    rw [hg', hp] at e2
    exact e1.trans e2

theorem rmwPlain_effect {f : Byte → Byte} (h : rmwPlain f p s = .next t) (hm : p.mode ≠ .accumulator) :
    ∃ r, Effect ((if readsItself p.mode then 1 else 0) + 1) [p.address] (s.setNZ r).regs s.pc s t := by
  simp only [rmwPlain, andThen_eq_next, Prod.exists, Host.Outcome.next.injEq] at h
  obtain ⟨r, u, h1, rfl⟩ := h
  obtain ⟨v, -, -, e⟩ := rmw_effect (fun _ _ => ⟨_, rfl⟩) (fun _ _ _ h => ⟨rfl, h⟩) h1
  exact ⟨r, (e hm).setRegs (by rw [← setNZ_regs_congr (e hm).regs r]; rfl)⟩

theorem shift_effect {carry : Byte → Bool} {f : Byte → Byte} (h : shift carry f p s = .next t) :
    ∃ r b, (p.mode = .accumulator → Effect 0 [] (((s.setFlag .c b).setReg .accum r).setNZ r).regs s.pc s t) ∧
      (p.mode ≠ .accumulator →
        Effect ((if readsItself p.mode then 1 else 0) + 1) [p.address] ((s.setFlag .c b).setNZ r).regs s.pc s t) := by
  simp only [shift, andThen_eq_next, Prod.exists, Host.Outcome.next.injEq] at h
  obtain ⟨r, u, h1, rfl⟩ := h
  obtain ⟨v, -, e1, e2⟩ := rmw_effect (fun _ _ => ⟨_, rfl⟩)
    (fun _ _ _ h => ⟨rfl, setFlag_regs_congr h _ _⟩) h1
  exact ⟨r, carry v, fun hm => (e1 hm).setRegs (by rw [← setNZ_regs_congr (e1 hm).regs r]; rfl),
    fun hm => (e2 hm).setRegs (by rw [← setNZ_regs_congr (e2 hm).regs r]; rfl)⟩

/-! ### The stack -/

theorem push_effect {v : Byte} (h : push v s = .next t) :
    Effect 1 [stackAddress (s.reg .stack)] (s.regs.set .stack (s.reg .stack - 1)) s.pc s t := by
  obtain ⟨u, h1, rfl⟩ := push_eq_next h
  exact (memWrite_effect h1).effect.setReg _ _

theorem pull_effect {v : Byte} (h : pull s = .next (v, t)) :
    Effect 1 [] (s.regs.set .stack (s.reg .stack + 1)) s.pc s t := by
  have e := (Effect.refl s).setReg .stack (s.reg .stack + 1)
  have e2 := (pull_eq_next h).effect
  simpa using e.trans e2

theorem pushWord_effect {w : Word} (h : pushWord w s = .next t) :
    Effect 2 [stackAddress (s.reg .stack), stackAddress (s.reg .stack - 1)] (s.regs.set .stack (s.reg .stack - 2))
      s.pc s t := by
  simp only [pushWord, andThen_eq_next] at h
  obtain ⟨u, h1, h2⟩ := h
  have e1 := push_effect h1
  have e2 := push_effect h2
  have hsp : u.reg .stack = s.reg .stack - 1 := by rw [State.reg, e1.regs]; rfl
  have h11 : s.reg .stack - 1 - 1 = s.reg .stack - 2 := by bv_omega
  rw [hsp, e1.regs, e1.pc, h11] at e2
  exact e1.trans e2

theorem pullWord_effect {w : Word} (h : pullWord s = .next (w, t)) :
    Effect 2 [] (s.regs.set .stack (s.reg .stack + 2)) s.pc s t := by
  simp only [pullWord, andThen_eq_next, Prod.exists, Host.Outcome.next.injEq, Prod.mk.injEq] at h
  obtain ⟨l, u, h1, b, v, h2, -, rfl⟩ := h
  have e1 := pull_effect h1
  have e2 := pull_effect h2
  have hsp : u.reg .stack = s.reg .stack + 1 := by rw [State.reg, e1.regs]; rfl
  have h11 : s.reg .stack + 1 + 1 = s.reg .stack + 2 := by bv_omega
  rw [hsp, e1.regs, e1.pc, h11] at e2
  exact e1.trans e2

theorem pullStatus_effect (h : pullStatus s = .next t) :
    ∃ v, Effect 1 [] ((s.regs.set .stack (s.reg .stack + 1)).set .status (pulledStatus v (s.reg .status))) s.pc s t := by
  simp only [pullStatus, andThen_eq_next, Prod.exists, Host.Outcome.next.injEq] at h
  obtain ⟨v, u, h1, rfl⟩ := h
  have e1 := pull_effect h1
  have hp : u.reg .status = s.reg .status := by rw [State.reg, e1.regs]; rfl
  rw [hp]
  exact ⟨v, e1.setReg _ _⟩

/-- Taking the trap (R224): three stores at the stack, SP down by three, I set, pc from the vector. -/
theorem takeBreak_effect (h : takeBreak s = .next t) :
    ∃ target, Effect 5
      [stackAddress (s.reg .stack), stackAddress (s.reg .stack - 1), stackAddress (s.reg .stack - 2)]
      ((s.setReg .stack (s.reg .stack - 3)).setFlag .i true).regs target s t := by
  simp only [takeBreak, andThen_eq_next, Prod.exists, Host.Outcome.next.injEq] at h
  obtain ⟨u, h1, v, h2, target, w, h3, rfl⟩ := h
  have e1 := pushWord_effect h1
  have e2 := push_effect h2
  have hsp : u.reg .stack = s.reg .stack - 2 := by rw [State.reg, e1.regs]; rfl
  have h11 : s.reg .stack - 2 - 1 = s.reg .stack - 3 := by bv_omega
  rw [hsp, e1.regs, e1.pc, h11] at e2
  have e12 := e1.trans e2
  have hs : v.reg .status = s.reg .status := by rw [State.reg, e12.regs]; rfl
  have e3 := e12.setReg .status (withFlag (v.reg .status) .i true)
  have e4 := (readWord_effect h3).effect
  have e5 := (e3.trans (e4)).setPc target
  refine ⟨target, ?_⟩
  have hr : (v.setFlag .i true).regs = ((s.setReg .stack (s.reg .stack - 3)).setFlag .i true).regs := by
    rw [State.setFlag, State.setReg_regs, e12.regs, hs]
    simp only [State.setFlag, State.setReg_regs, State.setReg_reg, reduceCtorEq, if_false]
    rfl
  rw [hr] at e5
  exact e5

/-- Returning from the trap (R223): SP up by three, STATUS and pc from the stack. -/
theorem returnFromBreak_effect (h : returnFromBreak s = .next t) :
    ∃ v target, Effect 3 []
      ((s.regs.set .stack (s.reg .stack + 3)).set .status (pulledStatus v (s.reg .status))) target s t := by
  simp only [returnFromBreak, andThen_eq_next, Prod.exists, Host.Outcome.next.injEq] at h
  obtain ⟨u, h1, target, w, h2, rfl⟩ := h
  obtain ⟨v, e1⟩ := pullStatus_effect h1
  have e2 := pullWord_effect h2
  have hsp : u.reg .stack = s.reg .stack + 1 := by rw [State.reg, e1.regs]; rfl
  have h12 : s.reg .stack + 1 + 2 = s.reg .stack + 3 := by bv_omega
  rw [hsp, e1.regs, h12] at e2
  exact ⟨v, target, (e1.trans e2).setPc target⟩

/-! ### What an operation does, by its mnemonic -/

/-- The addresses an operation stores to, in order, by its parameters (R123, R124, R160, R221, R224). -/
def storesOf (n : Mnemonic) (p : Params) (s : State) : List Word :=
  match n with
  | .sta | .stx | .sty | .inc | .dec => [p.address]
  | .asl | .lsr | .rol | .ror => if p.mode = .accumulator then [] else [p.address]
  | .pha | .php => [stackAddress (s.reg .stack)]
  | .jsr => [stackAddress (s.reg .stack), stackAddress (s.reg .stack - 1)]
  | .brk => [stackAddress (s.reg .stack), stackAddress (s.reg .stack - 1), stackAddress (s.reg .stack - 2)]
  | _ => []

/-- The registers `f` differ from those of `s` only where R13 and R15 to R18 let the row write. -/
structure Writes (n : Mnemonic) (m : Mode) (s : State) (f : RegFile) : Prop where
  flags : ∀ g, n ∉ flagWriters g → flagOf (f.get .status) g = s.flag g
  regs  : ∀ r k, r ≠ .status → writesReg r ⟨n, m, k⟩ = false → f.get r = s.reg r

namespace Writes
variable {n : Mnemonic} {m : Mode} {f : RegFile}

theorem refl (n : Mnemonic) (m : Mode) (s : State) : Writes n m s s.regs := ⟨fun _ _ => rfl, fun _ _ _ _ => rfl⟩

theorem set (h : Writes n m s f) {r : Reg} (hr : r ≠ .status) (hw : ∀ k, writesReg r ⟨n, m, k⟩ = true) (v : Byte) :
    Writes n m s (f.set r v) where
  flags g hg := by rw [RegFile.get_set, if_neg hr.symm]; exact h.flags g hg
  regs q k hq hf := by
    rw [RegFile.get_set, if_neg (by rintro rfl; rw [hw] at hf; cases hf)]
    exact h.regs q k hq hf

theorem setReg {u : State} (h : Writes n m s u.regs) {r : Reg} (hr : r ≠ .status) (hw : ∀ k, writesReg r ⟨n, m, k⟩ = true) (v : Byte) :
    Writes n m s (u.setReg r v).regs := h.set hr hw v

theorem setFlag {u : State} (h : Writes n m s u.regs) {g : Flag} (hg : n ∈ flagWriters g) (b : Bool) :
    Writes n m s (u.setFlag g b).regs where
  flags k hk := by
    have : k ≠ g := by rintro rfl; exact hk hg
    exact (show (u.setFlag g b).flag k = u.flag k by simp [this]).trans (h.flags k hk)
  regs q k hq hf := (State.setFlag_reg_of_ne _ _ _ hq).trans (h.regs q k hq hf)

theorem setNZ {u : State} (h : Writes n m s u.regs) (hn : n ∈ nzWriters) (v : Byte) : Writes n m s (u.setNZ v).regs :=
  (h.setFlag (g := .n) hn _).setFlag (g := .z) hn _

/-- A pulled STATUS leaves bits 4 and 5 (R14). -/
theorem setPulled (h : Writes n m s f) (hp : n = .plp ∨ n = .rti) (v : Byte) :
    Writes n m s (f.set .status (pulledStatus v (s.reg .status))) where
  flags g hg := by
    cases g <;> first
      | (exfalso; apply hg; rcases hp with hp | hp <;> rw [hp] <;> decide)
      | (rw [RegFile.get_set, if_pos rfl]; simp [flagOf, Flag.index, pulledStatus, State.flag])
  regs r k hr hw := by rw [RegFile.get_set, if_neg hr]; exact h.regs r k hr hw

end Writes

/-- What an operation does when it answers a next state: how many accesses it makes, where it stores, what it may write,
and where it leaves pc. -/
structure Does (n : Mnemonic) (p : Params) (s t : State) (f : RegFile) (w : Word) : Prop where
  effect : Effect (operationAccesses n p.mode) (storesOf n p s) f w s t
  writes : Writes n p.mode s f
  plain  : n ∉ controlTransfers → w = s.pc
  branch : n ∈ [.bcc, .bcs, .beq, .bmi, .bne, .bpl, .bvc, .bvs] → w = s.pc ∨ w = p.address

theorem does_of_effect {n : Mnemonic} {f : RegFile} (h : Effect (operationAccesses n p.mode) (storesOf n p s) f s.pc s t)
    (hw : Writes n p.mode s f) : ∃ f w, Does n p s t f w := ⟨f, s.pc, h, hw, fun _ => rfl, fun _ => .inl rfl⟩

theorem branch_does {n : Mnemonic} {f : Flag} {b : Bool} (h0 : operationAccesses n p.mode = 0) (h1 : storesOf n p s = [])
    (h2 : n ∈ controlTransfers) (h : branch f b p s = .next t) : ∃ f w, Does n p s t f w := by
  cases h
  refine ⟨s.regs, if s.flag f = b then p.address else s.pc, ?_, (.refl _ _ s), fun h => absurd h2 h, fun _ => ?_⟩
  · rw [h0, h1]
    split
    · exact (Effect.refl s).setPc _
    · exact Effect.refl s
  · split
    · exact .inr rfl
    · exact .inl rfl

/-- What the operation of a mnemonic does when it answers a next state. -/
theorem operation_does {n : Mnemonic} (hm : n ∈ [.inc, .dec] → p.mode ≠ .accumulator)
    (h : operation n p s = .next t) : ∃ f w, Does n p s t f w := by
  have hrefl : ∀ n, Writes n p.mode s s.regs := fun _ => .refl _ _ s
  cases n
  case lda | ldx | ldy =>
    obtain ⟨v, e⟩ := loadReg_effect h
    exact does_of_effect e (((hrefl _).setReg (by decide) (fun _ => rfl) v).setNZ (by decide) v)
  case sta | stx | sty => exact does_of_effect (memWrite_effect h).effect (hrefl _)
  case tax | tay | txa | tya | tsx =>
    cases h
    exact does_of_effect ((Effect.refl s).setRegs rfl) (((hrefl _).setReg (by decide) (fun _ => rfl) _).setNZ (by decide) _)
  case txs => cases h; exact does_of_effect ((Effect.refl s).setReg .stack _) ((hrefl _).set (r := .stack) (by decide) (fun _ => rfl) _)
  case pha | php => exact does_of_effect (push_effect h) ((hrefl _).set (by decide) (fun _ => rfl) _)
  case pla =>
    simp only [operation, opPla, andThen_eq_next, Prod.exists, Host.Outcome.next.injEq] at h
    obtain ⟨v, u, h1, rfl⟩ := h
    have hw : Writes .pla p.mode s u.regs := by
      rw [(pull_effect h1).regs]; exact (hrefl _).set (by decide) (fun _ => rfl) _
    exact does_of_effect ((pull_effect h1).setRegs rfl) ((hw.setReg (r := .accum) (by decide) (fun _ => rfl) v).setNZ (by decide) v)
  case plp =>
    obtain ⟨v, e⟩ := pullStatus_effect h
    exact does_of_effect e (((hrefl _).set (by decide) (fun _ => rfl) _).setPulled (.inl rfl) v)
  case adc | sbc =>
    obtain ⟨o, e, -⟩ := addSubtract_effect h
    exact does_of_effect e (((((((hrefl _).setReg (r := .accum) (by decide) (fun _ => rfl) o.value).setFlag (g := .c) (by decide) o.c).setFlag
      (g := .v) (by decide) o.v).setFlag (g := .n) (by decide) o.n).setFlag (g := .z) (by decide) o.z))
  case cmp | cpx | cpy =>
    obtain ⟨m, e⟩ := compareReg_effect h
    exact does_of_effect e (((hrefl _).setFlag (g := .c) (by decide) _).setNZ (by decide) _)
  case inc | dec =>
    obtain ⟨o, e⟩ := rmwPlain_effect h (hm (by simp))
    have ho : ∀ n, n = .inc ∨ n = .dec → operationAccesses n p.mode = (if readsItself p.mode then 1 else 0) + 1 := by
      rintro n (rfl | rfl) <;> simp only [operationAccesses, hm (by simp), if_false] <;> split <;> rfl
    exact does_of_effect (by rw [ho _ (by simp)]; exact e) ((hrefl _).setNZ (by decide) o)
  case inx | iny | dex | dey =>
    cases h
    exact does_of_effect ((Effect.refl s).setRegs rfl) (((hrefl _).setReg (by decide) (fun _ => rfl) _).setNZ (by decide) _)
  case and | ora | eor =>
    obtain ⟨o, e⟩ := logic_effect h
    exact does_of_effect e (((hrefl _).setReg (r := .accum) (by decide) (fun _ => rfl) o).setNZ (by decide) o)
  case bit =>
    obtain ⟨m, e⟩ := opBit_effect h
    exact does_of_effect e ((((hrefl _).setFlag (g := .z) (by decide) _).setFlag (g := .n) (by decide) _).setFlag (g := .v)
      (by decide) _)
  case asl | lsr | rol | ror =>
    obtain ⟨r, b, e1, e2⟩ := shift_effect h
    by_cases ha : p.mode = .accumulator
    · refine does_of_effect (f := (((s.setFlag .c b).setReg .accum r).setNZ r).regs) ?_ ?_
      · have e := e1 ha
        rwa [storesOf, operationAccesses, if_pos ha, if_pos ha]
      · exact (((hrefl _).setFlag (g := .c) (by decide) b).setReg (r := .accum) (by decide)
          (by intro k; simp [writesReg, ha]) r).setNZ (by decide) r
    · refine does_of_effect (f := ((s.setFlag .c b).setNZ r).regs) ?_ ?_
      · have e := e2 ha
        rw [storesOf, operationAccesses, if_neg ha, if_neg ha]
        revert e; split <;> exact id
      · exact ((hrefl _).setFlag (g := .c) (by decide) b).setNZ (by decide) r
  case jmp =>
    cases h
    exact ⟨_, _, (Effect.refl s).setPc _, hrefl _, by simp [controlTransfers], by simp⟩
  case jsr =>
    simp only [operation, opJsr, andThen_eq_next, Host.Outcome.next.injEq] at h
    obtain ⟨u, h1, rfl⟩ := h
    exact ⟨_, _, (pushWord_effect h1).setPc _, (hrefl _).set (by decide) (fun _ => rfl) _, by simp [controlTransfers], by simp⟩
  case rts =>
    simp only [operation, opRts, andThen_eq_next, Prod.exists, Host.Outcome.next.injEq] at h
    obtain ⟨w, u, h1, rfl⟩ := h
    exact ⟨_, _, (pullWord_effect h1).setPc _, (hrefl _).set (by decide) (fun _ => rfl) _, by simp [controlTransfers], by simp⟩
  case rti =>
    obtain ⟨v, w, e⟩ := returnFromBreak_effect h
    exact ⟨_, _, e, ((hrefl _).set (by decide) (fun _ => rfl) _).setPulled (.inr rfl) v, by simp [controlTransfers], by simp⟩
  case brk =>
    obtain ⟨w, e⟩ := takeBreak_effect h
    exact ⟨_, _, e, ((hrefl _).setReg (r := .stack) (by decide) (fun _ => rfl) _).setFlag (g := .i) (by decide) true,
      by simp [controlTransfers], by simp⟩
  case bcc | bcs | beq | bmi | bne | bpl | bvc | bvs => exact branch_does rfl rfl (by decide) h
  case clc | cld | cli | clv | sec | sed | sei =>
    cases h
    exact does_of_effect ((Effect.refl s).setRegs rfl) ((hrefl _).setFlag (by decide) _)
  case nop => cases h; exact does_of_effect (Effect.refl s) (hrefl _)

/-- INC and DEC have no Accumulator form. -/
theorem entry_step_memory {i : Instr} {e : Entry} (he : i.entry = some e) (hn : e.name ∈ [.inc, .dec]) :
    e.mode ≠ .accumulator := by
  cases i <;> first | (cases he; first | exact absurd hn (by decide) | simp) | cases he

/-- What exec of a documented instruction does when it answers a next state: the rest of fetch, the pre-advance, then
what its operation does. -/
theorem exec_does {i : Instr} {e : Entry} (he : i.entry = some e) {s t : State} (h : exec i s = .next t) :
    ∃ o a u f w, resolveMode e.mode i.byte1 i.byte2 s = .next ((o, a), u) ∧ ReadEffect (resolveReads e.mode) s u ∧
      Does e.name { operand := o, address := a, mode := e.mode, size := e.size } (u.advance e.size) t f w := by
  rw [exec_eq_runEntry he, runEntry, andThen_eq_next] at h
  obtain ⟨⟨⟨o, a⟩, u⟩, h1, h2⟩ := h
  obtain ⟨f, w, hd⟩ := operation_does (fun hn => entry_step_memory he hn) h2
  exact ⟨o, a, u, f, w, h1, resolveMode_effect h1, hd⟩

end Sys2Proof.Machine
end

