-- ==== Sys2Proof/Laws/Quiet.lean ====
section
/-!
SUPPORT. The instruction families on a quiet machine: the parameters and the state an operation starts from, what LOAD,
STORE and RMW answer there, words on the stack, and the trap.
-/

namespace Sys2Proof.Machine

theorem execAccesses_eq (e : Entry) : execAccesses e = resolveReads e.mode + operationAccesses e.name e.mode := by
  obtain ⟨n, m, k⟩ := e
  unfold execAccesses accesses resolveReads
  have : 1 + m.operandBytes ≤ fetchAccesses m := by cases m <;> decide
  simp only
  omega

/-- The state a documented instruction's operation starts from, on a quiet machine. -/
def opStart (e : Entry) (s : State) : State := (s.addCycles (resolveReads e.mode)).advance e.size

def opParams (i : Instr) (e : Entry) (s : State) : Params :=
  { operand := operandField e.mode i.byte1 i.byte2 s, address := addressOf i e.mode s, mode := e.mode, size := e.size }

theorem Quiet.exec_op {s : State} {i : Instr} {e : Entry} (he : i.entry = some e) (h : Quiet (execAccesses e) s)
    (hf : indexFaults e.mode i.byte1 i.byte2 s = false) :
    Machine.exec i s = operation e.name (opParams i e s) (opStart e s) ∧
      Quiet (operationAccesses e.name e.mode) (opStart e s) := by
  have h' := execAccesses_eq e
  refine ⟨Quiet.exec he (h.mono (by omega)) hf, ?_⟩
  exact ((h.addCycles (k := resolveReads e.mode) (by omega)).mono (by omega)).advance _

theorem opStart_passed (e : Entry) (s : State) :
    (opStart e s).addCycles (operationAccesses e.name e.mode) = s.passed e := by
  rw [State.passed, execAccesses_eq, ← State.addCycles_add]; rfl

def loadNames : List Mnemonic := [.lda, .ldx, .ldy, .adc, .sbc, .and, .ora, .eor, .cmp, .cpx, .cpy, .bit]

theorem entry_loadable {i : Instr} {e : Entry} (he : i.entry = some e) (hn : e.name ∈ loadNames) :
    loadable e.mode = true ∧ operationAccesses e.name e.mode = if readsItself e.mode then 1 else 0 := by
  cases i <;> first | (cases he; first | exact ⟨rfl, rfl⟩ | exact absurd hn (by decide)) | cases he

theorem Quiet.load_op {s : State} {i : Instr} {e : Entry} (he : i.entry = some e) (hn : e.name ∈ loadNames)
    (h : Quiet (execAccesses e) s) (hf : indexFaults e.mode i.byte1 i.byte2 s = false) :
    Machine.load (opParams i e s) (opStart e s) = .next (dataOf i e.mode s, s.passed e) := by
  obtain ⟨-, hq⟩ := h.exec_op he hf
  obtain ⟨hl, ho⟩ := entry_loadable he hn
  rw [← opStart_passed, ho]
  exact hq.load (by rw [ho]; intro hr; simp [hr]) hl fun _ => rfl

theorem entry_store {i : Instr} {e : Entry} (he : i.entry = some e) (hn : e.name ∈ [Mnemonic.sta, .stx, .sty]) :
    operationAccesses e.name e.mode = 1 := by
  cases i <;> first | (cases he; first | rfl | exact absurd hn (by decide)) | cases he

theorem Quiet.store_op {s : State} {i : Instr} {e : Entry} (he : i.entry = some e) (ho : operationAccesses e.name e.mode = 1)
    (h : Quiet (execAccesses e) s) (hf : indexFaults e.mode i.byte1 i.byte2 s = false) (v : Byte) :
    store (opParams i e s) v (opStart e s) = .next ((s.setCell (resolve s.cfg (addressOf i e.mode s)) v).passed e) := by
  obtain ⟨-, hq⟩ := h.exec_op he hf
  rw [store, hq.memWrite (by omega)]
  have := opStart_passed e (s.setCell (resolve s.cfg (addressOf i e.mode s)) v)
  rw [ho] at this
  rw [← this]; rfl

/-- The memory forms of the read-modify-write rows. -/
theorem entry_rmw {i : Instr} {e : Entry} (he : i.entry = some e)
    (hn : e.name ∈ [Mnemonic.asl, .lsr, .rol, .ror, .inc, .dec]) :
    loadable e.mode = true ∧ (e.mode = .accumulator ∧ operationAccesses e.name e.mode = 0 ∨ e.mode ≠ .accumulator ∧
      operationAccesses e.name e.mode = (if readsItself e.mode then 1 else 0) + 1) ∧ e.mode ≠ .immediate := by
  cases i <;> first | (cases he; first | exact ⟨rfl, .inl ⟨rfl, rfl⟩, by simp⟩ | exact ⟨rfl, .inr ⟨by simp, rfl⟩, by simp⟩ | exact absurd hn (by decide)) | cases he

theorem rmw_mem {m : Mode} (hm : m ≠ .accumulator) {o : Option Byte} {a : Word} {k : Nat} (f : Byte → State → Byte × State) (s : State) :
    rmw { operand := o, address := a, mode := m, size := k } f s =
      andThen (load { operand := o, address := a, mode := m, size := k } s) fun (v, s) =>
      andThen (memWrite a (f v s).1 (f v s).2) fun t => .next ((f v s).1, t) := by
  cases m <;> first | rfl | exact absurd rfl hm

theorem dataOf_mem {i : Instr} {m : Mode} {s : State} (h : loadable m = true) (h1 : m ≠ .accumulator) (h2 : m ≠ .immediate) :
    dataOf i m s = s.peek (addressOf i m s) := by
  cases m <;> first | rfl | (simp [loadable] at h; done) | exact absurd rfl h1 | exact absurd rfl h2

theorem Quiet.rmw_op {s : State} {i : Instr} {e : Entry} (he : i.entry = some e)
    (hn : e.name ∈ [Mnemonic.asl, .lsr, .rol, .ror, .inc, .dec]) (hm : e.mode ≠ .accumulator)
    (h : Quiet (execAccesses e) s) (hf : indexFaults e.mode i.byte1 i.byte2 s = false)
    (f : Byte → State → Byte × State) (g : Byte → Byte) (hf1 : ∀ v t, t.regs = s.regs → (f v t).1 = g v)
    (hf2 : ∀ v t, (f v t).2.cfg = t.cfg ∧ (f v t).2.listeners = t.listeners ∧ (f v t).2.cycles = t.cycles) :
    rmw (opParams i e s) f (opStart e s) =
      let v := s.peek (addressOf i e.mode s)
      let k := if readsItself e.mode then 1 else 0
      .next (g v, (((f v ((opStart e s).addCycles k)).2).setCell (resolve s.cfg (addressOf i e.mode s)) (g v)).addCycles 1) := by
  obtain ⟨hl, ho, himm⟩ := entry_rmw he hn
  have ho : operationAccesses e.name e.mode = (if readsItself e.mode then 1 else 0) + 1 := by
    rcases ho with ⟨h, -⟩ | ⟨-, h⟩
    · exact absurd h hm
    · exact h
  obtain ⟨-, hq⟩ := h.exec_op he hf
  rw [ho] at hq
  rw [opParams, rmw_mem hm, addressOf, hq.load (s := s) (by split <;> omega) hl fun _ => rfl, andThen_next]
  have hd := dataOf_mem (i := i) (s := s) hl hm himm
  simp only [dataOf, addressOf] at hd
  rw [hd]
  generalize hk : (if readsItself e.mode = true then 1 else 0) = k at *
  have hq2 : Quiet 1 ((opStart e s).addCycles k) := by
    have := hq.addCycles (k := k) (by omega)
    exact this.mono (by omega)
  have h3 := hf2 (s.peek (effectiveAddress e.mode i.byte1 i.byte2 s)) ((opStart e s).addCycles k)
  have h4 := hf1 (s.peek (effectiveAddress e.mode i.byte1 i.byte2 s)) ((opStart e s).addCycles k) rfl
  have hq3 : Quiet 1 (f (s.peek (effectiveAddress e.mode i.byte1 i.byte2 s)) ((opStart e s).addCycles k)).2 :=
    ⟨h3.2.1.trans hq2.noListener, by rw [h3.1]; exact hq2.noDevice, by rw [h3.1]; exact hq2.routable, by rw [h3.2.2]; exact hq2.room⟩
  simp only
  rw [h4, hq3.memWrite (by omega), h3.1]
  rfl

theorem passed_rmw {e : Entry} (s : State) (ho : operationAccesses e.name e.mode = (if readsItself e.mode then 1 else 0) + 1) :
    ((opStart e s).addCycles (if readsItself e.mode then 1 else 0)).addCycles 1 = s.passed e := by
  rw [← opStart_passed, ho, State.addCycles_add]

theorem setReg_setReg (s : State) (r : Reg) (v w : Byte) : (s.setReg r v).setReg r w = s.setReg r w := by
  cases r <;> rfl

theorem Quiet.pushWord {n : Nat} {s : State} (h : Quiet n s) (hn : 2 ≤ n) (w : Word) :
    Machine.pushWord w s = .next ((((s.setCell (resolve s.cfg (stackAddress (s.reg .stack))) (highByte w)).setCell
      (resolve s.cfg (stackAddress (s.reg .stack - 1))) (lowByte w)).addCycles 2).setReg .stack (s.reg .stack - 2)) := by
  have h2 := (((h.setCell (resolve s.cfg (stackAddress (s.reg .stack))) (highByte w)).addCycles (k := 1) (by omega)).setReg .stack (s.reg .stack - 1))
  rw [Machine.pushWord, h.push (by omega), andThen_next, h2.push (by omega)]
  have : s.reg .stack - 1 - 1 = s.reg .stack - 2 := by bv_omega
  simp only [State.setReg_reg, if_true, this]
  rw [← State.addCycles_add _ 1 1]
  rfl

theorem Quiet.pullWord {n : Nat} {s : State} (h : Quiet n s) (hn : 2 ≤ n) :
    Machine.pullWord s = .next (wordOf (s.peek (stackAddress (s.reg .stack + 2))) (s.peek (stackAddress (s.reg .stack + 1))),
      (s.addCycles 2).setReg .stack (s.reg .stack + 2)) := by
  have h2 := (h.setReg .stack (s.reg .stack + 1)).addCycles (k := 1) (by omega)
  rw [Machine.pullWord, h.pull (by omega), andThen_next]
  refine (congrArg (fun o => andThen o _) (h2.pull (by omega))).trans ?_
  rw [andThen_next]
  have : s.reg .stack + 1 + 1 = s.reg .stack + 2 := by bv_omega
  simp only [State.addCycles_reg, State.setReg_reg, if_true, this]
  rw [← State.addCycles_add _ 1 1]
  rfl

theorem setReg_comm (s : State) (r q : Reg) (h : q ≠ r) (v w : Byte) : (s.setReg r v).setReg q w = (s.setReg q w).setReg r v := by
  cases r <;> cases q <;> first | rfl | exact absurd rfl h

theorem Quiet.takeBreak {n : Nat} {s : State} (h : Quiet n s) (hn : 5 ≤ n) {sp : Byte} (hsp : sp = s.reg .stack)
    {pushed : State} (hpush : pushed = ((s.setCell (resolve s.cfg (stackAddress sp)) (highByte (s.pc + 1))).setCell
        (resolve s.cfg (stackAddress (sp - 1))) (lowByte (s.pc + 1))).setCell
        (resolve s.cfg (stackAddress (sp - 2))) (pushedStatus (s.reg .status))) :
    Machine.takeBreak s =
      .next ((((pushed.addCycles 5).setReg .stack (sp - 3)).setFlag .i true).setPc
        (pushed.peekWord 0xFFFE 0xFFFF)) := by
  subst hsp
  rw [Machine.takeBreak, h.pushWord (by omega), andThen_next]
  generalize h1 : (s.setCell (resolve s.cfg (stackAddress (s.reg .stack))) (highByte (s.pc + 1))).setCell
        (resolve s.cfg (stackAddress (s.reg .stack - 1))) (lowByte (s.pc + 1)) = w
  have hw : Quiet n w := h1 ▸ ((h.setCell _ _).setCell _ _)
  have hc : w.cfg = s.cfg := by rw [← h1]; rfl
  have hr : w.regs = s.regs := by rw [← h1]; rfl
  have hp : pushed = w.setCell (resolve w.cfg (stackAddress (s.reg .stack - 2))) (pushedStatus (s.reg .status)) := by
    rw [hc, ← h1, hpush]
  have h2 := ((hw.addCycles (k := 2) (by omega)).setReg .stack (s.reg .stack - 2))
  have h3 := h2.push (by omega) (pushedStatus (s.reg .status))
  have e12 : s.reg .stack - 2 - 1 = s.reg .stack - 3 := by bv_omega
  have es : ((w.addCycles 2).setReg .stack (s.reg .stack - 2)).reg .status = s.reg .status := by
    simp [State.reg, hr]
  simp only [es, h3, andThen_next]
  simp only [State.setReg_reg, if_true, e12, State.setReg_cfg, State.addCycles_cfg]
  have h4 : Quiet 2 (((((w.addCycles 2).setReg .stack (s.reg .stack - 2)).setCell (resolve w.cfg (stackAddress (s.reg .stack - 2))) (pushedStatus (s.reg .status))).addCycles 1).setReg .stack (s.reg .stack - 3) |>.setFlag .i true) :=
    ((((h2.setCell _ _).addCycles (k := 1) (by omega)).setReg _ _).setFlag _ _).mono (by omega)
  rw [h4.readWord (by omega), andThen_next, hp]
  have : ∀ u : State, u.addCycles 5 = ((u.addCycles 2).addCycles 1).addCycles 2 := by intro u; simp
  rw [this]
  rfl

end Sys2Proof.Machine
end

