-- ==== Sys2Proof/Laws/Path.lean ====
section
/-!
SUPPORT. The accesses on the way through a step: a part of a step that makes `k` of them ends in a next state after all
of them, or in a fault at one of them; the fault's record is that of the failing access, or of a refused indexed sum.
-/

namespace Sys2Proof.Machine

/-- The record a fault of an access or of an indexed sum leaves (R261, R263, R264). -/
structure Recorded (c : Config) (f : Fault) : Prop where
  record : ∃ d, f.after.fault = some { kind := f.kind, pcAtFault := f.after.pc, detail := d } ∧
    (f.kind = .outOfRange → ∃ n, d = .address n ∧
      ((∃ a : Word, n = a.toNat ∧ route c a = .outOfRange) ∨
        (0xFFFF < n ∧ n ≤ 0x100FE ∧ c.absIndexOverflow = .fault))) ∧
    (f.kind = .cycleCounterOverflow → d = .none ∧ f.after.cycles.toNat = 2 ^ 64 - 1)
  kind   : f.kind ≠ .unimplementedOpcode

/-- A part of a step that makes `k` accesses. `st` finds the state in its value; `keep` says that pc stays. -/
structure Path (keep : Bool) (k : Nat) {α : Type} (st : α → State) (s : State) (o : Host.Outcome α Fault Refusal) :
    Prop where
  cfg       : ∀ x, o = .next x → (st x).cfg = s.cfg
  resetDone : ∀ x, o = .next x → (st x).resetDone = s.resetDone
  cycles    : ∀ x, o = .next x → (st x).cycles.toNat = s.cycles.toNat + k
  pc        : ∀ x, o = .next x → keep = true → (st x).pc = s.pc
  faultCfg  : ∀ f, o = .fault f → f.after.cfg = s.cfg ∧ f.after.resetDone = s.resetDone ∧ f.after.pc = s.pc
  fewer     : ∀ f, o = .fault f → f.after.cycles.toNat < s.cycles.toNat + k
  recorded  : ∀ f, o = .fault f → Recorded s.cfg f
  refused   : ∀ r, o ≠ .refused r

namespace Path
variable {s : State} {α β : Type} {st : α → State} {st' : β → State} {o : Host.Outcome α Fault Refusal} {k j : Nat}

/-- No access: a next state with the same configuration and count. -/
theorem pure {keep : Bool} (x : α) (hc : (st x).cfg = s.cfg) (hr : (st x).resetDone = s.resetDone)
    (hy : (st x).cycles = s.cycles) (hp : keep = true → (st x).pc = s.pc) : Path keep 0 st s (.next x) where
  cfg := by rintro _ ⟨⟩; exact hc
  resetDone := by rintro _ ⟨⟩; exact hr
  cycles := by rintro _ ⟨⟩; rw [hy]; rfl
  pc := by rintro _ ⟨⟩; exact hp
  faultCfg := by rintro _ ⟨⟩
  fewer := by rintro _ ⟨⟩
  recorded := by rintro _ ⟨⟩
  refused := by rintro _ ⟨⟩

/-- One part after another. -/
theorem andThen {keep : Bool} (h : Path true j st s o) {g : α → Host.Outcome β Fault Refusal}
    (hg : ∀ x, o = .next x → Path keep k st' (st x) (g x)) : Path keep (j + k) st' s (andThen o g) where
  cfg y e := by
    obtain ⟨x, h1, h2⟩ := andThen_eq_next.1 e
    rw [(hg x h1).cfg y h2, h.cfg x h1]
  resetDone y e := by
    obtain ⟨x, h1, h2⟩ := andThen_eq_next.1 e
    rw [(hg x h1).resetDone y h2, h.resetDone x h1]
  cycles y e := by
    obtain ⟨x, h1, h2⟩ := andThen_eq_next.1 e
    rw [(hg x h1).cycles y h2, h.cycles x h1, Nat.add_assoc]
  pc y e hk := by
    obtain ⟨x, h1, h2⟩ := andThen_eq_next.1 e
    rw [(hg x h1).pc y h2 hk, h.pc x h1 rfl]
  faultCfg f e := by
    rcases andThen_eq_fault.1 e with h1 | ⟨x, h1, h2⟩
    · exact h.faultCfg f h1
    · obtain ⟨a, b, c⟩ := (hg x h1).faultCfg f h2
      exact ⟨a.trans (h.cfg x h1), b.trans (h.resetDone x h1), c.trans (h.pc x h1 rfl)⟩
  fewer f e := by
    rcases andThen_eq_fault.1 e with h1 | ⟨x, h1, h2⟩
    · have := h.fewer f h1; omega
    · have := (hg x h1).fewer f h2
      rw [h.cycles x h1] at this; omega
  recorded f e := by
    rcases andThen_eq_fault.1 e with h1 | ⟨x, h1, h2⟩
    · exact h.recorded f h1
    · have := (hg x h1).recorded f h2
      rwa [h.cfg x h1] at this
  refused r e := by
    rcases andThen_eq_refused.1 e with h1 | ⟨x, h1, h2⟩
    · exact h.refused r h1
    · exact (hg x h1).refused r h2

/-- The same from a state that differs in registers and the like. -/
theorem ofState {keep : Bool} {u : State} (h : Path keep k st u o) (hc : u.cfg = s.cfg) (hr : u.resetDone = s.resetDone)
    (hy : u.cycles = s.cycles) (hp : u.pc = s.pc) : Path keep k st s o where
  cfg x e := (h.cfg x e).trans hc
  resetDone x e := (h.resetDone x e).trans hr
  cycles x e := by rw [h.cycles x e, hy]
  pc x e hk := (h.pc x e hk).trans hp
  faultCfg f e := by
    obtain ⟨a, b, c⟩ := h.faultCfg f e
    exact ⟨a.trans hc, b.trans hr, c.trans hp⟩
  fewer f e := by rw [← hy]; exact h.fewer f e
  recorded f e := hc ▸ h.recorded f e
  refused := h.refused

/-- A part whose value is only rearranged. -/
theorem andNext {keep : Bool} (h : Path true k st s o) (g : α → β) (hc : ∀ x, (st' (g x)).cfg = (st x).cfg)
    (hr : ∀ x, (st' (g x)).resetDone = (st x).resetDone) (hy : ∀ x, (st' (g x)).cycles = (st x).cycles)
    (hp : keep = true → ∀ x, (st' (g x)).pc = (st x).pc) :
    Path keep k st' s (Machine.andThen o fun x => .next (g x)) :=
  h.andThen (k := 0) fun x _ => .pure (g x) (hc x) (hr x) (hy x) fun e => hp e x

theorem unkeep {keep : Bool} (h : Path true k st s o) : Path keep k st s o :=
  ⟨h.cfg, h.resetDone, h.cycles, fun x e _ => h.pc x e rfl, h.faultCfg, h.fewer, h.recorded, h.refused⟩

/-- A read or write that faulted left a record. -/
theorem recorded_access {a : Word} {f : Fault}
    (h : (route s.cfg a = .outOfRange ∧ f = .outOfRange (s.withFault .outOfRange (.address a.toNat))) ∨
      (s.cycles = lastCycle ∧ f = .cycleCounterOverflow (s.withFault .cycleCounterOverflow .none))) :
    Recorded s.cfg f ∧ f.after.cfg = s.cfg ∧ f.after.resetDone = s.resetDone ∧ f.after.pc = s.pc ∧
      f.after.cycles = s.cycles := by
  rcases h with ⟨h, rfl⟩ | ⟨h, rfl⟩
  · exact ⟨⟨⟨_, rfl, fun _ => ⟨_, rfl, .inl ⟨a, rfl, h⟩⟩, by simp [Fault.kind]⟩, by simp [Fault.kind]⟩, rfl, rfl, rfl, rfl⟩
  · refine ⟨⟨⟨_, rfl, by simp [Fault.kind], fun _ => ⟨rfl, ?_⟩⟩, by simp [Fault.kind]⟩, rfl, rfl, rfl, rfl⟩
    show s.cycles.toNat = _
    rw [h, lastCycle_toNat]

theorem memRead (a : Word) (s : State) : Path true 1 Prod.snd s (Machine.memRead a s) where
  cfg x e := (memRead_effect e).cpu.cfg
  resetDone x e := (memRead_effect e).cpu.resetDone
  cycles x e := (memRead_effect e).cycles
  pc x e _ := (memRead_effect e).cpu.pc
  faultCfg f e := by
    obtain ⟨-, a, b, c, -⟩ := recorded_access (memRead_eq_fault e)
    exact ⟨a, b, c⟩
  fewer f e := by
    obtain ⟨-, -, -, -, c⟩ := recorded_access (memRead_eq_fault e)
    rw [c]; exact Nat.lt_succ_self _
  recorded f e := (recorded_access (memRead_eq_fault e)).1
  refused r e := by simp at e

theorem memWrite (a : Word) (v : Byte) (s : State) : Path true 1 id s (Machine.memWrite a v s) where
  cfg x e := (memWrite_effect e).cpu.cfg
  resetDone x e := (memWrite_effect e).cpu.resetDone
  cycles x e := (memWrite_effect e).cycles
  pc x e _ := (memWrite_effect e).cpu.pc
  faultCfg f e := by
    obtain ⟨-, a, b, c, -⟩ := recorded_access (memWrite_eq_fault e)
    exact ⟨a, b, c⟩
  fewer f e := by
    obtain ⟨-, -, -, -, c⟩ := recorded_access (memWrite_eq_fault e)
    rw [c]; exact Nat.lt_succ_self _
  recorded f e := (recorded_access (memWrite_eq_fault e)).1
  refused r e := by simp at e

theorem readWord (lo hi : Word) (s : State) : Path true 2 Prod.snd s (Machine.readWord lo hi s) :=
  (memRead lo s).andThen fun x _ => (memRead hi x.2).andNext (st' := Prod.snd)
    (fun y => (wordOf y.1 x.1, y.2)) (fun _ => rfl) (fun _ => rfl) (fun _ => rfl)
    fun _ _ => rfl

theorem push (v : Byte) (s : State) : Path true 1 id s (Machine.push v s) :=
  (memWrite _ v s).andNext _ (fun _ => rfl) (fun _ => rfl) (fun _ => rfl) fun _ _ => rfl

theorem pull (s : State) : Path true 1 Prod.snd s (Machine.pull s) :=
  (memRead _ (s.setReg .stack (s.reg .stack + 1))).ofState rfl rfl rfl rfl

theorem pushWord (w : Word) (s : State) : Path true 2 id s (Machine.pushWord w s) :=
  (push _ s).andThen fun x _ => push _ x

theorem pullWord (s : State) : Path true 2 Prod.snd s (Machine.pullWord s) :=
  (pull s).andThen fun x _ => (pull x.2).andNext (st' := Prod.snd) (fun y => (wordOf y.1 x.1, y.2))
    (fun _ => rfl) (fun _ => rfl) (fun _ => rfl) fun _ _ => rfl

theorem pullStatus (s : State) : Path true 1 id s (Machine.pullStatus s) :=
  (pull s).andNext _ (fun _ => rfl) (fun _ => rfl) (fun _ => rfl) fun _ _ => rfl

theorem takeBreak (s : State) : Path false 5 id s (Machine.takeBreak s) :=
  (pushWord _ s).andThen (k := 3) fun t _ => (push _ t).andThen (k := 2) fun u _ =>
    ((readWord _ _ (u.setFlag .i true)).andNext (st' := id) (fun y => y.2.setPc y.1) (fun _ => rfl) (fun _ => rfl)
      (fun _ => rfl) (fun h => by cases h)).ofState rfl rfl rfl rfl

theorem returnFromBreak (s : State) : Path false 3 id s (Machine.returnFromBreak s) :=
  (pullStatus s).andThen (k := 2) fun t _ => (pullWord t).andNext (st' := id) (fun y => y.2.setPc y.1)
    (fun _ => rfl) (fun _ => rfl) (fun _ => rfl) (fun h => by cases h)

theorem preRead (ea : Word) (s : State) : Path true 1 Prod.snd s (Machine.preRead ea s) :=
  (memRead ea s).andNext _ (fun _ => rfl) (fun _ => rfl) (fun _ => rfl) fun _ _ => rfl

/-- An indexed sum makes no access, and where it is refused at least one would have followed. -/
theorem sumThen {keep : Bool} {base : Word} {x : Byte} {g : Word × State → Host.Outcome β Fault Refusal} (hk : 1 ≤ k)
    (h : ∀ ea, Path keep k st' s (g (ea, s))) :
    Path keep k st' s (Machine.andThen (Machine.indexedSum base x s) g) := by
  unfold Machine.indexedSum
  split
  · next hs =>
    have hx := x.isLt
    have hb := base.isLt
    simp only [sumFaults, Bool.and_eq_true, decide_eq_true_eq] at hs
    refine ⟨?_, ?_, ?_, ?_, ?_, ?_, ?_, ?_⟩ <;> rintro _ ⟨⟩
    · exact ⟨rfl, rfl, rfl⟩
    · exact Nat.lt_add_of_pos_right hk
    · exact ⟨⟨_, rfl, fun _ => ⟨_, rfl, .inr ⟨hs.1, by omega, hs.2⟩⟩, by simp [Fault.kind]⟩, by simp [Fault.kind]⟩
  · exact h _

theorem operandOf {p : Params} (h : p.operand.isSome = true) (s : State) :
    Path true 0 Prod.snd s (Machine.operandOf p s) := by
  unfold Machine.operandOf
  obtain ⟨v, hv⟩ := Option.isSome_iff_exists.1 h
  rw [hv]
  exact .pure _ rfl rfl rfl fun _ => rfl

/-- What LOAD and RMW need of the parameters: a mode they take, and an operand where the mode gives one (R122). -/
structure Usable (p : Params) : Prop where
  mode    : loadable p.mode = true
  operand : readsItself p.mode = false → p.operand.isSome = true

theorem load {p : Params} (h : Usable p) (s : State) :
    Path true (if readsItself p.mode then 1 else 0) Prod.snd s (Machine.load p s) := by
  obtain ⟨o, a, m, n⟩ := p
  obtain ⟨hm, ho⟩ := h
  cases m <;> first
    | exact memRead a s
    | exact operandOf (ho rfl) s
    | cases hm

theorem loadThen {p : Params} (h : Usable p) {g : Byte → State → State} (s : State) (hc : ∀ m u, (g m u).cfg = u.cfg)
    (hr : ∀ m u, (g m u).resetDone = u.resetDone) (hy : ∀ m u, (g m u).cycles = u.cycles)
    (hp : ∀ m u, (g m u).pc = u.pc) :
    Path true (if readsItself p.mode then 1 else 0) id s
      (Machine.andThen (Machine.load p s) fun (m, u) => .next (g m u)) :=
  (load h s).andNext (st' := id) (fun x => g x.1 x.2) (fun _ => hc _ _) (fun _ => hr _ _) (fun _ => hy _ _)
    fun _ _ => hp _ _

theorem rmw {p : Params} (h : Usable p) {g : Byte → State → Byte × State} (s : State)
    (hg : ∀ v u, ∃ f, (g v u).2 = { u with regs := f }) :
    Path true (if p.mode = .accumulator then 0 else if readsItself p.mode then 2 else 1) Prod.snd s
      (Machine.rmw p g s) := by
  have hs : ∀ v u, (g v u).2.cfg = u.cfg ∧ (g v u).2.resetDone = u.resetDone ∧ (g v u).2.cycles = u.cycles ∧
      (g v u).2.pc = u.pc := fun v u => by
    obtain ⟨f, hf⟩ := hg v u
    rw [hf]; exact ⟨rfl, rfl, rfl, rfl⟩
  by_cases hm : p.mode = .accumulator
  · obtain ⟨o, a, m, n⟩ := p
    subst hm
    exact (operandOf (h.operand rfl) s).andNext _ (fun x => (hs x.1 x.2).1) (fun x => (hs x.1 x.2).2.1)
      (fun x => (hs x.1 x.2).2.2.1) fun _ x => (hs x.1 x.2).2.2.2
  · have hl := load h s
    have : (if p.mode = .accumulator then 0 else if readsItself p.mode then 2 else 1) =
        (if readsItself p.mode then 1 else 0) + 1 := by rw [if_neg hm]; split <;> rfl
    rw [this]
    have e : Machine.rmw p g s = Machine.andThen (Machine.load p s) fun x =>
        Machine.andThen (Machine.memWrite p.address (g x.1 x.2).1 (g x.1 x.2).2) fun t => .next ((g x.1 x.2).1, t) := by
      obtain ⟨o, a, m, n⟩ := p
      cases m <;> first | rfl | exact absurd rfl hm
    rw [e]
    refine hl.andThen fun x _ => ?_
    obtain ⟨a, b, c, d⟩ := hs x.1 x.2
    exact ((memWrite _ _ _).andNext (st' := Prod.snd) (fun t => ((g x.1 x.2).1, t)) (fun _ => rfl) (fun _ => rfl) (fun _ => rfl) fun _ _ => rfl).ofState a b c d

theorem branch (f : Flag) (b : Bool) (p : Params) (s : State) : Path false 0 id s (Machine.branch f b p s) := by
  unfold Machine.branch
  refine .pure _ ?_ ?_ ?_ (fun h => by cases h) <;> split <;> rfl

theorem loadReg {p : Params} (h : Usable p) (r : Reg) (s : State) :
    Path true (if readsItself p.mode then 1 else 0) id s (Machine.loadReg r p s) :=
  loadThen h (g := fun v u => (u.setReg r v).setNZ v) s (fun _ _ => rfl) (fun _ _ => rfl) (fun _ _ => rfl) fun _ _ => rfl

theorem logic {p : Params} (h : Usable p) (f : Byte → Byte → Byte) (s : State) :
    Path true (if readsItself p.mode then 1 else 0) id s (Machine.logic f p s) :=
  loadThen h (g := fun m u => (u.setReg .accum (f (u.reg .accum) m)).setNZ (f (u.reg .accum) m)) s (fun _ _ => rfl)
    (fun _ _ => rfl) (fun _ _ => rfl) fun _ _ => rfl

theorem compareReg {p : Params} (h : Usable p) (r : Reg) (s : State) :
    Path true (if readsItself p.mode then 1 else 0) id s (Machine.compareReg r p s) :=
  loadThen h (g := fun m u => u.setCompare (u.reg r) m) s (fun _ _ => rfl) (fun _ _ => rfl) (fun _ _ => rfl) fun _ _ => rfl

theorem opBit {p : Params} (h : Usable p) (s : State) :
    Path true (if readsItself p.mode then 1 else 0) id s (Machine.opBit p s) :=
  loadThen h (g := fun m u => u.setBitTest m) s (fun _ _ => rfl) (fun _ _ => rfl) (fun _ _ => rfl) fun _ _ => rfl

theorem addSubtract {p : Params} (h : Usable p) (op : DecimalOp) (s : State) :
    Path true (if readsItself p.mode then 1 else 0) id s (Machine.addSubtract op p s) :=
  loadThen h (g := fun m u => (u.writeAlu (u.alu op m)).countDraw (u.decimalOpen m)) s
    (fun _ _ => State.countDraw_cfg _ _) (fun _ _ => State.countDraw_resetDone _ _) (fun _ _ => State.countDraw_cycles _ _)
    fun _ _ => State.countDraw_pc _ _

theorem rmwPlain {p : Params} (h : Usable p) (f : Byte → Byte) (s : State) :
    Path true (if p.mode = .accumulator then 0 else if readsItself p.mode then 2 else 1) id s (Machine.rmwPlain f p s) :=
  (rmw h s fun _ _ => ⟨_, rfl⟩).andNext (st' := id) (fun y => y.2.setNZ y.1) (fun _ => rfl) (fun _ => rfl) (fun _ => rfl)
    fun _ _ => rfl

theorem shift {p : Params} (h : Usable p) (c : Byte → Bool) (f : Byte → Byte) (s : State) :
    Path true (if p.mode = .accumulator then 0 else if readsItself p.mode then 2 else 1) id s (Machine.shift c f p s) :=
  (rmw h s fun _ _ => ⟨_, rfl⟩).andNext (st' := id) (fun y => y.2.setNZ y.1) (fun _ => rfl) (fun _ => rfl) (fun _ => rfl)
    fun _ _ => rfl

theorem operation {n : Mnemonic} {p : Params}
    (h : n ∈ loadNames ∨ n ∈ [Mnemonic.asl, .lsr, .rol, .ror, .inc, .dec] → Usable p) (s : State) :
    Path false (operationAccesses n p.mode) id s (Machine.operation n p s) := by
  cases n
  case lda | ldx | ldy => exact (loadReg (h (by decide)) _ s).unkeep
  case and | ora | eor => exact (logic (h (by decide)) _ s).unkeep
  case cmp | cpx | cpy => exact (compareReg (h (by decide)) _ s).unkeep
  case bit => exact (opBit (h (by decide)) s).unkeep
  case adc | sbc => exact (addSubtract (h (by decide)) _ s).unkeep
  case sta | stx | sty => exact (memWrite _ _ s).unkeep
  case pha | php => exact (push _ s).unkeep
  case pla =>
    exact (pull s).andNext (st' := id) (fun y => (y.2.setReg .accum y.1).setNZ y.1) (fun _ => rfl) (fun _ => rfl)
      (fun _ => rfl) fun _ _ => rfl
  case plp => exact (pullStatus s).unkeep
  case inc | dec => exact (rmwPlain (h (by decide)) _ s).unkeep
  case asl | lsr | rol | ror => exact (shift (h (by decide)) _ _ s).unkeep
  case jsr =>
    exact (pushWord _ s).andNext (st' := id) (fun u => u.setPc p.address) (fun _ => rfl) (fun _ => rfl) (fun _ => rfl)
      fun h => by cases h
  case rts =>
    exact (pullWord s).andNext (st' := id) (fun y => y.2.setPc (y.1 + 1)) (fun _ => rfl) (fun _ => rfl) (fun _ => rfl)
      fun h => by cases h
  case rti => exact returnFromBreak s
  case brk => exact takeBreak s
  case bcc | bcs | beq | bmi | bne | bpl | bvc | bvs => exact branch _ _ p s
  all_goals exact .pure _ rfl rfl rfl fun h => by cases h

theorem addressOnly {k : Nat} {o : Host.Outcome (Word × State) Fault Refusal} (h : Path true k Prod.snd s o) :
    Path true k Prod.snd s (Machine.addressOnly o) :=
  h.andNext (st' := Prod.snd) (fun y => ((none, y.1), y.2)) (fun _ => rfl) (fun _ => rfl) (fun _ => rfl) fun _ _ => rfl

theorem resolveMode {m : Mode} (hx : m ≠ .absoluteX) (hy : m ≠ .absoluteY) (b1 b2 : Byte) (s : State) :
    Path true (resolveReads m) Prod.snd s (Machine.resolveMode m b1 b2 s) := by
  cases m
  case absoluteX => exact absurd rfl hx
  case absoluteY => exact absurd rfl hy
  case indexedIndirect => exact (readWord _ _ s).andThen (k := 1) fun x _ => preRead _ x.2
  case indirect => exact addressOnly (readWord _ _ s)
  case indirectIndexed =>
    exact (readWord _ _ s).andThen (k := 1) fun x _ => sumThen (Nat.le_refl 1) fun ea => preRead ea x.2
  case zeroPage | zeroPageX | zeroPageY => exact preRead _ s
  all_goals exact .pure _ rfl rfl rfl fun _ => rfl

theorem resolveMode_operand {m : Mode} {b1 b2 : Byte} {o : Option Byte} {a : Word} {u : State}
    (h : Machine.resolveMode m b1 b2 s = .next ((o, a), u)) (hl : loadable m = true) (hr : readsItself m = false) :
    o.isSome = true := by
  have hp : ∀ {ea s u}, Machine.preRead ea s = .next ((o, a), u) → o.isSome = true := fun h => by
    simp only [Machine.preRead, andThen_eq_next, Prod.exists, Host.Outcome.next.injEq, Prod.mk.injEq] at h
    obtain ⟨_, _, -, ⟨rfl, -⟩, -⟩ := h; rfl
  cases m
  case absolute | absoluteX | absoluteY => cases hr
  case implied | indirect | relative => cases hl
  case accumulator | immediate => cases h; rfl
  case zeroPage | zeroPageX | zeroPageY => exact hp h
  case indexedIndirect =>
    obtain ⟨_, -, h⟩ := andThen_eq_next.1 h
    exact hp h
  case indirectIndexed =>
    obtain ⟨_, -, h⟩ := andThen_eq_next.1 h
    obtain ⟨_, -, h⟩ := andThen_eq_next.1 h
    exact hp h

end Path

/-- What a part of a step that ends it answers: a next state `k` accesses on, or a fault on the way there, with pc where
the part started or just past the instruction; no refusal. -/
structure EndsAfter (k size : Nat) (s : State) (o : Host.Outcome State Fault Refusal) : Prop where
  cycles  : ∀ t, o = .next t → t.cycles.toNat = s.cycles.toNat + k
  fault   : ∀ f, o = .fault f → f.after.cycles.toNat < s.cycles.toNat + k ∧ Recorded s.cfg f ∧ f.after.cfg = s.cfg ∧
    f.after.resetDone = s.resetDone ∧ (f.after.pc = s.pc ∨ f.after.pc = s.pc + BitVec.ofNat 16 size)
  refused : ∀ r, o ≠ .refused r

theorem Path.thenEndsAfter {α : Type} {st : α → State} {s : State} {o : Host.Outcome α Fault Refusal} {j k n : Nat}
    (h : Path true j st s o) {g : α → Host.Outcome State Fault Refusal} (hg : ∀ x, o = .next x → EndsAfter k n (st x) (g x)) :
    EndsAfter (j + k) n s (Machine.andThen o g) where
  cycles t e := by
    obtain ⟨x, h1, h2⟩ := andThen_eq_next.1 e
    rw [(hg x h1).cycles t h2, h.cycles x h1, Nat.add_assoc]
  fault f e := by
    rcases andThen_eq_fault.1 e with h1 | ⟨x, h1, h2⟩
    · obtain ⟨a, b, c⟩ := h.faultCfg f h1
      exact ⟨Nat.lt_of_lt_of_le (h.fewer f h1) (by omega), h.recorded f h1, a, b, .inl c⟩
    · obtain ⟨a, b, c, d, e⟩ := (hg x h1).fault f h2
      rw [h.cycles x h1] at a; rw [h.cfg x h1] at b c; rw [h.resetDone x h1] at d; rw [h.pc x h1 rfl] at e
      exact ⟨by omega, b, c, d, e⟩
  refused r e := by
    rcases andThen_eq_refused.1 e with h1 | ⟨x, h1, h2⟩
    · exact h.refused r h1
    · exact (hg x h1).refused r h2

theorem Path.advanced {k n : Nat} {s : State} {o : Host.Outcome State Fault Refusal} (h : Path false k id (s.advance n) o) :
    EndsAfter k n s o where
  cycles := h.cycles
  fault f e := by
    obtain ⟨a, b, c⟩ := h.faultCfg f e
    exact ⟨h.fewer f e, h.recorded f e, a, b, .inr c⟩
  refused := h.refused

/-- An indexed sum before the operation. -/
theorem EndsAfter.sumThen {k n : Nat} {base : Word} {x : Byte} {s : State} {g : Word × State → Host.Outcome State Fault Refusal}
    (hk : 1 ≤ k) (h : ∀ ea, EndsAfter k n s (g (ea, s))) : EndsAfter k n s (andThen (indexedSum base x s) g) := by
  unfold indexedSum
  split
  · next hs =>
    have hp : Path true 1 id s (andThen (indexedSum base x s) fun y => memWrite y.1 0 y.2) :=
      Path.sumThen (Nat.le_refl 1) fun ea => Path.memWrite ea 0 s
    unfold indexedSum at hp
    rw [if_pos hs] at hp
    refine ⟨by rintro _ ⟨⟩, fun f e => ?_, by rintro _ ⟨⟩⟩
    obtain ⟨a, b, c⟩ := hp.faultCfg f e
    have := hp.fewer f e
    exact ⟨by omega, hp.recorded f e, a, b, .inl c⟩
  · exact h _

theorem entry_usable {i : Instr} {e : Entry} (he : i.entry = some e)
    (hn : e.name ∈ loadNames ∨ e.name ∈ [Mnemonic.asl, .lsr, .rol, .ror, .inc, .dec]) : loadable e.mode = true := by
  rcases hn with h | h
  · exact (entry_loadable he h).1
  · exact (entry_rmw he h).1

/-- The rows of the indexed Absolute modes make an access of their own (R311). -/
theorem entry_indexed_accesses {i : Instr} {e : Entry} (he : i.entry = some e) (hm : e.mode = .absoluteX ∨ e.mode = .absoluteY) :
    1 ≤ operationAccesses e.name e.mode := by
  cases i <;> first | (cases he; first | decide | (rcases hm with hm | hm <;> cases hm)) | cases he

theorem addressOnly_andThen {β : Type} (o : Host.Outcome (Word × State) Fault Refusal)
    (g : (Option Byte × Word) × State → Host.Outcome β Fault Refusal) :
    andThen (addressOnly o) g = andThen o fun y => g ((none, y.1), y.2) := by cases o <;> rfl

/-- What exec of a documented instruction answers (R260 to R264, R310, R311). -/
theorem exec_ends {i : Instr} {e : Entry} (he : i.entry = some e) (s : State) :
    EndsAfter (execAccesses e) e.size s (exec i s) := by
  have hu := entry_usable he
  have hx := entry_indexed_accesses he
  rw [exec_eq_runEntry he, execAccesses_eq, runEntry]
  obtain ⟨n, m, k⟩ := e
  by_cases h : m = .absoluteX ∨ m = .absoluteY
  · have ho : ∀ ea, EndsAfter (operationAccesses n m) k s
        (operation n { operand := none, address := ea, mode := m, size := k } (s.advance k)) := fun ea =>
      (Path.operation (p := { operand := none, address := ea, mode := m, size := k })
        (fun hn => ⟨hu hn, fun hr => by rcases h with h | h <;> subst h <;> cases hr⟩) (s.advance k)).advanced
    rcases h with rfl | rfl
    · rw [resolveMode, addressOnly_andThen, show resolveReads .absoluteX = 0 from rfl, Nat.zero_add]
      exact EndsAfter.sumThen (hx (.inl rfl)) ho
    · rw [resolveMode, addressOnly_andThen, show resolveReads .absoluteY = 0 from rfl, Nat.zero_add]
      exact EndsAfter.sumThen (hx (.inr rfl)) ho
  · refine (Path.resolveMode (fun hm => h (.inl hm)) (fun hm => h (.inr hm)) i.byte1 i.byte2 s).thenEndsAfter fun x hx => ?_
    exact (Path.operation (p := { operand := x.1.1, address := x.1.2, mode := m, size := k })
      (fun hn => ⟨hu hn, fun hr => Path.resolveMode_operand hx (hu hn) hr⟩) (x.2.advance k)).advanced

theorem Path.readOperands {k : Nat} (hk : k ≤ 2) (s : State) : Path true k Prod.snd s (Machine.readOperands k s) := by
  match k, hk with
  | 0, _ => exact .pure _ rfl rfl rfl fun _ => rfl
  | 1, _ =>
    exact (memRead _ s).andNext (st' := Prod.snd) (fun y => ((y.1, 0), y.2)) (fun _ => rfl) (fun _ => rfl) (fun _ => rfl)
      fun _ _ => rfl
  | 2, _ =>
    exact (memRead _ s).andThen (k := 1) fun x _ => (memRead _ x.2).andNext (st' := Prod.snd)
      (fun y => ((x.1, y.1), y.2)) (fun _ => rfl) (fun _ => rfl) (fun _ => rfl) fun _ _ => rfl

/-- What a step that is enabled answers, whose opcode read gave a documented byte (R130, R310). -/
theorem step_ends {s u : State} {op : Byte} {e : Entry} (h1 : s.resetDone = true) (h2 : s.fault = none)
    (h3 : memRead s.pc s = .next (op, u)) (h4 : metadata op = some e) : EndsAfter (accesses e) e.size s (step s) := by
  have hb : operandBytesOf op = e.mode.operandBytes := by unfold operandBytesOf; rw [h4]
  have ha : accesses e = 1 + (operandBytesOf op + execAccesses e) := by
    rw [hb]
    have : 1 + e.mode.operandBytes ≤ fetchAccesses e.mode := by cases e.mode <;> decide
    unfold execAccesses accesses
    omega
  have hs : step s = andThen (memRead s.pc s) fun y => andThen (readOperands (operandBytesOf y.1) y.2) fun x =>
      exec (instrOf y.1 x.1.1 x.1.2) x.2 := by
    rw [step, whenEnabled_eq h1 h2, fetchInstr]
    cases memRead s.pc s <;> try rfl
    next y =>
      simp only [andThen_next]
      cases readOperands (operandBytesOf y.1) y.2 <;> rfl
  rw [hs, ha]
  refine (Path.memRead s.pc s).thenEndsAfter fun y hy => ?_
  rw [h3] at hy; cases hy
  refine (Path.readOperands (operandBytesOf_le op) u).thenEndsAfter fun x hx => ?_
  obtain ⟨-, h0, h1'⟩ := readOperands_effect (b1 := x.1.1) (b2 := x.1.2) (u := x.2) hx (operandBytesOf_le op)
  obtain ⟨-, f2, -⟩ := instrOf_facts op x.1.1 x.1.2 h0 h1'
  exact exec_ends (f2.trans h4) x.2

end Sys2Proof.Machine
end

