-- ==== Sys2Proof/Tests/Slice0.lean ====
section
/-!
SUPPORT. The model's own tests: ill-formed terms each check refuses, every row's word decoded (words from
spec/opcode_table.json and the encoding tables of R140 to R247), one step on the vectors of spec/95_test_vectors.md (the
number in a test's name is the vector's), the access table of R310, and for every obligation with hypotheses a concrete
state and operands that meet them.
-/

namespace Sys2Proof.Tests
open Sys2Proof.Machine

/-! ## Well-formedness -/

theorem test_wf_documented_byte_is_not_unimplemented : (Instr.unimplemented 0xA9).wellFormed = false := by decide
theorem test_wf_unimplemented_bytes :
    (Instr.unimplemented 0x02).wellFormed = true ∧ (Instr.unimplemented 0xFF).wellFormed = true := by decide
theorem test_wf_default_config : Config.default.wellFormed = true := by decide
theorem test_wf_capacity_zero : { Config.default with capacity := 0 }.capacityOk = false := by decide
theorem test_wf_capacity_above_space : { Config.default with capacity := 65537 }.capacityOk = false := by decide
theorem test_wf_zone_of_length_zero :
    { Config.default with zones := [⟨0x0400, 0, [0x0800]⟩] }.zoneLengthsOk = false := by decide
theorem test_wf_primary_past_capacity :
    { Config.default with capacity := 0x0400, zones := [⟨0x0300, 0x0101, []⟩] }.primariesOk = false := by decide
theorem test_wf_primary_inside_device :
    { Config.default with capacity := 0x0400, zones := [⟨0x2000, 8, [0x3000]⟩], devices := [⟨0x2000, 8, 1⟩] }.wellFormed
      = true := by decide
theorem test_wf_mirror_past_space :
    { Config.default with zones := [⟨0x0400, 0x0100, [0xFF01]⟩] }.mirrorsOk = false := by decide
theorem test_wf_mirror_overlaps_primary :
    { Config.default with zones := [⟨0x0400, 0x0100, [0x04FF]⟩] }.zonesDisjoint = false := by decide
theorem test_wf_zones_overlap :
    { Config.default with zones := [⟨0x0400, 0x0100, [0x0800]⟩, ⟨0x0850, 1, []⟩] }.zonesDisjoint = false := by decide
theorem test_wf_devices_overlap :
    { Config.default with devices := [⟨0x2000, 8, 0⟩, ⟨0x2007, 1, 1⟩] }.devicesDisjoint = false := by decide
theorem test_wf_device_past_space :
    { Config.default with devices := [⟨0xFFFF, 2, 0⟩] }.devicesInSpace = false := by decide
theorem test_construct_refuses_ill_formed :
    construct { Config.default with capacity := 0 } = .refused .illFormedConfig := by decide

/-! ## Decoding: one word per row, from the encoding tables -/

theorem test_decode_load_and_store_1 :
    decodeTableWord 16 0x85A1 = some (.ldaIndX 0x85) ∧
    decodeTableWord 16 0x85A5 = some (.ldaZp 0x85) ∧
    decodeTableWord 16 0x85A9 = some (.ldaImm 0x85) ∧
    decodeTableWord 24 0x1234AD = some (.ldaAbs 0x1234) ∧
    decodeTableWord 16 0x85B1 = some (.ldaIndY 0x85) ∧
    decodeTableWord 16 0x85B5 = some (.ldaZpX 0x85) ∧
    decodeTableWord 24 0x1234B9 = some (.ldaAbsY 0x1234) ∧
    decodeTableWord 24 0x1234BD = some (.ldaAbsX 0x1234) ∧
    decodeTableWord 16 0x85A2 = some (.ldxImm 0x85) ∧
    decodeTableWord 16 0x85A6 = some (.ldxZp 0x85) ∧
    decodeTableWord 24 0x1234AE = some (.ldxAbs 0x1234) ∧
    decodeTableWord 16 0x85B6 = some (.ldxZpY 0x85) ∧
    decodeTableWord 24 0x1234BE = some (.ldxAbsY 0x1234) ∧
    decodeTableWord 16 0x85A0 = some (.ldyImm 0x85) ∧
    decodeTableWord 16 0x85A4 = some (.ldyZp 0x85) ∧
    decodeTableWord 24 0x1234AC = some (.ldyAbs 0x1234) ∧
    decodeTableWord 16 0x85B4 = some (.ldyZpX 0x85) ∧
    decodeTableWord 24 0x1234BC = some (.ldyAbsX 0x1234) ∧
    decodeTableWord 16 0x8581 = some (.staIndX 0x85) ∧
    decodeTableWord 16 0x8585 = some (.staZp 0x85) ∧
    decodeTableWord 24 0x12348D = some (.staAbs 0x1234) ∧
    decodeTableWord 16 0x8591 = some (.staIndY 0x85) ∧
    decodeTableWord 16 0x8595 = some (.staZpX 0x85) ∧
    decodeTableWord 24 0x123499 = some (.staAbsY 0x1234) ∧
    decodeTableWord 24 0x12349D = some (.staAbsX 0x1234) ∧
    decodeTableWord 16 0x8586 = some (.stxZp 0x85) := by
  decide

theorem test_decode_load_and_store_2 :
    decodeTableWord 24 0x12348E = some (.stxAbs 0x1234) ∧
    decodeTableWord 16 0x8596 = some (.stxZpY 0x85) ∧
    decodeTableWord 16 0x8584 = some (.styZp 0x85) ∧
    decodeTableWord 24 0x12348C = some (.styAbs 0x1234) ∧
    decodeTableWord 16 0x8594 = some (.styZpX 0x85) := by
  decide

theorem test_decode_transfer_and_stack :
    decodeTableWord 8 0xAA = some .tax ∧
    decodeTableWord 8 0xA8 = some .tay ∧
    decodeTableWord 8 0x8A = some .txa ∧
    decodeTableWord 8 0x98 = some .tya ∧
    decodeTableWord 8 0xBA = some .tsx ∧
    decodeTableWord 8 0x9A = some .txs ∧
    decodeTableWord 8 0x48 = some .pha ∧
    decodeTableWord 8 0x08 = some .php ∧
    decodeTableWord 8 0x68 = some .pla ∧
    decodeTableWord 8 0x28 = some .plp := by
  decide

theorem test_decode_add_and_subtract :
    decodeTableWord 16 0x8561 = some (.adcIndX 0x85) ∧
    decodeTableWord 16 0x8565 = some (.adcZp 0x85) ∧
    decodeTableWord 16 0x8569 = some (.adcImm 0x85) ∧
    decodeTableWord 24 0x12346D = some (.adcAbs 0x1234) ∧
    decodeTableWord 16 0x8571 = some (.adcIndY 0x85) ∧
    decodeTableWord 16 0x8575 = some (.adcZpX 0x85) ∧
    decodeTableWord 24 0x123479 = some (.adcAbsY 0x1234) ∧
    decodeTableWord 24 0x12347D = some (.adcAbsX 0x1234) ∧
    decodeTableWord 16 0x85E1 = some (.sbcIndX 0x85) ∧
    decodeTableWord 16 0x85E5 = some (.sbcZp 0x85) ∧
    decodeTableWord 16 0x85E9 = some (.sbcImm 0x85) ∧
    decodeTableWord 24 0x1234ED = some (.sbcAbs 0x1234) ∧
    decodeTableWord 16 0x85F1 = some (.sbcIndY 0x85) ∧
    decodeTableWord 16 0x85F5 = some (.sbcZpX 0x85) ∧
    decodeTableWord 24 0x1234F9 = some (.sbcAbsY 0x1234) ∧
    decodeTableWord 24 0x1234FD = some (.sbcAbsX 0x1234) := by
  decide

theorem test_decode_compare :
    decodeTableWord 16 0x85C1 = some (.cmpIndX 0x85) ∧
    decodeTableWord 16 0x85C5 = some (.cmpZp 0x85) ∧
    decodeTableWord 16 0x85C9 = some (.cmpImm 0x85) ∧
    decodeTableWord 24 0x1234CD = some (.cmpAbs 0x1234) ∧
    decodeTableWord 16 0x85D1 = some (.cmpIndY 0x85) ∧
    decodeTableWord 16 0x85D5 = some (.cmpZpX 0x85) ∧
    decodeTableWord 24 0x1234D9 = some (.cmpAbsY 0x1234) ∧
    decodeTableWord 24 0x1234DD = some (.cmpAbsX 0x1234) ∧
    decodeTableWord 16 0x85E0 = some (.cpxImm 0x85) ∧
    decodeTableWord 16 0x85E4 = some (.cpxZp 0x85) ∧
    decodeTableWord 24 0x1234EC = some (.cpxAbs 0x1234) ∧
    decodeTableWord 16 0x85C0 = some (.cpyImm 0x85) ∧
    decodeTableWord 16 0x85C4 = some (.cpyZp 0x85) ∧
    decodeTableWord 24 0x1234CC = some (.cpyAbs 0x1234) := by
  decide

theorem test_decode_increment_and_decrement :
    decodeTableWord 16 0x85E6 = some (.incZp 0x85) ∧
    decodeTableWord 24 0x1234EE = some (.incAbs 0x1234) ∧
    decodeTableWord 16 0x85F6 = some (.incZpX 0x85) ∧
    decodeTableWord 24 0x1234FE = some (.incAbsX 0x1234) ∧
    decodeTableWord 16 0x85C6 = some (.decZp 0x85) ∧
    decodeTableWord 24 0x1234CE = some (.decAbs 0x1234) ∧
    decodeTableWord 16 0x85D6 = some (.decZpX 0x85) ∧
    decodeTableWord 24 0x1234DE = some (.decAbsX 0x1234) ∧
    decodeTableWord 8 0xE8 = some .inx ∧
    decodeTableWord 8 0xC8 = some .iny ∧
    decodeTableWord 8 0xCA = some .dex ∧
    decodeTableWord 8 0x88 = some .dey := by
  decide

theorem test_decode_logic :
    decodeTableWord 16 0x8521 = some (.andIndX 0x85) ∧
    decodeTableWord 16 0x8525 = some (.andZp 0x85) ∧
    decodeTableWord 16 0x8529 = some (.andImm 0x85) ∧
    decodeTableWord 24 0x12342D = some (.andAbs 0x1234) ∧
    decodeTableWord 16 0x8531 = some (.andIndY 0x85) ∧
    decodeTableWord 16 0x8535 = some (.andZpX 0x85) ∧
    decodeTableWord 24 0x123439 = some (.andAbsY 0x1234) ∧
    decodeTableWord 24 0x12343D = some (.andAbsX 0x1234) ∧
    decodeTableWord 16 0x8501 = some (.oraIndX 0x85) ∧
    decodeTableWord 16 0x8505 = some (.oraZp 0x85) ∧
    decodeTableWord 16 0x8509 = some (.oraImm 0x85) ∧
    decodeTableWord 24 0x12340D = some (.oraAbs 0x1234) ∧
    decodeTableWord 16 0x8511 = some (.oraIndY 0x85) ∧
    decodeTableWord 16 0x8515 = some (.oraZpX 0x85) ∧
    decodeTableWord 24 0x123419 = some (.oraAbsY 0x1234) ∧
    decodeTableWord 24 0x12341D = some (.oraAbsX 0x1234) ∧
    decodeTableWord 16 0x8541 = some (.eorIndX 0x85) ∧
    decodeTableWord 16 0x8545 = some (.eorZp 0x85) ∧
    decodeTableWord 16 0x8549 = some (.eorImm 0x85) ∧
    decodeTableWord 24 0x12344D = some (.eorAbs 0x1234) ∧
    decodeTableWord 16 0x8551 = some (.eorIndY 0x85) ∧
    decodeTableWord 16 0x8555 = some (.eorZpX 0x85) ∧
    decodeTableWord 24 0x123459 = some (.eorAbsY 0x1234) ∧
    decodeTableWord 24 0x12345D = some (.eorAbsX 0x1234) ∧
    decodeTableWord 16 0x8524 = some (.bitZp 0x85) ∧
    decodeTableWord 24 0x12342C = some (.bitAbs 0x1234) := by
  decide

theorem test_decode_shift :
    decodeTableWord 16 0x8506 = some (.aslZp 0x85) ∧
    decodeTableWord 8 0x0A = some .aslAcc ∧
    decodeTableWord 24 0x12340E = some (.aslAbs 0x1234) ∧
    decodeTableWord 16 0x8516 = some (.aslZpX 0x85) ∧
    decodeTableWord 24 0x12341E = some (.aslAbsX 0x1234) ∧
    decodeTableWord 16 0x8546 = some (.lsrZp 0x85) ∧
    decodeTableWord 8 0x4A = some .lsrAcc ∧
    decodeTableWord 24 0x12344E = some (.lsrAbs 0x1234) ∧
    decodeTableWord 16 0x8556 = some (.lsrZpX 0x85) ∧
    decodeTableWord 24 0x12345E = some (.lsrAbsX 0x1234) ∧
    decodeTableWord 16 0x8526 = some (.rolZp 0x85) ∧
    decodeTableWord 8 0x2A = some .rolAcc ∧
    decodeTableWord 24 0x12342E = some (.rolAbs 0x1234) ∧
    decodeTableWord 16 0x8536 = some (.rolZpX 0x85) ∧
    decodeTableWord 24 0x12343E = some (.rolAbsX 0x1234) ∧
    decodeTableWord 16 0x8566 = some (.rorZp 0x85) ∧
    decodeTableWord 8 0x6A = some .rorAcc ∧
    decodeTableWord 24 0x12346E = some (.rorAbs 0x1234) ∧
    decodeTableWord 16 0x8576 = some (.rorZpX 0x85) ∧
    decodeTableWord 24 0x12347E = some (.rorAbsX 0x1234) := by
  decide

theorem test_decode_control :
    decodeTableWord 24 0x12344C = some (.jmpAbs 0x1234) ∧
    decodeTableWord 24 0x12346C = some (.jmpInd 0x1234) ∧
    decodeTableWord 24 0x123420 = some (.jsr 0x1234) ∧
    decodeTableWord 8 0x60 = some .rts ∧
    decodeTableWord 8 0x40 = some .rti ∧
    decodeTableWord 8 0x00 = some .brk ∧
    decodeTableWord 16 0x8590 = some (.bcc 0x85) ∧
    decodeTableWord 16 0x85B0 = some (.bcs 0x85) ∧
    decodeTableWord 16 0x85F0 = some (.beq 0x85) ∧
    decodeTableWord 16 0x8530 = some (.bmi 0x85) ∧
    decodeTableWord 16 0x85D0 = some (.bne 0x85) ∧
    decodeTableWord 16 0x8510 = some (.bpl 0x85) ∧
    decodeTableWord 16 0x8550 = some (.bvc 0x85) ∧
    decodeTableWord 16 0x8570 = some (.bvs 0x85) := by
  decide

theorem test_decode_flag :
    decodeTableWord 8 0x18 = some .clc ∧
    decodeTableWord 8 0xD8 = some .cld ∧
    decodeTableWord 8 0x58 = some .cli ∧
    decodeTableWord 8 0xB8 = some .clv ∧
    decodeTableWord 8 0x38 = some .sec ∧
    decodeTableWord 8 0xF8 = some .sed ∧
    decodeTableWord 8 0x78 = some .sei ∧
    decodeTableWord 8 0xEA = some .nop := by
  decide

theorem test_decode_unimplemented :
    decodeTableWord 8 0x02 = some (.unimplemented 0x02) ∧ decodeTableWord 8 0x80 = some (.unimplemented 0x80) ∧
    decodeTableWord 8 0xFF = some (.unimplemented 0xFF) := by
  decide

/-- An operand byte is missing. -/
theorem test_decode_short : decode [] = .error .noOpcode ∧ decode [0xAD, 0x34] = .error (.missingOperand 0xAD) :=
  ⟨rfl, rfl⟩

/-- R88's list and R86's rows share the 256 bytes out between them. -/
theorem test_every_byte_has_one_meaning :
    ∀ op : Byte, (metadata op).isSome = !unimplementedBytes.contains op := by
  decide

/-! ## The access table of R310 -/

/-- R310, high nibble by high nibble. -/
def accessTable : List (List (Option Nat)) :=
  [[some 6, some 5, none, none, none, some 3, some 4, none, some 2, some 2, some 1, none, none, some 4, some 5, none],
   [some 2, some 5, none, none, none, some 3, some 4, none, some 1, some 4, none, none, none, some 4, some 5, none],
   [some 5, some 5, none, none, some 3, some 3, some 4, none, some 2, some 2, some 1, none, some 4, some 4, some 5, none],
   [some 2, some 5, none, none, none, some 3, some 4, none, some 1, some 4, none, none, none, some 4, some 5, none],
   [some 4, some 5, none, none, none, some 3, some 4, none, some 2, some 2, some 1, none, some 3, some 4, some 5, none],
   [some 2, some 5, none, none, none, some 3, some 4, none, some 1, some 4, none, none, none, some 4, some 5, none],
   [some 3, some 5, none, none, none, some 3, some 4, none, some 2, some 2, some 1, none, some 5, some 4, some 5, none],
   [some 2, some 5, none, none, none, some 3, some 4, none, some 1, some 4, none, none, none, some 4, some 5, none],
   [none, some 6, none, none, some 4, some 4, some 4, none, some 1, none, some 1, none, some 4, some 4, some 4, none],
   [some 2, some 6, none, none, some 4, some 4, some 4, none, some 1, some 4, some 1, none, none, some 4, none, none],
   [some 2, some 5, some 2, none, some 3, some 3, some 3, none, some 1, some 2, some 1, none, some 4, some 4, some 4, none],
   [some 2, some 5, none, none, some 3, some 3, some 3, none, some 1, some 4, some 1, none, some 4, some 4, some 4, none],
   [some 2, some 5, none, none, some 3, some 3, some 4, none, some 1, some 2, some 1, none, some 4, some 4, some 5, none],
   [some 2, some 5, none, none, none, some 3, some 4, none, some 1, some 4, none, none, none, some 4, some 5, none],
   [some 2, some 5, none, none, some 3, some 3, some 4, none, some 1, some 2, some 1, none, some 4, some 4, some 5, none],
   [some 2, some 5, none, none, none, some 3, some 4, none, some 1, some 4, none, none, none, some 4, some 5, none]]

def accessRow (hi : Nat) : List (Option Nat) :=
  (List.range 16).map fun lo => (metadata (BitVec.ofNat 8 (16 * hi + lo))).map accesses

theorem test_access_table : (List.range 16).map accessRow = accessTable := by decide

/-! ## One step -/

/-- A machine after reset(org) with code at org, bytes in cells, and registers written (R293, the vectors' convention). -/
def machine (c : Config) (org : Word) (code : List Byte) (cells : List (Word × Byte)) (regs : List (Reg × Byte)) :
    State :=
  let s := storeBytes code org (hostReset org (constructed c))
  let s := cells.foldl (fun s x => (hostWrite x.1 x.2 s).2) s
  regs.foldl (fun s x => writeRegister x.1 x.2 s) s

/-- Whether a state shows the registers, pc, bytes and count. -/
def shows (t : State) (regs : List (Reg × Byte)) (pc : Word) (cells : List (Word × Byte)) (count : Nat) : Bool :=
  (regs.all fun x => t.reg x.1 == x.2) && t.pc == pc && (cells.all fun x => t.peek x.1 == x.2) &&
    t.cycles.toNat == count

/-- One step completes and shows the rest. -/
def completes (s : State) (regs : List (Reg × Byte)) (pc : Word) (cells : List (Word × Byte)) (count : Nat) : Bool :=
  match step s with
  | .next t => shows t regs pc cells count && t.fault == none
  | _ => false

/-- One step faults with the record and shows the rest. -/
def faults (s : State) (k : FaultKind) (d : FaultDetail) (regs : List (Reg × Byte)) (pc : Word)
    (cells : List (Word × Byte)) (count : Nat) : Bool :=
  match step s with
  | .fault f => shows f.after regs pc cells count && f.after.fault == some ⟨k, pc, d⟩ && decide (f.kind = k)
  | _ => false

theorem test_V40_1_lda_1234 :
    completes (machine Config.default 0x0200 [0xAD, 0x34, 0x12] [(0x1234, 0x55)] [])
      [(.accum, 0x55), (.status, 0x00)] 0x0203 [] 4 = true := by
  decide

theorem test_V40_2_lda_fff0_x :
    completes (machine Config.default 0x0200 [0xBD, 0xF0, 0xFF] [(0x0010, 0x11)] [(.indX, 0x20)])
      [(.accum, 0x11)] 0x0203 [] 4 = true := by
  decide

theorem test_V40_3_lda_fff0_x :
    faults (machine ({ Config.default with absIndexOverflow := .fault }) 0x0200 [0xBD, 0xF0, 0xFF] [] [(.indX, 0x20)])
      .outOfRange (.address 0x10010) [(.accum, 0x00)] 0x0200 [] 3 = true := by
  decide

theorem test_V40_4_lda_12f0_y :
    completes (machine Config.default 0x0200 [0xB9, 0xF0, 0x12] [(0x1310, 0x22)] [(.indY, 0x20)])
      [(.accum, 0x22)] 0x0203 [] 4 = true := by
  decide

theorem test_V40_5_asl_a :
    completes (machine Config.default 0x0200 [0x0A] [] [(.accum, 0x40)])
      [(.accum, 0x80), (.status, 0x80)] 0x0201 [] 1 = true := by
  decide

theorem test_V40_6_lda_imm_00 :
    completes (machine Config.default 0x0200 [0xA9, 0x00] [] [(.accum, 0x33)])
      [(.accum, 0x00), (.status, 0x02)] 0x0202 [] 2 = true := by
  decide

theorem test_V40_7_lda_ind_ff_x :
    completes (machine Config.default 0x0200 [0xA1, 0xFF] [(0x0000, 0x30), (0x00FF, 0x00), (0x3000, 0x77)] [])
      [(.accum, 0x77)] 0x0202 [] 5 = true := by
  decide

theorem test_V40_8_lda_ind_ff_x :
    completes (machine ({ Config.default with zpPointerWrap := false }) 0x0200 [0xA1, 0xFF] [(0x0000, 0x30), (0x00FF, 0x00), (0x0100, 0x31), (0x3100, 0x66)] [])
      [(.accum, 0x66)] 0x0202 [] 5 = true := by
  decide

theorem test_V40_11_jmp_ind_30ff :
    completes (machine Config.default 0x0200 [0x6C, 0xFF, 0x30] [(0x3000, 0x56), (0x30FF, 0x34), (0x3100, 0x12)] [])
      [] 0x1234 [] 5 = true := by
  decide

theorem test_V40_12_jmp_ind_30ff :
    completes (machine ({ Config.default with indirectPageBug := true }) 0x0200 [0x6C, 0xFF, 0x30] [(0x3000, 0x56), (0x30FF, 0x34), (0x3100, 0x12)] [])
      [] 0x5634 [] 5 = true := by
  decide

theorem test_V40_13_lda_ind_80_y :
    completes (machine Config.default 0x0200 [0xB1, 0x80] [(0x0080, 0xF0), (0x0081, 0x30), (0x3110, 0x01)] [(.indY, 0x20)])
      [(.accum, 0x01), (.status, 0x00)] 0x0202 [] 5 = true := by
  decide

theorem test_V40_14_lda_ind_80_y :
    completes (machine Config.default 0x0200 [0xB1, 0x80] [(0x0010, 0x02), (0x0080, 0xF0), (0x0081, 0xFF)] [(.indY, 0x20)])
      [(.accum, 0x02)] 0x0202 [] 5 = true := by
  decide

theorem test_V40_16_inx :
    completes (machine Config.default 0x0200 [0xE8] [] [])
      [(.indX, 0x01), (.status, 0x00)] 0x0201 [] 1 = true := by
  decide

theorem test_V40_17_beq_0f87 :
    completes (machine Config.default 0x1000 [0xF0, 0x85] [] [(.status, 0x02)])
      [(.status, 0x02)] 0x0F87 [] 2 = true := by
  decide

theorem test_V40_18_lda_80 :
    completes (machine Config.default 0x0200 [0xA5, 0x80] [(0x0080, 0x7F)] [])
      [(.accum, 0x7F), (.status, 0x00)] 0x0202 [] 3 = true := by
  decide

theorem test_V40_19_lda_f0_x :
    completes (machine Config.default 0x0200 [0xB5, 0xF0] [(0x0010, 0xAA), (0x0110, 0xBB)] [(.indX, 0x20)])
      [(.accum, 0xAA), (.status, 0x80)] 0x0202 [] 3 = true := by
  decide

theorem test_V40_20_lda_f0_x :
    completes (machine ({ Config.default with zpIndexMode := .signedSource }) 0x0200 [0xB5, 0xF0] [(0x0010, 0xAA), (0x0110, 0xBB)] [(.indX, 0x20)])
      [(.accum, 0xBB), (.status, 0x80)] 0x0202 [] 3 = true := by
  decide

theorem test_V40_23_ldx_80_y :
    completes (machine Config.default 0x0200 [0xB6, 0x80] [(0x007F, 0x05)] [(.indY, 0xFF)])
      [(.indX, 0x05)] 0x0202 [] 3 = true := by
  decide

theorem test_V40_24_sta_80 :
    completes (machine Config.default 0x0200 [0x85, 0x80] [(0x0080, 0x99)] [(.accum, 0x42)])
      [] 0x0202 [(0x0080, 0x42)] 4 = true := by
  decide

theorem test_V40_25_sta_1234 :
    completes (machine Config.default 0x0200 [0x8D, 0x34, 0x12] [] [(.accum, 0x42)])
      [] 0x0203 [(0x1234, 0x42)] 4 = true := by
  decide

theorem test_V40_26_byte_02 :
    faults (machine Config.default 0x0200 [0x02] [] [(.accum, 0x11), (.indX, 0x22)])
      .unimplementedOpcode (.opcode 0x02) [(.accum, 0x11), (.indX, 0x22)] 0x0200 [] 1 = true := by
  decide

theorem test_V40_27_nop :
    completes (machine Config.default 0xFFFF [0xEA] [] [])
      [] 0x0000 [] 1 = true := by
  decide

theorem test_V40_28_lda_imm_5a :
    completes (machine Config.default 0xFFFF [0xA9] [(0x0000, 0x5A)] [])
      [(.accum, 0x5A)] 0x0001 [] 2 = true := by
  decide

theorem test_V40_29_jmp_0200 :
    completes (machine Config.default 0x0200 [0x4C, 0x00, 0x02] [] [])
      [] 0x0200 [] 3 = true := by
  decide

theorem test_V20_2_lda_f123 :
    completes (machine ({ Config.default with capacity := 0x1000, zones := [⟨0x0000, 0x1000, [0xF000]⟩] }) 0x0200 [0xAD, 0x23, 0xF1] [(0x0123, 0x9D)] [])
      [(.accum, 0x9D), (.status, 0x80)] 0x0203 [] 4 = true := by
  decide

theorem test_V20_4_sta_1000 :
    faults (machine ({ Config.default with capacity := 0x1000 }) 0x0200 [0x8D, 0x00, 0x10] [] [(.accum, 0x01)])
      .outOfRange (.address 0x1000) [] 0x0203 [] 3 = true := by
  decide

theorem test_V41_3_ldx_imm_00 :
    completes (machine Config.default 0x0200 [0xA2, 0x00] [] [(.indX, 0x44)])
      [(.indX, 0x00), (.status, 0x02)] 0x0202 [] 2 = true := by
  decide

theorem test_V41_4_ldy_1234_x :
    completes (machine Config.default 0x0200 [0xBC, 0x34, 0x12] [(0x1235, 0x01)] [(.indX, 0x01)])
      [(.indY, 0x01), (.status, 0x00)] 0x0203 [] 4 = true := by
  decide

theorem test_V41_5_ldx_1234_y :
    completes (machine Config.default 0x0200 [0xBE, 0x34, 0x12] [(0x1333, 0xFE)] [(.indY, 0xFF)])
      [(.indX, 0xFE), (.status, 0x80)] 0x0203 [] 4 = true := by
  decide

theorem test_V41_7_sta_80 :
    completes (machine Config.default 0x0200 [0x85, 0x80] [] [(.accum, 0x42), (.status, 0xC3)])
      [(.status, 0xC3)] 0x0202 [(0x0080, 0x42)] 4 = true := by
  decide

theorem test_V41_8_sta_1234_x :
    completes (machine Config.default 0x0200 [0x9D, 0x34, 0x12] [] [(.accum, 0x07), (.indX, 0x10)])
      [] 0x0203 [(0x1244, 0x07)] 4 = true := by
  decide

theorem test_V41_9_sta_ind_80_y :
    completes (machine Config.default 0x0200 [0x91, 0x80] [(0x0080, 0x00), (0x0081, 0x20), (0x2005, 0xEE)] [(.accum, 0x5E), (.indY, 0x05)])
      [] 0x0202 [(0x2005, 0x5E)] 6 = true := by
  decide

theorem test_V41_10_stx_80_y :
    completes (machine Config.default 0x0200 [0x96, 0x80] [] [(.indX, 0x3A), (.indY, 0x85)])
      [] 0x0202 [(0x0005, 0x3A)] 4 = true := by
  decide

theorem test_V41_11_sty_0300 :
    completes (machine Config.default 0x0200 [0x8C, 0x00, 0x03] [] [(.indY, 0x77)])
      [] 0x0203 [(0x0300, 0x77)] 4 = true := by
  decide

theorem test_V42_1_tax :
    completes (machine Config.default 0x0200 [0xAA] [] [(.indX, 0x12)])
      [(.indX, 0x00), (.status, 0x02)] 0x0201 [] 1 = true := by
  decide

theorem test_V42_2_txs :
    completes (machine Config.default 0x0200 [0x9A] [] [(.indX, 0x80)])
      [(.stack, 0x80), (.status, 0x00)] 0x0201 [] 1 = true := by
  decide

theorem test_V42_3_tsx :
    completes (machine Config.default 0x0200 [0xBA] [] [(.indX, 0x12)])
      [(.indX, 0x00), (.status, 0x02)] 0x0201 [] 1 = true := by
  decide

theorem test_V42_4_tya :
    completes (machine Config.default 0x0200 [0x98] [] [(.indY, 0x80)])
      [(.accum, 0x80), (.status, 0x80)] 0x0201 [] 1 = true := by
  decide

theorem test_V42_5_pha :
    completes (machine Config.default 0x0200 [0x48] [] [(.accum, 0x11)])
      [(.stack, 0xFF)] 0x0201 [(0x0100, 0x11)] 2 = true := by
  decide

theorem test_V42_6_pla :
    completes (machine Config.default 0x0200 [0x68] [(0x0100, 0x00)] [(.stack, 0xFF), (.accum, 0x12)])
      [(.accum, 0x00), (.stack, 0x00), (.status, 0x02)] 0x0201 [] 2 = true := by
  decide

theorem test_V42_7_php :
    completes (machine Config.default 0x0200 [0x08] [] [(.stack, 0xFF)])
      [(.stack, 0xFE), (.status, 0x00)] 0x0201 [(0x01FF, 0x30)] 2 = true := by
  decide

theorem test_V42_8_plp :
    completes (machine Config.default 0x0200 [0x28] [(0x01FF, 0xFF)] [(.stack, 0xFE)])
      [(.stack, 0xFF), (.status, 0xCF)] 0x0201 [] 2 = true := by
  decide

theorem test_V43_1_adc_imm_50 :
    completes (machine Config.default 0x0200 [0x69, 0x50] [] [(.accum, 0x50)])
      [(.accum, 0xA0), (.status, 0xC0)] 0x0202 [] 2 = true := by
  decide

theorem test_V43_2_adc_imm_ff :
    completes (machine Config.default 0x0200 [0x69, 0xFF] [] [(.accum, 0x01), (.status, 0x01)])
      [(.accum, 0x01), (.status, 0x01)] 0x0202 [] 2 = true := by
  decide

theorem test_V43_4_adc_80 :
    completes (machine Config.default 0x0200 [0x65, 0x80] [(0x0080, 0x20)] [(.accum, 0x10), (.status, 0x01)])
      [(.accum, 0x31), (.status, 0x00)] 0x0202 [] 3 = true := by
  decide

theorem test_V43_5_sbc_imm_01 :
    completes (machine Config.default 0x0200 [0xE9, 0x01] [] [(.accum, 0x00), (.status, 0x01)])
      [(.accum, 0xFF), (.status, 0x80)] 0x0202 [] 2 = true := by
  decide

theorem test_V43_6_sbc_imm_7f :
    completes (machine Config.default 0x0200 [0xE9, 0x7F] [] [(.accum, 0x80), (.status, 0x01)])
      [(.accum, 0x01), (.status, 0x41)] 0x0202 [] 2 = true := by
  decide

theorem test_V43_13_cmp_imm_10 :
    completes (machine Config.default 0x0200 [0xC9, 0x10] [] [(.accum, 0x10)])
      [(.accum, 0x10), (.status, 0x03)] 0x0202 [] 2 = true := by
  decide

theorem test_V43_14_cmp_imm_20 :
    completes (machine Config.default 0x0200 [0xC9, 0x20] [] [(.accum, 0x10)])
      [(.status, 0x80)] 0x0202 [] 2 = true := by
  decide

theorem test_V43_16_cpx_80 :
    completes (machine Config.default 0x0200 [0xE4, 0x80] [(0x0080, 0x05)] [(.indX, 0x06)])
      [(.status, 0x01)] 0x0202 [] 3 = true := by
  decide

theorem test_V43_17_cpy_imm_00 :
    completes (machine Config.default 0x0200 [0xC0, 0x00] [] [(.indY, 0x00), (.status, 0x40)])
      [(.status, 0x43)] 0x0202 [] 2 = true := by
  decide

theorem test_V43_18_inc_80 :
    completes (machine Config.default 0x0200 [0xE6, 0x80] [(0x0080, 0x7F)] [])
      [(.status, 0x80)] 0x0202 [(0x0080, 0x80)] 4 = true := by
  decide

theorem test_V43_19_inc_80 :
    completes (machine Config.default 0x0200 [0xE6, 0x80] [(0x0080, 0xFF)] [(.status, 0x01)])
      [(.status, 0x03)] 0x0202 [(0x0080, 0x00)] 4 = true := by
  decide

theorem test_V43_20_dec_1234_x :
    completes (machine Config.default 0x0200 [0xDE, 0x34, 0x12] [(0x1235, 0x00)] [(.indX, 0x01)])
      [(.status, 0x80)] 0x0203 [(0x1235, 0xFF)] 5 = true := by
  decide

theorem test_V43_21_inx :
    completes (machine Config.default 0x0200 [0xE8] [] [(.indX, 0xFF)])
      [(.indX, 0x00), (.status, 0x02)] 0x0201 [] 1 = true := by
  decide

theorem test_V43_22_dey :
    completes (machine Config.default 0x0200 [0x88] [] [(.indY, 0x00)])
      [(.indY, 0xFF), (.status, 0x80)] 0x0201 [] 1 = true := by
  decide

theorem test_V44_1_and_imm_0f :
    completes (machine Config.default 0x0200 [0x29, 0x0F] [] [(.accum, 0xF0)])
      [(.accum, 0x00), (.status, 0x02)] 0x0202 [] 2 = true := by
  decide

theorem test_V44_2_ora_imm_00 :
    completes (machine Config.default 0x0200 [0x09, 0x00] [] [(.accum, 0x00), (.status, 0x80)])
      [(.accum, 0x00), (.status, 0x02)] 0x0202 [] 2 = true := by
  decide

theorem test_V44_3_eor_imm_ff :
    completes (machine Config.default 0x0200 [0x49, 0xFF] [] [(.accum, 0x0F)])
      [(.accum, 0xF0), (.status, 0x80)] 0x0202 [] 2 = true := by
  decide

theorem test_V44_4_bit_80 :
    completes (machine Config.default 0x0200 [0x24, 0x80] [(0x0080, 0x3F)] [(.accum, 0xFF), (.status, 0xC2)])
      [(.accum, 0xFF), (.status, 0x00)] 0x0202 [] 3 = true := by
  decide

theorem test_V44_5_bit_1234 :
    completes (machine Config.default 0x0200 [0x2C, 0x34, 0x12] [(0x1234, 0x40)] [(.accum, 0x00)])
      [(.status, 0x42)] 0x0203 [] 4 = true := by
  decide

theorem test_V44_6_asl_a :
    completes (machine Config.default 0x0200 [0x0A] [] [(.accum, 0x80)])
      [(.accum, 0x00), (.status, 0x03)] 0x0201 [] 1 = true := by
  decide

theorem test_V44_7_lsr_a :
    completes (machine Config.default 0x0200 [0x4A] [] [(.accum, 0x01)])
      [(.accum, 0x00), (.status, 0x03)] 0x0201 [] 1 = true := by
  decide

theorem test_V44_8_lsr_80 :
    completes (machine Config.default 0x0200 [0x46, 0x80] [(0x0080, 0x80)] [(.status, 0x80)])
      [(.status, 0x00)] 0x0202 [(0x0080, 0x40)] 4 = true := by
  decide

theorem test_V44_9_rol_a :
    completes (machine Config.default 0x0200 [0x2A] [] [(.accum, 0x80)])
      [(.accum, 0x00), (.status, 0x03)] 0x0201 [] 1 = true := by
  decide

theorem test_V44_10_ror_a :
    completes (machine Config.default 0x0200 [0x6A] [] [(.accum, 0x01)])
      [(.accum, 0x00), (.status, 0x03)] 0x0201 [] 1 = true := by
  decide

theorem test_V44_11_ror_a :
    completes (machine Config.default 0x0200 [0x6A] [] [(.accum, 0x00), (.status, 0x01)])
      [(.accum, 0x80), (.status, 0x80)] 0x0201 [] 1 = true := by
  decide

theorem test_V44_12_asl_1234_x :
    completes (machine Config.default 0x0200 [0x1E, 0x34, 0x12] [(0x1236, 0x41)] [(.indX, 0x02)])
      [(.status, 0x80)] 0x0203 [(0x1236, 0x82)] 5 = true := by
  decide

theorem test_V44_13_rol_80_x :
    completes (machine Config.default 0x0200 [0x36, 0x80] [(0x0081, 0xFF)] [(.indX, 0x01), (.status, 0x01)])
      [(.status, 0x81)] 0x0202 [(0x0081, 0xFF)] 4 = true := by
  decide

theorem test_V45_1_jmp_4000 :
    completes (machine Config.default 0x0200 [0x4C, 0x00, 0x40] [] [])
      [] 0x4000 [] 3 = true := by
  decide

theorem test_V45_2_jsr_0300 :
    completes (machine Config.default 0x0200 [0x20, 0x00, 0x03] [] [(.stack, 0xFF)])
      [(.stack, 0xFD)] 0x0300 [(0x01FE, 0x02), (0x01FF, 0x02)] 5 = true := by
  decide

theorem test_V45_6_brk :
    completes (machine Config.default 0x0200 [0x00] [(0xFFFE, 0x00), (0xFFFF, 0x03)] [(.stack, 0xFF), (.status, 0x08)])
      [(.stack, 0xFC), (.status, 0x0C)] 0x0300 [(0x01FD, 0x38)] 6 = true := by
  decide

theorem test_V45_7_rti :
    completes (machine Config.default 0x0200 [0x40] [(0x01FD, 0x00), (0x01FE, 0x34), (0x01FF, 0x12)] [(.stack, 0xFC), (.status, 0x30)])
      [(.stack, 0xFF), (.status, 0x30)] 0x1234 [] 4 = true := by
  decide

theorem test_V45_8_bne_0202 :
    completes (machine Config.default 0x0210 [0xD0, 0xF0] [] [])
      [] 0x0202 [] 2 = true := by
  decide

theorem test_V45_9_bne_0202 :
    completes (machine Config.default 0x0210 [0xD0, 0xF0] [] [(.status, 0x02)])
      [] 0x0212 [] 2 = true := by
  decide

theorem test_V45_10_bcs_0200 :
    completes (machine Config.default 0x0200 [0xB0, 0xFE] [] [(.status, 0x01)])
      [] 0x0200 [] 2 = true := by
  decide

theorem test_V45_11_bpl_0281 :
    completes (machine Config.default 0x0200 [0x10, 0x7F] [] [])
      [] 0x0281 [] 2 = true := by
  decide

theorem test_V45_12_bmi_0182 :
    completes (machine Config.default 0x0200 [0x30, 0x80] [] [(.status, 0x80)])
      [] 0x0182 [] 2 = true := by
  decide

theorem test_V45_13_bvc_ff82 :
    completes (machine Config.default 0x0000 [0x50, 0x80] [] [])
      [] 0xFF82 [] 2 = true := by
  decide

theorem test_V45_14_bcc_0071 :
    completes (machine Config.default 0xFFF0 [0x90, 0x7F] [] [])
      [] 0x0071 [] 2 = true := by
  decide

theorem test_V45_15_bvs_0212 :
    completes (machine Config.default 0x0200 [0x70, 0x10] [] [(.status, 0x40)])
      [] 0x0212 [] 2 = true := by
  decide

theorem test_V45_16_beq_0212 :
    completes (machine Config.default 0x0200 [0xF0, 0x10] [] [])
      [] 0x0202 [] 2 = true := by
  decide

theorem test_V46_1_clc :
    completes (machine Config.default 0x0200 [0x18] [] [(.status, 0xFF)])
      [(.status, 0xFE)] 0x0201 [] 1 = true := by
  decide

theorem test_V46_2_cld :
    completes (machine Config.default 0x0200 [0xD8] [] [(.status, 0xFF)])
      [(.status, 0xF7)] 0x0201 [] 1 = true := by
  decide

theorem test_V46_3_cli :
    completes (machine Config.default 0x0200 [0x58] [] [(.status, 0xFF)])
      [(.status, 0xFB)] 0x0201 [] 1 = true := by
  decide

theorem test_V46_4_clv :
    completes (machine Config.default 0x0200 [0xB8] [] [(.status, 0xFF)])
      [(.status, 0xBF)] 0x0201 [] 1 = true := by
  decide

theorem test_V46_5_sec :
    completes (machine Config.default 0x0200 [0x38] [] [])
      [(.status, 0x01)] 0x0201 [] 1 = true := by
  decide

theorem test_V46_6_sed :
    completes (machine Config.default 0x0200 [0xF8] [] [])
      [(.status, 0x08)] 0x0201 [] 1 = true := by
  decide

theorem test_V46_7_sei :
    completes (machine Config.default 0x0200 [0x78] [] [])
      [(.status, 0x04)] 0x0201 [] 1 = true := by
  decide

theorem test_V46_8_nop :
    completes (machine Config.default 0x0200 [0xEA] [] [(.accum, 0x12), (.status, 0xC3)])
      [(.accum, 0x12), (.status, 0xC3)] 0x0201 [] 1 = true := by
  decide

theorem test_V60_1_byte_FF :
    faults (machine Config.default 0x0200 [0xFF] [] [])
      .unimplementedOpcode (.opcode 0xFF) [] 0x0200 [] 1 = true := by
  decide

theorem test_V60_3_pha :
    faults (machine ({ Config.default with capacity := 0x0100 }) 0x0010 [0x48] [] [(.stack, 0xFF), (.accum, 0x01)])
      .outOfRange (.address 0x01FF) [(.stack, 0xFF)] 0x0011 [] 1 = true := by
  decide

theorem test_V60_4_brk :
    faults (machine ({ Config.default with capacity := 0x8000 }) 0x0200 [0x00] [] [(.stack, 0xFF)])
      .outOfRange (.address 0xFFFE) [(.stack, 0xFC), (.status, 0x04)] 0x0201 [(0x01FD, 0x30), (0x01FE, 0x02), (0x01FF, 0x02)] 4 = true := by
  decide

theorem test_R163_tay : completes (machine Config.default 0x0200 [0xA8] [] [(.accum, 0x80)]) [(.indY, 0x80), (.status, 0x80)]
    0x0201 [] 1 = true := by decide
theorem test_R164_txa : completes (machine Config.default 0x0200 [0x8A] [] [(.accum, 0x80)]) [(.accum, 0x00), (.status, 0x02)]
    0x0201 [] 1 = true := by decide
theorem test_R188_iny : completes (machine Config.default 0x0200 [0xC8] [] [(.indY, 0x7F)]) [(.indY, 0x80), (.status, 0x80)]
    0x0201 [] 1 = true := by decide
theorem test_R189_dex : completes (machine Config.default 0x0200 [0xCA] [] []) [(.indX, 0xFF), (.status, 0x80)]
    0x0201 [] 1 = true := by decide
theorem test_R222_rts :
    completes (machine Config.default 0x0200 [0x60] [(0x01FF, 0xFF), (0x0100, 0x02)] [(.stack, 0xFE)]) [(.stack, 0x00)]
      0x0300 [] 3 = true := by decide

/-- The pushes of BRK wrap inside the stack page (R160, R224). -/
theorem test_R224_brk_wraps_the_stack :
    completes (machine Config.default 0x0200 [0x00] [(0xFFFE, 0x34), (0xFFFF, 0x12)] [(.stack, 0x01), (.status, 0xC3)])
      [(.stack, 0xFE), (.status, 0xC7)] 0x1234 [(0x0101, 0x02), (0x0100, 0x02), (0x01FF, 0xF3)] 6 = true := by decide

/-- H12: the count cannot pass 2^64 - 1 (R263). -/
theorem test_H12_last_cycle :
    completes { machine Config.default 0x0200 [0xEA, 0xEA] [] [] with cycles := 0xFFFFFFFFFFFFFFFE } [] 0x0201 []
        0xFFFFFFFFFFFFFFFF = true ∧
      faults { machine Config.default 0x0201 [0xEA] [] [] with cycles := 0xFFFFFFFFFFFFFFFF } .cycleCounterOverflow .none
        [] 0x0201 [] 0xFFFFFFFFFFFFFFFF = true := by decide

/-- H1 and H2: writeArray is all or nothing at CAPACITY (R47). -/
theorem test_H1_H2_write_array :
    hostWriteArray 0x0FFE [1, 2, 3] 3 (constructed { Config.default with capacity := 0x1000 }) =
        (.failure .overlapOrOverrun, constructed { Config.default with capacity := 0x1000 }) ∧
      (hostWriteArray 0x0FFD [1, 2, 3] 3 (constructed { Config.default with capacity := 0x1000 })).2.mem =
        [(0x0FFD, 1), (0x0FFE, 2), (0x0FFF, 3)] := by decide

/-- R47 tests and copies by the length argument: above the list's it can fail, below it cuts the list. -/
theorem test_write_array_length :
    hostWriteArray 0x0FFE [1] 3 (constructed { Config.default with capacity := 0x1000 }) =
        (.failure .overlapOrOverrun, constructed { Config.default with capacity := 0x1000 }) ∧
      (hostWriteArray 0x0FFE [1, 2, 3] 2 (constructed { Config.default with capacity := 0x1000 })).2.mem =
        [(0x0FFE, 1), (0x0FFF, 2)] := by decide

/-- H4 and H5: read16 is big-endian and wraps (R49). -/
theorem test_H4_H5_read16 :
    (hostRead16 0x1234 (machine Config.default 0 [] [(0x1234, 0x12), (0x1235, 0x34)] [])).1 = .success 0x1234 ∧
      (hostRead16 0xFFFF (machine Config.default 0 [] [(0xFFFF, 0xAB), (0x0000, 0xCD)] [])).1 = .success 0xABCD := by
  decide

/-- H11: no step before the first reset (R26). -/
theorem test_H11_not_reset : step (constructed Config.default) = .refused .notReset := rfl

/-- A store to a device reaches it and no cell; the pre-read of a zero-page store reaches it first (R44, R301). -/
theorem test_R301_device_store :
    (match step (machine { Config.default with devices := [⟨0x0080, 1, 7⟩] } 0x0200 [0x85, 0x80] [] [(.accum, 0x42)]) with
      | .next t => t.deviceLog == [.write 7 0x0080 0x42, .read 7 0x0080] && t.mem == [(0x0200, 0x85), (0x0201, 0x80)]
      | _ => false) = true := by decide

/-! ## withFetchWord and the step after reset -/

/-- Whether the word is run as the first instruction after reset: a completed step, or the fault of an UNIMPLEMENTED byte. -/
def runsFirst (op : Nat) : Bool :=
  match step (State.reset.withFetchWord 24 op) with
  | .next _ => (metadata (BitVec.ofNat 8 op)).isSome
  | .fault f => decide (f.kind = .unimplementedOpcode) && (metadata (BitVec.ofNat 8 op)).isNone
  | .refused _ => false

theorem test_first_steps_00_3F : ((List.range 64).all fun k => runsFirst k) = true := by decide
theorem test_first_steps_40_7F : ((List.range 64).all fun k => runsFirst (64 + k)) = true := by decide
theorem test_first_steps_80_BF : ((List.range 64).all fun k => runsFirst (128 + k)) = true := by decide
theorem test_first_steps_C0_FF : ((List.range 64).all fun k => runsFirst (192 + k)) = true := by decide

/-! ## Witnesses: for every obligation with hypotheses, concrete states and operands that meet them -/

/-- The default configuration gives every address a cell. -/
theorem routable_default : Routable Config.default := by
  intro a
  have h : a.toNat < 65536 := a.isLt
  simp [route, resolve, zoneHit, deviceAt, Config.default, h]

/-- A machine of the default configuration with no listener is quiet for as many accesses as the counter has room for. -/
theorem quiet_default {s : State} {n : Nat} (hc : s.cfg = Config.default) (hl : s.listeners = [])
    (hn : s.cycles.toNat + n < 2 ^ 64) : Quiet n s :=
  ⟨hl, by rw [hc]; rfl, by rw [hc]; exact routable_default, hn⟩

theorem quiet_reset {n : Nat} (hn : n < 2 ^ 64) : Quiet n State.reset :=
  quiet_default rfl rfl (by rw [show State.reset.cycles.toNat = 0 from rfl]; omega)

/-- The last count from which a step of 8 accesses still completes. -/
def late : State := { State.reset with cycles := 0xFFFFFFFFFFFFFFF7 }

theorem quiet_late : Quiet 8 late := quiet_default rfl rfl (by decide)

/-- A machine on which a zero-page byte and an absolute one belong to a device. -/
def withDevice : State :=
  machine { Config.default with devices := [⟨0x0080, 1, 7⟩, ⟨0x2000, 8, 3⟩] } 0x0200 [] [] [(.accum, 0x42)]

/-- A machine that refuses sums above 0xFFFF, with 0xFFFF at the pointer 0x0080. -/
def strictSums : State :=
  machine { Config.default with absIndexOverflow := .fault } 0x0200 [] [(0x0080, 0xFF), (0x0081, 0xFF)]
    [(.indX, 1), (.indY, 0xFF)]

/-- A machine with cells below 0x1000 only. -/
def smallStore : State := machine { Config.default with capacity := 0x1000 } 0x0200 [0xAD, 0x00, 0x20] [] []

/-- A machine whose configuration asks the host oracle for decimal results. -/
def withOracle : State :=
  machine { Config.default with decimalResult := .hostOracle } 0x0200 [] [] [(.accum, 0x0A), (.status, 0x08)]

theorem witness_DecodeOfEncode :
    (Instr.ldaImm 0).wellFormed = true ∧ (Instr.jsr 0xFFFF).wellFormed = true ∧
    (Instr.unimplemented 0x02).wellFormed = true ∧ (Instr.unimplemented 0xFF).wellFormed = true := by decide

theorem witness_EncodeOfDecode :
    decode [0x6D, 0xFF, 0xFF] = .ok (.adcAbs 0xFFFF, []) ∧ decode [0xFF, 0x00] = .ok (.unimplemented 0xFF, [0x00]) :=
  ⟨rfl, rfl⟩

theorem witness_OpcodeTableSizesAndSentinels : metadata 0x00 = some ⟨.brk, .implied, 1⟩ := by decide

/-- At pc = 0xFFFF, where the operand byte is at 0x0000. -/
theorem witness_StepRunsDecodedInstruction :
    let s := machine Config.default 0xFFFF [0xA9, 0x5A, 0x00] [] []
    s.resetDone = true ∧ s.fault = none ∧
    decode [s.peek s.pc, s.peek (s.pc + 1), s.peek (s.pc + 2)] = .ok (.ldaImm 0x5A, [0x00]) ∧
    Quiet (encode (.ldaImm 0x5A)).length s :=
  ⟨rfl, rfl, rfl, quiet_default rfl rfl (by decide)⟩

theorem witness_StepRunsFetchedInstruction :
    ∃ u, fetchInstr smallStore = .next (.ldaAbs 0x2000, u) ∧ smallStore.resetDone = true ∧ smallStore.fault = none :=
  ⟨_, rfl, rfl, rfl⟩

theorem witness_StepRefusedOnlyWhenDisabled :
    (constructed Config.default).resetDone = false ∧
    ({ State.reset with fault := some ⟨.outOfRange, 0, .address 0x2000⟩ }).fault ≠ none ∧
    State.reset.resetDone = true ∧ State.reset.fault = none := by decide

theorem witness_PipelineWithAnyTables :
    let s := machine Config.default 0x0200 [0xB1, 0x80] [] []
    s.resetDone = true ∧ s.fault = none ∧ metadata (s.peek s.pc) = some ⟨.lda, .indirectIndexed, 2⟩ ∧
    Quiet (fetchAccesses .indirectIndexed) s ∧ s.cfg.absIndexOverflow = .wrap16 ∧
    metadata ((machine Config.default 0x0200 [0xFF] [] []).peek 0x0200) = none ∧
    Quiet 1 (machine Config.default 0x0200 [0xFF] [] []) :=
  ⟨rfl, rfl, by decide, quiet_default rfl rfl (by decide), rfl, by decide, quiet_default rfl rfl (by decide)⟩

theorem witness_PipelineWithAnyTables_indexFaults :
    indexFaults .absoluteX 0xFE 0xFF strictSums = false ∧ indexFaults .absoluteX 0xFF 0xFF strictSums = true := by decide

/-- The least sum above 0xFFFF, and the largest. -/
theorem witness_IndexedSumAboveTopFaults :
    strictSums.cfg.absIndexOverflow = .fault ∧
    (Instr.ldaAbsX 0xFFFF).entry = some ⟨.lda, .absoluteX, 3⟩ ∧
    (indexBase .absoluteX 0xFF 0xFF strictSums).toNat + (strictSums.reg .indX).toNat = 0x10000 ∧
    (Instr.ldaAbsY 0xFFFF).entry = some ⟨.lda, .absoluteY, 3⟩ ∧
    (indexBase .absoluteY 0xFF 0xFF strictSums).toNat + (strictSums.reg .indY).toNat = 0x100FE ∧
    (Instr.ldaIndY 0x80).entry = some ⟨.lda, .indirectIndexed, 2⟩ ∧
    (indexBase .indirectIndexed 0x80 0 strictSums).toNat + (strictSums.reg .indY).toNat = 0x100FE := by decide

/-- Its configuration differs from the default only in ABS_INDEX_OVERFLOW, so it is as quiet. -/
theorem witness_IndexedSumAboveTopFaults_quiet : Quiet 2 strictSums :=
  ⟨rfl, rfl, by
    intro a
    have h : a.toNat < 65536 := a.isLt
    simp [strictSums, machine, storeBytes, hostReset, constructed, hostWrite, transferWrite, writeRegister, discardMemory,
      route, resolve, zoneHit, deviceAt, Config.default, State.setReg, State.setCell, h], by decide⟩

theorem witness_LoadsWriteRegisterAndNZ :
    (Instr.ldaZpX 0xFF).entry = some ⟨.lda, .zeroPageX, 2⟩ ∧ (Instr.ldxZpY 0).entry = some ⟨.ldx, .zeroPageY, 2⟩ ∧
    (Instr.ldyAbsX 0xFFFF).entry = some ⟨.ldy, .absoluteX, 3⟩ ∧
    Quiet (execAccesses ⟨.lda, .zeroPageX, 2⟩) late ∧ Quiet (execAccesses ⟨.ldx, .zeroPageY, 2⟩) late ∧
    Quiet (execAccesses ⟨.ldy, .absoluteX, 3⟩) late ∧ indexFaults .zeroPageX 0xFF 0 late = false ∧
    indexFaults .zeroPageY 0 0 late = false ∧ indexFaults .absoluteX 0xFF 0xFF late = false :=
  ⟨rfl, rfl, rfl, quiet_late.mono (by decide), quiet_late.mono (by decide), quiet_late.mono (by decide), rfl, rfl, rfl⟩

theorem witness_StoresWriteTheEffectiveAddress :
    (Instr.staIndX 0xFF).entry = some ⟨.sta, .indexedIndirect, 2⟩ ∧ (Instr.stxAbs 0).entry = some ⟨.stx, .absolute, 3⟩ ∧
    (Instr.styZpX 1).entry = some ⟨.sty, .zeroPageX, 2⟩ ∧ Quiet (execAccesses ⟨.sta, .indexedIndirect, 2⟩) late ∧
    Quiet (execAccesses ⟨.stx, .absolute, 3⟩) late ∧ Quiet (execAccesses ⟨.sty, .zeroPageX, 2⟩) late ∧
    indexFaults .indexedIndirect 0xFF 0 late = false ∧ indexFaults .absolute 0 0 late = false ∧
    indexFaults .zeroPageX 1 0 late = false :=
  ⟨rfl, rfl, rfl, quiet_late.mono (by decide), quiet_late.mono (by decide), quiet_late.mono (by decide), rfl, rfl, rfl⟩

theorem witness_StoresReadTheirTargetFirst :
    withDevice.listeners = [] ∧ withDevice.cycles.toNat + execAccesses ⟨.sta, .zeroPage, 2⟩ < 2 ^ 64 ∧
    withDevice.cycles.toNat + execAccesses ⟨.sta, .absolute, 3⟩ < 2 ^ 64 ∧
    route withDevice.cfg (addressOf (.staZp 0x80) .zeroPage withDevice) = .device 7 0x0080 ∧
    route withDevice.cfg (addressOf (.staAbs 0x2007) .absolute withDevice) = .device 3 0x2007 ∧
    indexFaults .zeroPage 0x80 0 withDevice = false ∧ indexFaults .absolute 0x07 0x20 withDevice = false ∧
    pointerAddresses .zeroPage 0x80 withDevice = [] ∧ pointerAddresses .absolute 0x07 withDevice = [] := by decide

/-- The indirect modes, their pointers in cells at both ends of the zero page. -/
theorem witness_StoresReadTheirTargetFirst_indirect :
    let s := withDevice.setCell 0x00FF 0x07 |>.setCell 0x0000 0x20
    s.listeners = [] ∧ s.cycles.toNat + execAccesses ⟨.sta, .indirectIndexed, 2⟩ < 2 ^ 64 ∧
    (Instr.staIndX 0xFF).entry = some ⟨.sta, .indexedIndirect, 2⟩ ∧
    (Instr.staIndY 0xFF).entry = some ⟨.sta, .indirectIndexed, 2⟩ ∧
    (s.setReg .indX 0).reg .indX = 0 ∧ route s.cfg 0x00FF = .backing 0x00FF ∧ route s.cfg 0x0000 = .backing 0x0000 ∧
    pointerAddresses .indexedIndirect 0xFF (s.setReg .indX 0) = [0x00FF, 0x0000] ∧
    pointerAddresses .indirectIndexed 0xFF s = [0x00FF, 0x0000] ∧
    route s.cfg (addressOf (.staIndX 0xFF) .indexedIndirect (s.setReg .indX 0)) = .device 3 0x2007 ∧
    route s.cfg (addressOf (.staIndY 0xFF) .indirectIndexed (s.setReg .indY 0)) = .device 3 0x2007 ∧
    indexFaults .indexedIndirect 0xFF 0 s = false ∧ indexFaults .indirectIndexed 0xFF 0 (s.setReg .indY 0) = false := by
  decide

theorem witness_PushAndPullMoveTheStack :
    (∃ t, memWrite (stackAddress (late.reg .stack)) 1 late = .next t) ∧
    (∃ f, memWrite (stackAddress 0xFF) 1
      (machine { Config.default with capacity := 0x0100 } 0 [] [] [(.stack, 0xFF)]) = .fault f) ∧
    (∃ f, pull (machine { Config.default with capacity := 0x0100 } 0 [] [] [(.stack, 0xFF)]) = .fault f) :=
  ⟨⟨_, rfl⟩, ⟨_, rfl⟩, ⟨_, rfl⟩⟩

theorem witness_PushesStoreAtTheStack :
    Quiet 1 late ∧ ((Instr.pha = .pha ∧ (0 : Byte) = late.reg .accum) ∧
      (Instr.php = .php ∧ (0x30 : Byte) = late.reg .status ||| 0x30)) :=
  ⟨quiet_late.mono (by decide), by decide⟩

theorem witness_PullsLoadFromTheStack : Quiet 1 late := quiet_late.mono (by decide)

/-- D = 0; D = 1 with the algorithm on any bytes; the oracle asked, and not asked, of valid BCD operands. -/
theorem witness_AddSubtractWriteAccumulator :
    Quiet (execAccesses ⟨.adc, .immediate, 2⟩) late ∧ Quiet (execAccesses ⟨.sbc, .absoluteY, 3⟩) late ∧
    indexFaults .immediate 0 0 late = false ∧ indexFaults .absoluteY 0xFF 0xFF late = false ∧
    (Instr.adcImm 0).entry = some ⟨.adc, .immediate, 2⟩ ∧ (Instr.sbcAbsY 0xFFFF).entry = some ⟨.sbc, .absoluteY, 3⟩ ∧
    late.flag .d = false ∧ (late.setFlag .d true).flag .d = true ∧
    (late.setFlag .d true).cfg.decimalResult = .nmosAlgorithm ∧
    withOracle.flag .d = true ∧ withOracle.cfg.decimalResult = .hostOracle ∧
    ¬ (validBcd (withOracle.reg .accum) = true ∧ validBcd (dataOf (.adcImm 0x99) .immediate withOracle) = true) ∧
    (validBcd ((withOracle.setReg .accum 9).reg .accum) = true ∧
      validBcd (dataOf (.adcImm 0x99) .immediate withOracle) = true) ∧
    indexFaults .immediate 0x99 0 withOracle = false :=
  ⟨quiet_late.mono (by decide), quiet_late.mono (by decide), rfl, rfl, rfl, rfl, by decide⟩

theorem witness_AddSubtractWriteAccumulator_oracle : Quiet (execAccesses ⟨.adc, .immediate, 2⟩) withOracle :=
  ⟨rfl, rfl, by
    intro a
    have h : a.toNat < 65536 := a.isLt
    simp [withOracle, machine, storeBytes, hostReset, constructed, writeRegister, discardMemory,
      route, resolve, zoneHit, deviceAt, Config.default, State.setReg, h], by decide⟩

theorem witness_DecimalArithmeticInNumbers : validBcd 0x00 = true ∧ validBcd 0x99 = true ∧ validBcd 0x9A = false := by
  decide

theorem witness_ComparesWriteOnlyCZN :
    (Instr.cmpImm 0xFF).entry = some ⟨.cmp, .immediate, 2⟩ ∧ (Instr.cpxAbs 0).entry = some ⟨.cpx, .absolute, 3⟩ ∧
    (Instr.cpyZp 0).entry = some ⟨.cpy, .zeroPage, 2⟩ ∧ Quiet (execAccesses ⟨.cmp, .immediate, 2⟩) late ∧
    Quiet (execAccesses ⟨.cpx, .absolute, 3⟩) late ∧ Quiet (execAccesses ⟨.cpy, .zeroPage, 2⟩) late ∧
    indexFaults .immediate 0xFF 0 late = false ∧ indexFaults .absolute 0 0 late = false ∧
    indexFaults .zeroPage 0 0 late = false :=
  ⟨rfl, rfl, rfl, quiet_late.mono (by decide), quiet_late.mono (by decide), quiet_late.mono (by decide), rfl, rfl, rfl⟩

theorem witness_IncrementsStepTheCell :
    (Instr.incZp 0xFF).entry = some ⟨.inc, .zeroPage, 2⟩ ∧ (Instr.decAbsX 0).entry = some ⟨.dec, .absoluteX, 3⟩ ∧
    Quiet (execAccesses ⟨.inc, .zeroPage, 2⟩) late ∧ Quiet (execAccesses ⟨.dec, .absoluteX, 3⟩) late ∧
    indexFaults .zeroPage 0xFF 0 late = false ∧ indexFaults .absoluteX 0 0 late = false :=
  ⟨rfl, rfl, quiet_late.mono (by decide), quiet_late.mono (by decide), rfl, rfl⟩

theorem witness_LogicWritesAccumulator :
    let e : Mnemonic → Entry := fun n => ⟨n, .immediate, 2⟩
    (Instr.andImm 0xFF).entry = some (e .and) ∧ (Instr.oraImm 0).entry = some (e .ora) ∧
    (Instr.eorImm 1).entry = some (e .eor) ∧ Quiet (execAccesses (e .and)) late ∧ Quiet (execAccesses (e .ora)) late ∧
    Quiet (execAccesses (e .eor)) late ∧ indexFaults .immediate 0xFF 0 late = false ∧
    (0 : Byte) = late.reg .accum &&& dataOf (.andImm 0xFF) .immediate late ∧
    (0 : Byte) = late.reg .accum ||| dataOf (.oraImm 0) .immediate late ∧
    (1 : Byte) = late.reg .accum ^^^ dataOf (.eorImm 1) .immediate late :=
  ⟨rfl, rfl, rfl, quiet_late.mono (by decide), quiet_late.mono (by decide), quiet_late.mono (by decide), rfl, rfl, rfl, rfl⟩

theorem witness_BitTestWritesOnlyZNV :
    (Instr.bitAbs 0xFFFF).entry = some ⟨.bit, .absolute, 3⟩ ∧ Quiet (execAccesses ⟨.bit, .absolute, 3⟩) late ∧
    indexFaults .absolute 0xFF 0xFF late = false :=
  ⟨rfl, quiet_late.mono (by decide), rfl⟩

/-- Each of the four, in the Accumulator and in a memory form. -/
theorem witness_ShiftsMoveOneBit :
    let s := (late.setReg .accum 0x81).setCell 0x0080 0x81
    Quiet (execAccesses ⟨.asl, .accumulator, 1⟩) s ∧ Quiet (execAccesses ⟨.ror, .zeroPage, 2⟩) s ∧
    Quiet (execAccesses ⟨.lsr, .absolute, 3⟩) s ∧ Instr.aslAcc.entry = some ⟨.asl, .accumulator, 1⟩ ∧
    (Instr.rorZp 0x80).entry = some ⟨.ror, .zeroPage, 2⟩ ∧ (Instr.lsrAbs 0x0080).entry = some ⟨.lsr, .absolute, 3⟩ ∧
    Instr.rolAcc.entry = some ⟨.rol, .accumulator, 1⟩ ∧
    s.reg .accum = 0x81 ∧ s.peek (addressOf (.rorZp 0x80) .zeroPage s) = 0x81 ∧
    s.peek (addressOf (.lsrAbs 0x0080) .absolute s) = 0x81 ∧
    (0x02 : Byte) = 0x81 <<< 1 ∧ (0x40 : Byte) = 0x81 >>> 1 ∧
    (0x02 : Byte) = (0x81 <<< 1) ||| (if s.flag .c then 1 else 0) ∧
    (0x40 : Byte) = (0x81 >>> 1) ||| (if s.flag .c then 0x80 else 0) ∧
    indexFaults .accumulator 0 0 s = false ∧ indexFaults .zeroPage 0x80 0 s = false ∧
    indexFaults .absolute 0x80 0 s = false :=
  ⟨((quiet_late.setReg .accum 0x81).setCell 0x0080 0x81).mono (by decide),
    ((quiet_late.setReg .accum 0x81).setCell 0x0080 0x81).mono (by decide),
    ((quiet_late.setReg .accum 0x81).setCell 0x0080 0x81).mono (by decide), by decide⟩

theorem witness_JumpsSetThePc : Quiet 2 late := quiet_late.mono (by decide)
theorem witness_JsrPushesAndJumps : Quiet 2 late := quiet_late.mono (by decide)
theorem witness_RtsPullsAndAddsOne : Quiet 2 late := quiet_late.mono (by decide)
theorem witness_BrkTakesTheTrap : Quiet 5 late := quiet_late.mono (by decide)
theorem witness_RtiReturnsFromTheTrap : Quiet 3 late := quiet_late.mono (by decide)
/-- With no zone, at SP = 0x00, where the frame wraps within page 1. -/
theorem witness_ReturnsUndoCalls :
    let cell : Byte → Nat := fun k => resolve late.cfg (stackAddress (late.reg .stack - k))
    Quiet 8 late ∧ cell 0 ≠ cell 1 ∧ cell 0 ≠ cell 2 ∧ cell 1 ≠ cell 2 := ⟨quiet_late, by decide⟩

/-- With room for the accesses, and with one too few. -/
theorem witness_EveryInstructionCompletes :
    Routable late.cfg ∧ late.cfg.absIndexOverflow = .wrap16 ∧ Instr.brk.entry = some ⟨.brk, .implied, 1⟩ ∧
    late.cycles.toNat + execAccesses ⟨.brk, .implied, 1⟩ < 2 ^ 64 ∧
    2 ^ 64 ≤ ({ late with cycles := 0xFFFFFFFFFFFFFFFB }).cycles.toNat + execAccesses ⟨.brk, .implied, 1⟩ :=
  ⟨routable_default, by decide⟩

theorem witness_UnimplementedByteFaults :
    let s := machine Config.default 0x0200 [0x02] [] []
    s.resetDone = true ∧ s.fault = none ∧ (∃ u, memRead s.pc s = .next (0x02, u)) ∧ metadata 0x02 = none :=
  ⟨rfl, rfl, ⟨_, rfl⟩, by decide⟩

theorem witness_OnlyListedFlagsAndRegistersChange :
    Instr.sed.entry = some ⟨.sed, .implied, 1⟩ ∧ (∃ t, exec .sed late = .next t) ∧ Mnemonic.sed ∉ flagWriters .c ∧
    writesReg .accum ⟨.sed, .implied, 1⟩ = false :=
  ⟨rfl, ⟨_, rfl⟩, by decide, by decide⟩

theorem witness_NZFollowTheWrittenRegister :
    (∃ t, exec (.ldyImm 0x80) late = .next t) ∧ (∃ t, exec (.sbcImm 0) late = .next t) ∧ late.flag .d = false ∧
    (∃ t, exec .rorAcc late = .next t) :=
  ⟨⟨_, rfl⟩, ⟨_, rfl⟩, rfl, ⟨_, rfl⟩⟩

/-- A step that completes, and one that faults. -/
theorem witness_StepKeepsReservedState :
    (∃ t, step (machine Config.default 0x0200 [0x28] [(0x01FF, 0xFF)] [(.stack, 0xFE)]) = .next t) ∧
    (∃ f, step smallStore = .fault f) :=
  ⟨⟨_, rfl⟩, ⟨_, rfl⟩⟩

theorem witness_UnreadBitsAreNotObserved :
    (∃ t, step (machine Config.default 0x0200 [0x08] [] []) = .next t) ∧ (∃ f, step smallStore = .fault f) ∧
    step (constructed Config.default) = .refused .notReset :=
  ⟨⟨_, rfl⟩, ⟨_, rfl⟩, rfl⟩

theorem witness_PcMovesPastTheInstruction :
    (∃ t, exec (.ldaImm 1) late = .next t) ∧ Mnemonic.lda ∉ controlTransfers ∧
    (∃ t, exec (.beq 0xFE) late = .next t) ∧ (Instr.beq 0xFE).entry = some ⟨.beq, .relative, 2⟩ :=
  ⟨⟨_, rfl⟩, by decide, ⟨_, rfl⟩, rfl⟩

theorem witness_StepCostsItsAccesses :
    (∃ u t, memRead smallStore.pc smallStore = .next (0xAD, u) ∧ metadata 0xAD = some ⟨.lda, .absolute, 3⟩ ∧
      step smallStore = .fault t) ∧
    (∃ u t, memRead 0x0200 (machine Config.default 0x0200 [0xEA] [] []) = .next (0xEA, u) ∧
      metadata 0xEA = some ⟨.nop, .implied, 1⟩ ∧ step (machine Config.default 0x0200 [0xEA] [] []) = .next t) :=
  ⟨⟨_, _, rfl, by decide, rfl⟩, ⟨_, _, rfl, by decide, rfl⟩⟩

theorem witness_NonStoringInstructionsKeepMemory :
    late.listeners = [] ∧ (Instr.cmpImm 1).entry = some ⟨.cmp, .immediate, 2⟩ ∧
    storedAddresses ⟨.cmp, .immediate, 2⟩ (.cmpImm 1) late = [] ∧ (∃ t, exec (.cmpImm 1) late = .next t) ∧
    storedAddresses ⟨.asl, .accumulator, 1⟩ .aslAcc late = [] ∧ (∃ t, exec .aslAcc late = .next t) :=
  ⟨rfl, rfl, rfl, ⟨_, rfl⟩, rfl, ⟨_, rfl⟩⟩

/-- The cell beside the one PHA stores to. -/
theorem witness_StoresChangeOnlyTheirAddresses :
    late.listeners = [] ∧ late.cfg.devices = [] ∧ Instr.pha.entry = some ⟨.pha, .implied, 1⟩ ∧
    (∃ t, exec .pha late = .next t) ∧
    storedAddresses ⟨.pha, .implied, 1⟩ .pha late = [0x0100] ∧ resolve late.cfg 0x0101 ≠ resolve late.cfg 0x0100 :=
  ⟨rfl, rfl, rfl, ⟨_, rfl⟩, by decide, by decide⟩

/-- One fault of each kind, and an indexed sum refused. -/
theorem witness_FaultWritesItsRecord :
    (∃ t, step (machine Config.default 0x0200 [0x02] [] []) = .fault (.unimplementedOpcode t)) ∧
    (∃ t, step smallStore = .fault (.outOfRange t)) ∧
    (∃ t, step (machine { Config.default with absIndexOverflow := .fault } 0x0200 [0xBD, 0xFF, 0xFF] [] [(.indX, 1)]) =
      .fault (.outOfRange t)) ∧
    (∃ t, step { State.reset with cycles := 0xFFFFFFFFFFFFFFFF } = .fault (.cycleCounterOverflow t)) :=
  ⟨⟨_, rfl⟩, ⟨_, rfl⟩, ⟨_, rfl⟩, ⟨_, rfl⟩⟩

theorem witness_FaultsStayUntilReset :
    (∃ t, step { State.reset with cycles := 0xFFFFFFFFFFFFFFFF } = .fault (.cycleCounterOverflow t)) ∧
    route State.reset.cfg 0x0000 ≠ .outOfRange ∧ route State.reset.cfg 0xFFFF ≠ .outOfRange ∧
    State.reset.cfg = Config.default ∧
    ({ State.reset with fault := some ⟨.outOfRange, 0, .address 0x2000⟩ }).fault ≠ none :=
  ⟨⟨_, rfl⟩, by decide, by decide, rfl, by decide⟩

/-- The four cases at the boundaries of CAPACITY, of a device's range and of the counter. -/
theorem witness_CountedAccessesInOrder :
    route smallStore.cfg 0x1000 = .outOfRange ∧ route smallStore.cfg 0x0FFF = .backing 0x0FFF ∧
    route withDevice.cfg 0x2000 = .device 3 0x2000 ∧ route withDevice.cfg 0x2007 = .device 3 0x2007 ∧
    route withDevice.cfg 0x2008 = .backing 0x2008 ∧
    ({ smallStore with cycles := 0xFFFFFFFFFFFFFFFF }).cycles.toNat = 2 ^ 64 - 1 ∧
    smallStore.cycles.toNat ≠ 2 ^ 64 - 1 ∧ withDevice.cycles.toNat ≠ 2 ^ 64 - 1 := by decide

theorem witness_DueListenersFireOnceInOrder : State.reset.listeners = [] := rfl

theorem witness_HostActionsLeaveTheCpu :
    (∃ t, t = invoke ⟨0, 0, 0⟩ State.reset) ∧ (∃ t, t = (hostWriteArray 0 [1] 1 State.reset).2) := ⟨⟨_, rfl⟩, ⟨_, rfl⟩⟩

/-- The three routes, read16 across the top, and a pair whose second byte has no cell. -/
theorem witness_HostReadsAndWrites :
    let s := machine Config.default 0 [] [(0xFFFF, 0xAB), (0x0000, 0xCD)] []
    route smallStore.cfg 0x0FFF = .backing 0x0FFF ∧ route smallStore.cfg 0x1000 = .outOfRange ∧
    route { withDevice.cfg with capacity := 0x2000 } 0x2007 = .device 3 0x2007 ∧
    route { withDevice.cfg with capacity := 0x2000 } 0x2008 = .outOfRange ∧
    route withDevice.cfg 0x2000 = .device 3 0x2000 ∧ hostRead 0xFFFF s = (.success 0xAB, s) ∧
    hostRead (0xFFFF + 1) s = (.success 0xCD, s) := by decide

/-- A length above the list's that ends at CAPACITY: the call succeeds, and the listed byte is stored. -/
theorem witness_WriteArrayIsAllOrNothing_missing :
    (0x0FFD : Word).toNat + 3 ≤ smallStore.cfg.capacity ∧ ([7] : List Byte).length < 3 ∧
    (hostWriteArray 0x0FFD [7] 3 smallStore).1 = .success () ∧
    (hostWriteArray 0x0FFD [7] 3 smallStore).2.cell 0x0FFD = 7 := ⟨by decide, by decide, rfl, rfl⟩

/-- One byte past CAPACITY, and up to it; a cell and a device. -/
theorem witness_WriteArrayIsAllOrNothing :
    (0x0FFE : Word).toNat + 3 > smallStore.cfg.capacity ∧ (0x0FFD : Word).toNat + 3 ≤ smallStore.cfg.capacity ∧
    smallStore.cfg.wellFormed = true ∧ (2 < 3 ∧ ([1, 2, 3] : List Byte)[2]? = some 3) ∧
    route smallStore.cfg (0x0FFD + BitVec.ofNat 16 2) = .backing 0x0FFF ∧
    route withDevice.cfg (0x1FFF + BitVec.ofNat 16 1) = .device 3 0x2000 := by decide

theorem witness_MirrorsAreViews :
    let z : Zone := ⟨0x0400, 0x0100, [0x0800, 0x0C00]⟩
    let c := { Config.default with zones := [z] }
    c.wellFormed = true ∧ z ∈ c.zones ∧ 0x0C00 ∈ z.mirrors ∧ 0xFF < z.length ∧
    route c (BitVec.ofNat 16 (z.start + 0xFF)) = .backing 0x04FF := by decide

theorem witness_ResetZeroesRegistersAndKeepsTime :
    State.reset.cfg.resetMemory = .unspecified ∧
    ({ State.reset with cfg := { Config.default with resetMemory := .preserved } }).cfg.resetMemory = .preserved := by
  decide

theorem witness_ConstructionWaitsForReset :
    ({ Config.default with capacity := 0 }).wellFormed = false ∧ Config.default.wellFormed = true := by decide

theorem witness_HostPortsListenersAndReadState :
    State.reset.resetDone = true ∧ (constructed Config.default).resetDone = false := by decide

/-- The invariant holds of the machine right after reset. -/
theorem reset_inv : State.reset.Inv :=
  ⟨by decide, by decide, by simp [State.reset], by decide, by decide, by decide, by decide⟩

theorem witness_InvariantKeptByEveryStep :
    (machine Config.default 0x0200 [0x08] [] []).Inv ∧
    (∃ t, step (machine Config.default 0x0200 [0x08] [] []) = .next t) ∧
    (machine Config.default 0x0200 [0x02] [] []).Inv ∧
    (∃ f, step (machine Config.default 0x0200 [0x02] [] []) = .fault f) :=
  ⟨⟨by decide, by decide, by decide, by decide, by decide, by decide, by decide⟩, ⟨_, rfl⟩,
    ⟨by decide, by decide, by decide, by decide, by decide, by decide, by decide⟩, ⟨_, rfl⟩⟩

theorem witness_InvariantKeptByTheHost :
    Config.default.wellFormed = true ∧ State.reset.Inv ∧ (Reg.accum ∈ [Reg.accum, .indX, .indY, .stack]) ∧
    Reg.status ≠ .accum ∧ (0xCF : Byte) &&& 0x30 = 0 ∧ Reg.s5 ≠ .status ∧ Reg.status ∉ [Reg.s5, .s6, .s7] :=
  ⟨by decide, reset_inv, by decide, by decide, by decide, by decide, by decide⟩

/-- STATUS and a spare slot written by the host do break their own clause. -/
theorem witness_InvariantKeptByTheHost_broken :
    ¬ (writeRegister .status 0x10 State.reset).reg .status &&& 0x30 = 0 ∧
    ¬ (writeRegister .s7 1 State.reset).reg .s7 = 0 := by decide

end Sys2Proof.Tests
end

section
/-!
PROOFS. 00_scope.md: the step is the pipeline with the default METADATA and SEMANTICS (R5), and N and Z follow the
written register (R8).
-/

namespace Sys2Proof.Machine

/-! ### The step and the pipeline (R5, R100, R115, R119 to R121) -/

theorem andThen_assoc {α β γ : Type} (o : Host.Outcome α Fault Refusal) (k : α → Host.Outcome β Fault Refusal)
    (l : β → Host.Outcome γ Fault Refusal) : andThen (andThen o k) l = andThen o fun x => andThen (k x) l := by
  cases o <;> rfl

/-- Two continuations need to agree only on what the first part answers. -/
theorem andThen_congr {α β : Type} {o : Host.Outcome α Fault Refusal} {k l : α → Host.Outcome β Fault Refusal}
    (h : ∀ x, o = .next x → k x = l x) : andThen o k = andThen o l := by
  cases o with
  | next x => exact h x rfl
  | fault f => rfl
  | refused r => rfl

theorem semantics_of_metadata {op : Byte} {e : Entry} (h : metadata op = some e) :
    semantics op = operation e.name := by
  simp [semantics, h]

theorem operandBytesOf_of_metadata {op : Byte} {e : Entry} (h : metadata op = some e) :
    operandBytesOf op = e.mode.operandBytes := by
  simp [operandBytesOf, h]

theorem operandBytesOf_of_unimplemented {op : Byte} (h : metadata op = none) : operandBytesOf op = 0 := by
  simp [operandBytesOf, h]

theorem instrOf_of_unimplemented {op : Byte} (h : metadata op = none) (b1 b2 : Byte) :
    instrOf op b1 b2 = .unimplemented op := by
  simp [instrOf, Option.map_eq_none_iff.1 h]

/-- exec of what fetch decodes is the pipeline's entry of the opcode, run with its default operation. -/
theorem exec_instrOf {op b1 b2 : Byte} {e : Entry} {s u : State} (he : metadata op = some e)
    (h : readOperands e.mode.operandBytes s = .next ((b1, b2), u)) :
    exec (instrOf op b1 b2) u = runEntry e.mode e.size b1 b2 (semantics op) u := by
  rw [← operandBytesOf_of_metadata he] at h
  obtain ⟨-, h0, h1⟩ := readOperands_effect h (operandBytesOf_le op)
  obtain ⟨-, hentry, -, hb1, hb2⟩ := instrOf_facts op b1 b2 h0 h1
  rw [exec_eq_runEntry (hentry.trans he), hb1, hb2, semantics_of_metadata he]

/-- The step by parts: the opcode read, the operand reads, then exec of the decoded instruction. -/
theorem step_eq (s : State) :
    step s = whenEnabled s (andThen (memRead s.pc s) fun x => andThen (readOperands (operandBytesOf x.1) x.2) fun y =>
      exec (instrOf x.1 y.1.1 y.1.2) y.2) := by
  simp only [step, fetchInstr, andThen_assoc, andThen_next]

/-- Settles O8: after the opcode read the two differ only in going through the decoded instruction, and exec of that is
its row's entry run with its operation. -/
theorem stepIsThePipelineWithDefaultTables : Obligations.StepIsThePipelineWithDefaultTables := by
  intro s
  rw [step_eq, stepWith]
  refine congrArg (whenEnabled s) (andThen_congr fun ⟨op, u⟩ _ => ?_)
  cases he : metadata op with
  | none =>
    simp only [he, operandBytesOf_of_unimplemented he, readOperands, andThen_next, instrOf_of_unimplemented he]
    rfl
  | some e =>
    simp only [he, operandBytesOf_of_metadata he]
    exact andThen_congr fun _ h => exec_instrOf he h

/-! ### N and Z of the written register (R8) -/

/-- N and Z are those of a register's byte: what `NZ` of R8 leaves after a write of the register. -/
def State.NZOf (t : State) (r : Reg) : Prop :=
  t.flag .n = (t.reg r).getLsbD 7 ∧ t.flag .z = decide (t.reg r = 0)

section
variable {p : Params} {r : Reg} {s t : State}

theorem State.NZOf.of_regs {u : State} (h : u.NZOf r) (ht : t.regs = u.regs) : t.NZOf r := by
  unfold State.NZOf State.flag State.reg
  rw [ht]
  exact h

theorem nzOf_setReg_setNZ (s : State) (hr : r ≠ .status) (v : Byte) : ((s.setReg r v).setNZ v).NZOf r := by
  simp [State.NZOf, hr]

theorem nzOf_writeAlu (s : State) {o : AluOut} (hn : o.n = o.value.getLsbD 7) (hz : o.z = decide (o.value = 0)) :
    (s.writeAlu o).NZOf .accum := by
  simp [State.NZOf, hn, hz]

theorem loadReg_nz (hr : r ≠ .status) (h : loadReg r p s = .next t) : t.NZOf r := by
  obtain ⟨v, e⟩ := loadReg_effect h
  exact (nzOf_setReg_setNZ s hr v).of_regs e.regs

theorem logic_nz {f : Byte → Byte → Byte} (h : logic f p s = .next t) : t.NZOf .accum := by
  obtain ⟨v, e⟩ := logic_effect h
  exact (nzOf_setReg_setNZ s (by decide) v).of_regs e.regs

theorem opPla_nz (h : opPla p s = .next t) : t.NZOf .accum := by
  rw [opPla, andThen_eq_next] at h
  obtain ⟨⟨v, u⟩, -, h2⟩ := h
  cases h2
  exact nzOf_setReg_setNZ u (by decide) v

/-- With D = 0, N and Z are of the result byte (R180, R181); the decimal algorithms set them otherwise. -/
theorem addSubtract_nz {op : DecimalOp} (hd : s.flag .d = false) (h : addSubtract op p s = .next t) :
    t.NZOf .accum := by
  obtain ⟨o, e, ho⟩ := addSubtract_effect h
  obtain ⟨m, rfl⟩ := ho hd
  exact (nzOf_writeAlu s (by cases op <;> rfl) (by cases op <;> rfl)).of_regs e.regs

theorem shift_accumulator_nz {carry : Byte → Bool} {f : Byte → Byte} (hm : p.mode = .accumulator)
    (h : shift carry f p s = .next t) : t.NZOf .accum := by
  obtain ⟨v, b, e, -⟩ := shift_effect h
  exact (nzOf_setReg_setNZ (s.setFlag .c b) (by decide) v).of_regs (e hm).regs

end

/-- The rows whose N and Z are of the register they write, whatever D is, with that register (R140 to R142, R162 to R166,
R170, R187 to R190, R200 to R202). -/
def nzRows : List (Mnemonic × Reg) :=
  [(.lda, .accum), (.ldx, .indX), (.ldy, .indY), (.tax, .indX), (.tay, .indY), (.txa, .accum), (.tya, .accum),
    (.tsx, .indX), (.pla, .accum), (.and, .accum), (.ora, .accum), (.eor, .accum), (.inx, .indX), (.iny, .indY),
    (.dex, .indX), (.dey, .indY)]

/-- Splitting on the mnemonic leaves the listed rows, each with its own register. -/
theorem operation_nz_of_nzRows {n : Mnemonic} {r : Reg} {p : Params} {s t : State} (hr : (n, r) ∈ nzRows)
    (h : operation n p s = .next t) : t.NZOf r := by
  cases n <;> simp only [nzRows, List.mem_cons, Prod.mk.injEq, reduceCtorEq, false_and, true_and, false_or, or_false,
    List.not_mem_nil] at hr
  all_goals subst hr
  case lda | ldx | ldy => exact loadReg_nz (by decide) h
  case pla => exact opPla_nz (p := p) h
  case and | ora | eor => exact logic_nz h
  case tax | tay | txa | tya | tsx | inx | iny | dex | dey =>
    cases h
    exact nzOf_setReg_setNZ s (by decide) _

theorem operation_nz_of_binary {n : Mnemonic} {p : Params} {s t : State} (hn : n ∈ [.adc, .sbc])
    (hd : s.flag .d = false) (h : operation n p s = .next t) : t.NZOf .accum := by
  simp only [List.mem_cons, List.not_mem_nil, or_false] at hn
  obtain rfl | rfl := hn <;> exact addSubtract_nz hd h

theorem operation_nz_of_shift {n : Mnemonic} {p : Params} {s t : State} (hn : n ∈ [.asl, .lsr, .rol, .ror])
    (hm : p.mode = .accumulator) (h : operation n p s = .next t) : t.NZOf .accum := by
  simp only [List.mem_cons, List.not_mem_nil, or_false] at hn
  obtain rfl | rfl | rfl | rfl := hn <;> exact shift_accumulator_nz hm h

/-- Settles O40: the rest of fetch keeps D, and the operation of each listed row ends in `NZ` of what it wrote. -/
theorem nzFollowTheWrittenRegister : Obligations.NZFollowTheWrittenRegister := by
  intro i e r s t he h hw
  obtain ⟨o, a, u, hu, hop⟩ := exec_eq_next he h
  obtain hr | ⟨hn, hd, rfl⟩ | ⟨hn, hm, rfl⟩ := hw
  · exact operation_nz_of_nzRows hr hop
  · exact operation_nz_of_binary hn (by rwa [State.advance_flag, hu.cpu.flag]) hop
  · exact operation_nz_of_shift hn hm hop

end Sys2Proof.Machine
end

section
/-!
PROOFS. 10_state.md: every step keeps the invariant and the reserved state; what one instruction may write and where it
leaves pc; faults that stay until reset; bits 4 and 5 of STATUS and the spare slots are not observed; the flags as bits.
-/

namespace Sys2Proof.Machine

/-! ### The invariant (R11, R14, R22, R23, R40, R43, R45) -/

/-- Each move of a step keeps the invariant. -/
theorem inv_closed : Closed fun s t => s.Inv → t.Inv where
  refl _ := id
  trans h g := g ∘ h
  read e hs := memRead_inv hs e
  write e hs := memWrite_inv hs e
  reg v _ hr hs := setReg_inv hs hr v
  status hp hs := setStatus_inv hs hp
  pc w _ hs := setPc_inv hs w
  draw b _ hs := countDraw_inv hs b
  fault k d _ hs := withFault_inv hs k d

/-- Settles O58: the invariant is kept by every move, so by every step. -/
theorem invariantKeptByEveryStep : Obligations.InvariantKeptByEveryStep := by
  intro s hs
  have h := inv_closed.step s
  exact ⟨fun t e => h.next t e hs, fun f e => h.fault f e hs⟩

/-! ### next_seq only rises (R23) -/

theorem transferRead_nextSeq {r : Route} {s u : State} {v : Byte} (h : transferRead r s = some (v, u)) :
    u.nextSeq = s.nextSeq := by
  cases r <;> cases h <;> rfl

theorem transferWrite_nextSeq {r : Route} {s u : State} {v : Byte} (h : transferWrite r v s = some u) :
    u.nextSeq = s.nextSeq := by
  cases r <;> cases h <;> rfl

theorem hostRead_nextSeq (a : Word) (s : State) : (hostRead a s).2.nextSeq = s.nextSeq := by
  unfold hostRead
  split
  · next h => exact transferRead_nextSeq h
  · rfl

theorem hostWrite_nextSeq (a : Word) (v : Byte) (s : State) : (hostWrite a v s).2.nextSeq = s.nextSeq := by
  unfold hostWrite
  split
  · next h => exact transferWrite_nextSeq h
  · rfl

theorem storeBytes_nextSeq (bs : List Byte) (a : Word) (s : State) : (storeBytes bs a s).nextSeq = s.nextSeq := by
  induction bs generalizing a s with
  | nil => rfl
  | cons v bs ih => exact (ih _ _).trans (hostWrite_nextSeq a v s)

theorem hostWriteArray_nextSeq (a : Word) (bs : List Byte) (n : Nat) (s : State) :
    (hostWriteArray a bs n s).2.nextSeq = s.nextSeq := by
  unfold hostWriteArray
  split
  · rfl
  · rw [State.countDraw_nextSeq, storeBytes_nextSeq]

theorem applyAction_nextSeq_le (s : State) (a : HostAction) : s.nextSeq ≤ (applyAction s a).nextSeq := by
  cases a with
  | read a => exact (hostRead_nextSeq a s).ge
  | read16 a => exact ((hostRead_nextSeq (a + 1) _).trans (hostRead_nextSeq a s)).ge
  | write a v => exact (hostWrite_nextSeq a v s).ge
  | writeArray a bs n => exact (hostWriteArray_nextSeq a bs n s).ge
  | addListener target id => exact Nat.le_succ _
  | changeDevice d tag => exact Nat.le_refl _

theorem applyActions_nextSeq_le (as : List HostAction) (s : State) : s.nextSeq ≤ (applyActions as s).nextSeq := by
  induction as generalizing s with
  | nil => exact Nat.le_refl _
  | cons a as ih => exact (applyAction_nextSeq_le s a).trans (ih _)

theorem invokeAll_nextSeq_le (ls : List Listener) (s : State) : s.nextSeq ≤ (invokeAll ls s).nextSeq := by
  induction ls generalizing s with
  | nil => exact Nat.le_refl _
  | cons l ls ih => exact (applyActions_nextSeq_le _ { s with draws := s.draws + 1 }).trans (ih _)

theorem tick_nextSeq_le (s : State) : s.nextSeq ≤ s.tick.nextSeq :=
  invokeAll_nextSeq_le _ { s with
    cycles := s.cycles + 1
    listeners := s.listeners.filter fun l => !State.isDue { s with cycles := s.cycles + 1 } l }

theorem memRead_nextSeq_le {a : Word} {v : Byte} {s t : State} (h : memRead a s = .next (v, t)) :
    s.nextSeq ≤ t.nextSeq := by
  obtain ⟨u, hu, -, rfl⟩ := memRead_eq_next.1 h
  exact (transferRead_nextSeq hu).ge.trans (tick_nextSeq_le u)

theorem memWrite_nextSeq_le {a : Word} {v : Byte} {s t : State} (h : memWrite a v s = .next t) :
    s.nextSeq ≤ t.nextSeq := by
  obtain ⟨u, hu, -, rfl⟩ := memWrite_eq_next.1 h
  exact (transferWrite_nextSeq hu).ge.trans (tick_nextSeq_le u)

/-! ### What no step changes (R11, R14, R21, R23) -/

/-- Bits 4 and 5 of STATUS, the spare slots, the configuration and the reset flag are the same, and neither counter is
lower. -/
structure KeepsReserved (s t : State) : Prop where
  statusBits : t.reg .status &&& 0x30 = s.reg .status &&& 0x30
  spare      : ∀ r ∈ [Reg.s5, .s6, .s7], t.reg r = s.reg r
  cfg        : t.cfg = s.cfg
  resetDone  : t.resetDone = s.resetDone
  cycles     : s.cycles.toNat ≤ t.cycles.toNat
  nextSeq    : s.nextSeq ≤ t.nextSeq

theorem KeepsReserved.of_accessed {s t : State} (h : Accessed s t) (hn : s.nextSeq ≤ t.nextSeq) : KeepsReserved s t :=
  ⟨by rw [h.cpu.reg], fun r _ => h.cpu.reg r, h.cpu.cfg, h.cpu.resetDone, by rw [h.cycles]; exact Nat.le_succ _, hn⟩

/-- A change of neither registers, configuration, reset flag nor counters. -/
theorem KeepsReserved.of_same {s t : State} (hr : t.regs = s.regs) (hc : t.cfg = s.cfg)
    (hd : t.resetDone = s.resetDone) (hy : t.cycles = s.cycles) (hn : t.nextSeq = s.nextSeq) : KeepsReserved s t :=
  ⟨by rw [State.reg, hr]; rfl, fun r _ => by rw [State.reg, hr]; rfl, hc, hd, by rw [hy], hn.ge⟩

theorem keepsReserved_setReg {r : Reg} (hr : r = .accum ∨ r = .indX ∨ r = .indY ∨ r = .stack) (v : Byte) (s : State) :
    KeepsReserved s (s.setReg r v) := by
  refine ⟨?_, fun q hq => ?_, rfl, rfl, Nat.le_refl _, Nat.le_refl _⟩
  · rcases hr with rfl | rfl | rfl | rfl <;> rfl
  · rw [State.setReg_reg, if_neg]
    rintro rfl
    rcases hr with rfl | rfl | rfl | rfl <;> simp at hq

theorem keepsReserved_setStatus {p : Byte} {s : State} (hp : p &&& 0x30 = s.reg .status &&& 0x30) :
    KeepsReserved s (s.setReg .status p) := by
  refine ⟨hp, fun q hq => ?_, rfl, rfl, Nat.le_refl _, Nat.le_refl _⟩
  rw [State.setReg_reg, if_neg]
  rintro rfl
  simp at hq

theorem keepsReserved_closed : Closed KeepsReserved where
  refl _ := .of_same rfl rfl rfl rfl rfl
  trans h g := ⟨g.statusBits.trans h.statusBits, fun r hr => (g.spare r hr).trans (h.spare r hr), g.cfg.trans h.cfg,
    g.resetDone.trans h.resetDone, h.cycles.trans g.cycles, h.nextSeq.trans g.nextSeq⟩
  read e := .of_accessed (memRead_accessed e) (memRead_nextSeq_le e)
  write e := .of_accessed (memWrite_accessed e) (memWrite_nextSeq_le e)
  reg v s hr := keepsReserved_setReg hr v s
  status hp := keepsReserved_setStatus hp
  pc _ _ := .of_same rfl rfl rfl rfl rfl
  draw _ _ := .of_same (State.countDraw_regs _ _) (State.countDraw_cfg _ _) (State.countDraw_resetDone _ _)
    (State.countDraw_cycles _ _) (State.countDraw_nextSeq _ _)
  fault _ _ _ := .of_same rfl rfl rfl rfl rfl

/-- Settles O41: every move of a step keeps the reserved state. -/
theorem stepKeepsReservedState : Obligations.StepKeepsReservedState := by
  intro s t h
  have hs := keepsReserved_closed.step s
  have hk : KeepsReserved s t := by
    obtain h | ⟨f, h, rfl⟩ := h
    · exact hs.next t h
    · exact hs.fault f h
  exact ⟨hk.statusBits, hk.spare .s5 (by simp), hk.spare .s6 (by simp), hk.spare .s7 (by simp), hk.cfg, hk.resetDone,
    hk.cycles, hk.nextSeq⟩

/-! ### What one instruction may write (R12, R13, R15 to R18, R20) -/

/-- Settles O39: the rest of fetch and the pre-advance keep the registers, and the operation writes what its row lists. -/
theorem onlyListedFlagsAndRegistersChange : Obligations.OnlyListedFlagsAndRegistersChange := by
  intro i e s t he h
  obtain ⟨o, a, u, f, w, -, hu, hd⟩ := exec_does he h
  obtain rfl := hd.effect.regs
  refine ⟨fun g hg => ?_, fun r hr hw => ?_⟩
  · exact (hd.writes.flags g hg).trans (by rw [State.advance_flag, hu.cpu.flag])
  · exact (hd.writes.regs r e.size hr hw).trans (by rw [State.advance_reg, hu.cpu.reg])

theorem entry_relative {i : Instr} {e : Entry} (he : i.entry = some e) (hm : e.mode = .relative) :
    e.size = 2 ∧ e.name ∈ [.bcc, .bcs, .beq, .bmi, .bne, .bpl, .bvc, .bvs] := by
  cases i <;> first | (cases he; first | exact ⟨rfl, by decide⟩ | cases hm) | cases he

/-- Settles O43: the rest of fetch keeps pc, the pre-advance moves it past the instruction, and an operation that is no
control transfer leaves it there; a branch may put the address of its mode in its place. -/
theorem pcMovesPastTheInstruction : Obligations.PcMovesPastTheInstruction := by
  intro i e s t he h
  obtain ⟨o, a, u, f, w, hr, hu, hd⟩ := exec_does he h
  have hpc : (u.advance e.size).pc = s.pc + BitVec.ofNat 16 e.size := by rw [State.advance_pc, hu.cpu.pc]
  refine ⟨fun hn => by rw [hd.effect.pc, hd.plain hn, hpc], fun hm => ?_⟩
  obtain ⟨hsize, hbranch⟩ := entry_relative he hm
  rw [hm] at hr
  cases hr
  obtain hw | hw := hd.branch hbranch
  · exact .inl (by rw [hd.effect.pc, hw, hpc, hsize]; rfl)
  · exact .inr (hd.effect.pc.trans hw)

/-- Bit 7 of a byte is its sign. -/
theorem getLsbD_seven (v : Byte) : v.getLsbD 7 = decide (128 ≤ v.toNat) :=
  (BitVec.msb_eq_getLsbD_last v).symm.trans (BitVec.msb_eq_decide v)

/-- Settles O12: STATUS is its bits, and the writes are those of the state's flag lemmas. -/
theorem statusFlagsAreBits : Obligations.StatusFlagsAreBits := by
  refine ⟨fun p => ⟨rfl, rfl, rfl, rfl, rfl, rfl, rfl, rfl⟩, fun s f g b => s.setFlag_flag f g b, fun s v => ?_⟩
  refine ⟨?_, ?_, fun g hn hz => ?_⟩
  · rw [State.setNZ_flag, if_neg (by decide), if_pos rfl, getLsbD_seven]
  · rw [State.setNZ_flag, if_pos rfl]
  · rw [State.setNZ_flag, if_neg hz, if_neg hn]

/-! ### Faults stay until reset (R24, R26, R130, R261, R275) -/

/-- A step that is not refused was enabled (R26, R130). -/
theorem enabled_of_not_refused {s : State} (h : ∀ r, step s ≠ .refused r) : s.resetDone = true ∧ s.fault = none := by
  unfold step whenEnabled at h
  split at h
  · exact absurd rfl (h _)
  · exact absurd rfl (h _)
  · next hr hf => exact ⟨hr, hf⟩

theorem enabled_of_next {s t : State} (h : step s = .next t) : s.resetDone = true ∧ s.fault = none :=
  enabled_of_not_refused fun r => by rw [h]; nofun

theorem enabled_of_fault {s : State} {f : Fault} (h : step s = .fault f) : s.resetDone = true ∧ s.fault = none :=
  enabled_of_not_refused fun r => by rw [h]; nofun

theorem step_of_faultSet {s : State} (hr : s.resetDone = true) (hf : s.fault ≠ none) :
    step s = .refused .faultSet := by
  obtain ⟨r, hf⟩ := Option.ne_none_iff_exists'.1 hf
  simp [step, whenEnabled, hr, hf]

/-- A fault ends the step wherever the opcode read ends in it. -/
theorem step_of_opcode_fault {s : State} {f : Fault} (hr : s.resetDone = true) (hf : s.fault = none)
    (h : memRead s.pc s = .fault f) : step s = .fault f := by
  rw [step_eq, whenEnabled_eq hr hf, h, andThen_fault]

theorem step_of_unimplemented {s u : State} {op : Byte} (hr : s.resetDone = true) (hf : s.fault = none)
    (h : memRead s.pc s = .next (op, u)) (hm : metadata op = none) :
    step s = raise .unimplementedOpcode (.opcode op) u := by
  rw [step_eq, whenEnabled_eq hr hf, h, andThen_next]
  simp only [operandBytesOf_of_unimplemented hm, readOperands, andThen_next, instrOf_of_unimplemented hm]
  rfl

/-- A fault of a step is that of an access or of an indexed sum, or UnimplementedOpcode with its record. -/
theorem step_fault_recorded {s : State} {f : Fault} (h : step s = .fault f) :
    Recorded s.cfg f ∨ (f.kind = .unimplementedOpcode ∧ f.after.fault ≠ none) := by
  obtain ⟨hr, hf⟩ := enabled_of_fault h
  cases hop : memRead s.pc s with
  | refused r => simp at hop
  | fault g =>
    rw [step_of_opcode_fault hr hf hop] at h
    cases h
    exact .inl ((Path.memRead s.pc s).recorded f hop)
  | next x =>
    obtain ⟨op, u⟩ := x
    cases hm : metadata op with
    | none =>
      rw [step_of_unimplemented hr hf hop hm] at h
      cases h
      exact .inr ⟨rfl, nofun⟩
    | some e => exact .inl ((step_ends hr hf hop hm).fault f h).2.1

theorem step_fault_status {s : State} {f : Fault} (h : step s = .fault f) : f.after.fault ≠ none := by
  obtain h | ⟨-, h⟩ := step_fault_recorded h
  · obtain ⟨d, hd, -⟩ := h.record
    rw [hd]
    nofun
  · exact h

/-- CycleCounterOverflow leaves the count at its last value (R263). -/
theorem step_overflow_cycles {s : State} {f : Fault} (h : step s = .fault f) (hk : f.kind = .cycleCounterOverflow) :
    f.after.cycles = lastCycle := by
  obtain h | ⟨hu, -⟩ := step_fault_recorded h
  · obtain ⟨d, -, -, hc⟩ := h.record
    exact BitVec.eq_of_toNat_eq ((hc hk).2.trans lastCycle_toNat.symm)
  · rw [hk] at hu
    cases hu

/-- At the last count an access to a routed address raises CycleCounterOverflow (R61, R263). -/
theorem memRead_overflow {a : Word} {s : State} (hc : s.cycles = lastCycle) (hr : route s.cfg a ≠ .outOfRange) :
    memRead a s = .fault (.cycleCounterOverflow (s.withFault .cycleCounterOverflow .none)) := by
  cases h : memRead a s with
  | next x =>
    obtain ⟨u, -, hne, -⟩ := memRead_eq_next.1 h
    exact absurd hc hne
  | fault f =>
    obtain ⟨ho, -⟩ | ⟨-, rfl⟩ := memRead_eq_fault h
    · exact absurd ho hr
    · rfl
  | refused r => simp at h

@[simp] theorem hostReset_cfg (w : Word) (s : State) : (hostReset w s).cfg = s.cfg := by
  unfold hostReset discardMemory
  split <;> rfl

@[simp] theorem hostReset_cycles (w : Word) (s : State) : (hostReset w s).cycles = s.cycles := by
  unfold hostReset discardMemory
  split <;> rfl

/-- After reset the count is still the last, so the next step's opcode read overflows again (R275, R291). -/
theorem step_hostReset_overflow {w : Word} {s : State} (hc : s.cycles = lastCycle)
    (hr : route s.cfg w ≠ .outOfRange) :
    step (hostReset w s) =
      .fault (.cycleCounterOverflow ((hostReset w s).withFault .cycleCounterOverflow .none)) :=
  step_of_opcode_fault rfl rfl
    (memRead_overflow ((hostReset_cycles w s).trans hc) (by rw [hostReset_cfg]; exact hr))

/-- Every address of the default configuration has a cell (R5, R45). -/
theorem route_default_ne_outOfRange (a : Word) : route Config.default a ≠ .outOfRange := by
  have h : a.toNat < 65536 := a.isLt
  simp [route, resolve, zoneHit, deviceAt, Config.default, h]

/-- With the default configuration there is neither an address without a cell nor a refused sum (R261). -/
theorem step_default_ne_outOfRange {s : State} {f : Fault} (hc : s.cfg = Config.default) (h : step s = .fault f) :
    f.kind ≠ .outOfRange := by
  intro hk
  obtain h | ⟨hu, -⟩ := step_fault_recorded h
  · obtain ⟨d, -, ho, -⟩ := h.record
    obtain ⟨n, -, ⟨a, -, ha⟩ | ⟨-, -, ha⟩⟩ := ho hk
    · rw [hc] at ha
      exact route_default_ne_outOfRange a ha
    · rw [hc] at ha
      cases ha
  · rw [hk] at hu
    cases hu

/-- Settles O48: the host's operations and the callbacks keep the CPU's state; a fault leaves its record, which only reset
clears; and the count that overflowed stays. -/
theorem faultsStayUntilReset : Obligations.FaultsStayUntilReset := by
  refine ⟨fun s => ⟨fun a => (hostRead_uncounted a s).cpu.fault, fun a => (hostRead16_uncounted a s).cpu.fault,
    fun a v => (hostWrite_uncounted a v s).cpu.fault, fun a bs n => (hostWriteArray_uncounted a bs n s).cpu.fault,
    fun _ _ => rfl, fun _ _ => rfl, fun _ => rfl, fun l => (invoke_uncounted l s).cpu.fault⟩, ?_, ?_⟩
  · exact fun s hs t h => hs (enabled_of_next h).2
  · intro s f h
    have hk := (keepsReserved_closed.step s).fault f h
    refine ⟨step_of_faultSet (hk.resetDone.trans (enabled_of_fault h).1) (step_fault_status h), fun _ => rfl, ?_,
      fun hc => step_default_ne_outOfRange hc h⟩
    intro hf w hw
    exact ⟨_, step_hostReset_overflow (step_overflow_cycles h hf) (by rw [hk.cfg]; exact hw), rfl, rfl⟩

/-! ### Bits 4 and 5 of STATUS and the spare slots are not observed (R11, R14) -/

/-- Values for what no program can observe. -/
structure Unread where
  bits : Byte
  s5   : Byte
  s6   : Byte
  s7   : Byte

/-- The machine that differs from `s` only in what no program can observe. -/
def State.twin (h : Unread) (s : State) : State := s.withUnread h.bits h.s5 h.s6 h.s7

/-- A fault that leaves the twin of the state it left. -/
def Fault.twin (h : Unread) : Fault → Fault
  | .unimplementedOpcode s => .unimplementedOpcode (s.twin h)
  | .outOfRange s => .outOfRange (s.twin h)
  | .cycleCounterOverflow s => .cycleCounterOverflow (s.twin h)

/-- The outcome on the twin of a machine: the same kind of outcome, with `g` of the value and the twin of a fault. -/
def twinOutcome {α : Type} (h : Unread) (g : α → α) : Host.Outcome α Fault Refusal → Host.Outcome α Fault Refusal
  | .next x => .next (g x)
  | .fault f => .fault (f.twin h)
  | .refused r => .refused r

/-- The outcome of a part of a step that ends in a state. -/
abbrev twinState (h : Unread) := twinOutcome h (State.twin h)

/-- The outcome of a part of a step that answers a value beside the state. -/
abbrev twinPair {α : Type} (h : Unread) := twinOutcome h (Prod.map (id : α → α) (State.twin h))

section
variable (h : Unread) (s : State)

/-! #### The updates of the state -/

@[simp] theorem twin_cfg : (s.twin h).cfg = s.cfg := rfl
@[simp] theorem twin_resetDone : (s.twin h).resetDone = s.resetDone := rfl
@[simp] theorem twin_fault : (s.twin h).fault = s.fault := rfl

theorem twin_reg {r : Reg} (hr : r = .accum ∨ r = .indX ∨ r = .indY ∨ r = .stack) : (s.twin h).reg r = s.reg r := by
  rcases hr with rfl | rfl | rfl | rfl <;> rfl

@[simp] theorem twin_accum : (s.twin h).reg .accum = s.reg .accum := rfl

/-- STATUS with other bits 4 and 5. -/
def Unread.status (h : Unread) (p : Byte) : Byte := (p &&& 0xCF) ||| (h.bits &&& 0x30)

theorem twin_status : (s.twin h).reg .status = h.status (s.reg .status) := rfl

theorem flagOf_unread (p : Byte) (f : Flag) :
    flagOf (h.status p) f = if f = .b ∨ f = .unused then flagOf h.bits f else flagOf p f := by
  cases f <;> simp [flagOf, Flag.index, Unread.status]

theorem twin_flag {f : Flag} (hb : f ≠ .b) (hu : f ≠ .unused) : (s.twin h).flag f = s.flag f := by
  rw [State.flag, twin_status, flagOf_unread, if_neg (by simp [hb, hu])]
  rfl

theorem flagOf_pushedStatus (p : Byte) (f : Flag) :
    flagOf (pushedStatus p) f = if f = .b ∨ f = .unused then true else flagOf p f := by
  cases f <;> simp [flagOf, Flag.index, pushedStatus]

theorem flagOf_pulledStatus (v p : Byte) (f : Flag) :
    flagOf (pulledStatus v p) f = if f = .b ∨ f = .unused then flagOf p f else flagOf v f := by
  cases f <;> simp [flagOf, Flag.index, pulledStatus]

/-- The pushed copy of STATUS has both bits set, whatever they are (R14). -/
@[simp] theorem twin_pushedStatus : pushedStatus ((s.twin h).reg .status) = pushedStatus (s.reg .status) := by
  refine status_ext fun f => ?_
  rw [twin_status, flagOf_pushedStatus, flagOf_pushedStatus, flagOf_unread]
  split <;> rfl

theorem twin_setReg {r : Reg} (hr : r = .accum ∨ r = .indX ∨ r = .indY ∨ r = .stack) (v : Byte) :
    (s.twin h).setReg r v = (s.setReg r v).twin h := by
  rcases hr with rfl | rfl | rfl | rfl <;> rfl

/-- A write of STATUS on both machines that leaves them the same but for the two bits. -/
theorem twin_setStatus {p q : Byte} (hp : q = h.status p) :
    (s.twin h).setReg .status q = (s.setReg .status p).twin h := by
  subst hp
  rfl

theorem twin_setFlag {f : Flag} (hb : f ≠ .b) (hu : f ≠ .unused) (b : Bool) :
    (s.twin h).setFlag f b = (s.setFlag f b).twin h := by
  refine twin_setStatus h s (status_ext fun g => ?_)
  rw [flagOf_withFlag, twin_status, flagOf_unread, flagOf_unread, flagOf_withFlag]
  by_cases hg : g = f
  · subst hg
    simp [hb, hu]
  · simp [hg]

/-- A pulled STATUS keeps each machine's own two bits (R14). -/
theorem twin_setPulled (v : Byte) :
    (s.twin h).setReg .status (pulledStatus v ((s.twin h).reg .status)) =
      (s.setReg .status (pulledStatus v (s.reg .status))).twin h := by
  refine twin_setStatus h s (status_ext fun g => ?_)
  rw [flagOf_pulledStatus, twin_status, flagOf_unread, flagOf_unread, flagOf_pulledStatus]
  split <;> simp_all

theorem twin_setNZ (v : Byte) : (s.twin h).setNZ v = (s.setNZ v).twin h := by
  simp only [State.setNZ, twin_setFlag, ne_eq, reduceCtorEq, not_false_eq_true]

theorem twin_countDraw (b : Bool) : (s.twin h).countDraw b = (s.countDraw b).twin h := by cases b <;> rfl

theorem twin_decimalOpen (m : Byte) : (s.twin h).decimalOpen m = s.decimalOpen m := by
  rw [State.decimalOpen, twin_flag h s (by decide) (by decide)]
  rfl

theorem twin_alu (op : DecimalOp) (m : Byte) : (s.twin h).alu op m = s.alu op m := by
  rw [State.alu, twin_decimalOpen, twin_flag h s (by decide) (by decide), twin_flag h s (by decide) (by decide)]
  rfl

theorem twin_writeAlu (o : AluOut) : (s.twin h).writeAlu o = (s.writeAlu o).twin h := by
  simp only [State.writeAlu, twin_setReg, twin_setFlag, ne_eq, reduceCtorEq, not_false_eq_true, true_or]

theorem twin_setCompare (r m : Byte) : (s.twin h).setCompare r m = (s.setCompare r m).twin h := by
  simp only [State.setCompare, twin_setFlag, twin_setNZ, ne_eq, reduceCtorEq, not_false_eq_true]

theorem twin_setBitTest (m : Byte) : (s.twin h).setBitTest m = (s.setBitTest m).twin h := by
  rw [State.setBitTest, twin_accum, twin_setFlag h s (by decide) (by decide), twin_setFlag h _ (by decide) (by decide),
    twin_setFlag h _ (by decide) (by decide), State.setBitTest]

/-! #### The host's operations, the callbacks and the listener scan -/

theorem transferRead_twin (r : Route) :
    transferRead r (s.twin h) = (transferRead r s).map (Prod.map id (State.twin h)) := by
  cases r <;> rfl

theorem transferWrite_twin (r : Route) (v : Byte) :
    transferWrite r v (s.twin h) = (transferWrite r v s).map (State.twin h) := by
  cases r <;> rfl

theorem hostRead_twin (a : Word) : (hostRead a (s.twin h)).2 = (hostRead a s).2.twin h := by
  rw [hostRead, twin_cfg, transferRead_twin, hostRead]
  cases transferRead (route s.cfg a) s <;> rfl

theorem hostWrite_twin (a : Word) (v : Byte) : (hostWrite a v (s.twin h)).2 = (hostWrite a v s).2.twin h := by
  rw [hostWrite, twin_cfg, transferWrite_twin, hostWrite]
  cases transferWrite (route s.cfg a) v s <;> rfl

theorem hostRead16_twin (a : Word) : (hostRead16 a (s.twin h)).2 = (hostRead16 a s).2.twin h := by
  simp only [hostRead16, hostRead_twin]

theorem storeBytes_twin (bs : List Byte) (a : Word) : storeBytes bs a (s.twin h) = (storeBytes bs a s).twin h := by
  induction bs generalizing a s with
  | nil => rfl
  | cons v bs ih => rw [storeBytes, hostWrite_twin, ih, storeBytes]

theorem hostWriteArray_twin (a : Word) (bs : List Byte) (n : Nat) :
    (hostWriteArray a bs n (s.twin h)).2 = (hostWriteArray a bs n s).2.twin h := by
  rw [hostWriteArray, twin_cfg, hostWriteArray]
  split
  · rfl
  · exact (congrArg (State.countDraw · _) (storeBytes_twin h s _ a)).trans (twin_countDraw h _ _)

theorem applyAction_twin (a : HostAction) : applyAction (s.twin h) a = (applyAction s a).twin h := by
  cases a with
  | read a => exact hostRead_twin h s a
  | read16 a => exact hostRead16_twin h s a
  | write a v => exact hostWrite_twin h s a v
  | writeArray a bs n => exact hostWriteArray_twin h s a bs n
  | addListener target id => rfl
  | changeDevice d tag => rfl

theorem applyActions_twin (as : List HostAction) : applyActions as (s.twin h) = (applyActions as s).twin h := by
  induction as generalizing s with
  | nil => rfl
  | cons a as ih => rw [applyActions, applyAction_twin, ih, applyActions]

/-- A callback does the same on both machines, since what it sees is the same (R65, R66). -/
theorem invoke_twin (l : Listener) : invoke l (s.twin h) = (invoke l s).twin h :=
  applyActions_twin h { s with draws := s.draws + 1 } (Config.listenerEffect l s.view)

theorem invokeAll_twin (ls : List Listener) : invokeAll ls (s.twin h) = (invokeAll ls s).twin h := by
  induction ls generalizing s with
  | nil => rfl
  | cons l ls ih => rw [invokeAll, invoke_twin, ih, invokeAll]

theorem fireDue_twin : fireDue (s.twin h) = (fireDue s).twin h :=
  invokeAll_twin h { s with listeners := s.listeners.filter fun l => !s.isDue l } _

theorem tick_twin : (s.twin h).tick = s.tick.twin h := fireDue_twin h { s with cycles := s.cycles + 1 }

/-! #### Counted accesses, sequencing, the stack and the trap -/

variable {h s}

theorem next_twin {α : Type} {g : α → α} {x y : α} (e : y = g x) :
    (.next y : Host.Outcome α Fault Refusal) = twinOutcome h g (.next x) := congrArg _ e

theorem andThen_twin {α β : Type} {g : α → α} {g' : β → β} {o o' : Host.Outcome α Fault Refusal}
    {k k' : α → Host.Outcome β Fault Refusal} (ho : o' = twinOutcome h g o)
    (hk : ∀ x, k' (g x) = twinOutcome h g' (k x)) : andThen o' k' = twinOutcome h g' (andThen o k) := by
  subst ho
  cases o with
  | next x => exact hk x
  | fault f => rfl
  | refused r => rfl

/-- Both machines take the same way at a test of what they share. -/
theorem ite_twin {α : Type} {g : α → α} {c : Prop} [Decidable c] {o o' q q' : Host.Outcome α Fault Refusal}
    (ho : o' = twinOutcome h g o) (hq : q' = twinOutcome h g q) :
    (if c then o' else q') = twinOutcome h g (if c then o else q) := by
  split
  · exact ho
  · exact hq

variable (h s)

theorem raise_twin {α : Type} (g : α → α) (k : FaultKind) (d : FaultDetail) :
    raise k d (s.twin h) = twinOutcome h g (raise k d s) := by
  cases k <;> rfl

theorem memRead_twin (a : Word) : memRead a (s.twin h) = twinPair h (memRead a s) := by
  rw [memRead, twin_cfg, transferRead_twin, memRead]
  cases transferRead (route s.cfg a) s with
  | none => exact raise_twin h s _ _ _
  | some x =>
    exact ite_twin (raise_twin h s _ _ _) (next_twin (Prod.ext rfl (tick_twin h x.2)))

theorem memWrite_twin (a : Word) (v : Byte) : memWrite a v (s.twin h) = twinState h (memWrite a v s) := by
  rw [memWrite, twin_cfg, transferWrite_twin, memWrite]
  cases transferWrite (route s.cfg a) v s with
  | none => exact raise_twin h s _ _ _
  | some t => exact ite_twin (raise_twin h s _ _ _) (next_twin (tick_twin h t))

theorem readWord_twin (lo hi : Word) : readWord lo hi (s.twin h) = twinPair h (readWord lo hi s) :=
  andThen_twin (memRead_twin h s lo) fun x => andThen_twin (memRead_twin h x.2 hi) fun _ => rfl

theorem push_twin (v : Byte) : push v (s.twin h) = twinState h (push v s) :=
  andThen_twin (memWrite_twin h s _ v) fun _ => rfl

theorem pull_twin : pull (s.twin h) = twinPair h (pull s) :=
  memRead_twin h (s.setReg .stack (s.reg .stack + 1)) _

theorem pushWord_twin (w : Word) : pushWord w (s.twin h) = twinState h (pushWord w s) :=
  andThen_twin (push_twin h s _) fun t => push_twin h t _

theorem pullWord_twin : pullWord (s.twin h) = twinPair h (pullWord s) :=
  andThen_twin (pull_twin h s) fun x => andThen_twin (pull_twin h x.2) fun _ => rfl

theorem pullStatus_twin : pullStatus (s.twin h) = twinState h (pullStatus s) :=
  andThen_twin (pull_twin h s) fun x => next_twin (twin_setPulled h x.2 x.1)

theorem pushStatus_twin : push (pushedStatus ((s.twin h).reg .status)) (s.twin h) =
    twinState h (push (pushedStatus (s.reg .status)) s) := by
  rw [twin_pushedStatus]
  exact push_twin h s _

theorem takeBreak_twin : takeBreak (s.twin h) = twinState h (takeBreak s) :=
  andThen_twin (pushWord_twin h s _) fun t => andThen_twin (pushStatus_twin h t) fun u => by
    rw [twin_setFlag h u (by decide) (by decide)]
    exact andThen_twin (readWord_twin h _ _ _) fun _ => rfl

theorem returnFromBreak_twin : returnFromBreak (s.twin h) = twinState h (returnFromBreak s) :=
  andThen_twin (pullStatus_twin h s) fun t => andThen_twin (pullWord_twin h t) fun _ => rfl

/-! #### Operands and operations -/

theorem preRead_twin (ea : Word) : preRead ea (s.twin h) = twinPair h (preRead ea s) :=
  andThen_twin (memRead_twin h s ea) fun _ => rfl

theorem indexedSum_twin (base : Word) (x : Byte) : indexedSum base x (s.twin h) = twinPair h (indexedSum base x s) := by
  rw [indexedSum, twin_cfg, indexedSum]
  exact ite_twin (raise_twin h s _ _ _) rfl

theorem resolveMode_twin (m : Mode) (b1 b2 : Byte) :
    resolveMode m b1 b2 (s.twin h) = twinPair h (resolveMode m b1 b2 s) := by
  cases m
  case absoluteX | absoluteY => exact andThen_twin (indexedSum_twin h s _ _) fun _ => rfl
  case indirect => exact andThen_twin (readWord_twin h s _ _) fun _ => rfl
  case indexedIndirect => exact andThen_twin (readWord_twin h s _ _) fun x => preRead_twin h x.2 x.1
  case indirectIndexed =>
    exact andThen_twin (readWord_twin h s _ _) fun x => andThen_twin (indexedSum_twin h x.2 x.1 _) fun y =>
      preRead_twin h y.2 y.1
  case zeroPage | zeroPageX | zeroPageY => exact preRead_twin h s _
  all_goals rfl

variable (p : Params)

theorem operandOf_twin : operandOf p (s.twin h) = twinPair h (operandOf p s) := by
  unfold operandOf
  split <;> rfl

theorem load_twin : load p (s.twin h) = twinPair h (load p s) := by
  obtain ⟨o, a, m, n⟩ := p
  cases m
  case absolute | absoluteX | absoluteY => exact memRead_twin h s a
  case implied | indirect | relative => rfl
  all_goals exact operandOf_twin h s _

/-- An operation that takes one data byte and then changes the state alike on both machines. -/
theorem loadThen_twin {k : Byte → State → State} (hk : ∀ v u, k v (u.twin h) = (k v u).twin h) :
    (andThen (load p (s.twin h)) fun x => .next (k x.1 x.2)) =
      twinState h (andThen (load p s) fun x => .next (k x.1 x.2)) :=
  andThen_twin (load_twin h s p) fun x => next_twin (hk x.1 x.2)

theorem rmw_twin {k k' : Byte → State → Byte × State} (hk : ∀ v u, k' v (u.twin h) = Prod.map id (State.twin h) (k v u)) :
    rmw p k' (s.twin h) = twinPair h (rmw p k s) := by
  unfold rmw
  split
  · exact andThen_twin (operandOf_twin h s p) fun x => by
      simp only [Prod.map, id, hk]
      rfl
  · exact andThen_twin (load_twin h s p) fun x => by
      simp only [Prod.map, id, hk]
      exact andThen_twin (memWrite_twin h _ _ _) fun _ => rfl

theorem loadReg_twin {r : Reg} (hr : r = .accum ∨ r = .indX ∨ r = .indY ∨ r = .stack) :
    loadReg r p (s.twin h) = twinState h (loadReg r p s) :=
  loadThen_twin h s p (k := fun v u => (u.setReg r v).setNZ v) fun v u => by rw [twin_setReg h u hr, twin_setNZ]

theorem transfer_twin {src dst : Reg} (hs : src = .accum ∨ src = .indX ∨ src = .indY ∨ src = .stack)
    (hd : dst = .accum ∨ dst = .indX ∨ dst = .indY ∨ dst = .stack) :
    transfer src dst p (s.twin h) = twinState h (transfer src dst p s) :=
  next_twin (by rw [twin_reg h s hs, twin_setReg h s hd, twin_setNZ])

theorem stepReg_twin {r : Reg} (hr : r = .accum ∨ r = .indX ∨ r = .indY ∨ r = .stack) (f : Byte → Byte) :
    stepReg r f p (s.twin h) = twinState h (stepReg r f p s) :=
  next_twin (by rw [twin_reg h s hr, twin_setReg h s hr, twin_setNZ])

theorem addSubtract_twin (op : DecimalOp) : addSubtract op p (s.twin h) = twinState h (addSubtract op p s) :=
  loadThen_twin h s p (k := fun m u => (u.writeAlu (u.alu op m)).countDraw (u.decimalOpen m)) fun m u => by
    rw [twin_alu, twin_decimalOpen, twin_writeAlu, twin_countDraw]

theorem compareReg_twin {r : Reg} (hr : r = .accum ∨ r = .indX ∨ r = .indY ∨ r = .stack) :
    compareReg r p (s.twin h) = twinState h (compareReg r p s) :=
  loadThen_twin h s p (k := fun m u => u.setCompare (u.reg r) m) fun m u => by
    rw [twin_reg h u hr, twin_setCompare]

theorem logic_twin (f : Byte → Byte → Byte) : logic f p (s.twin h) = twinState h (logic f p s) :=
  loadThen_twin h s p (k := fun m u => (u.setReg .accum (f (u.reg .accum) m)).setNZ (f (u.reg .accum) m)) fun m u => by
    rw [twin_accum, twin_setReg h u (by simp), twin_setNZ]

theorem opBit_twin : opBit p (s.twin h) = twinState h (opBit p s) :=
  loadThen_twin h s p (k := fun m u => u.setBitTest m) fun m u => twin_setBitTest h u m

theorem rmwPlain_twin (f : Byte → Byte) : rmwPlain f p (s.twin h) = twinState h (rmwPlain f p s) :=
  andThen_twin (rmw_twin h s p fun _ _ => rfl) fun x => next_twin (twin_setNZ h x.2 x.1)

theorem shift_twin (carry : Byte → Bool) (f : Byte → Byte) : shift carry f p (s.twin h) = twinState h (shift carry f p s) :=
  andThen_twin (rmw_twin h s p fun v u => congrArg (Prod.mk (f v)) (twin_setFlag h u (by decide) (by decide) (carry v)))
    fun x => next_twin (twin_setNZ h x.2 x.1)

/-- The carry a rotate shifts in is the same on both machines. -/
theorem rotate_twin (carry : Byte → Bool) (f : Byte → Bool → Byte) :
    shift carry (f · ((s.twin h).flag .c)) p (s.twin h) = twinState h (shift carry (f · (s.flag .c)) p s) := by
  rw [twin_flag h s (by decide) (by decide)]
  exact shift_twin h s p carry _

theorem opPla_twin : opPla p (s.twin h) = twinState h (opPla p s) :=
  andThen_twin (pull_twin h s) fun x => next_twin (by
    show ((x.2.twin h).setReg .accum x.1).setNZ x.1 = _
    rw [twin_setReg h x.2 (by simp), twin_setNZ])

theorem branch_twin {f : Flag} (hb : f ≠ .b) (hu : f ≠ .unused) (b : Bool) :
    branch f b p (s.twin h) = twinState h (branch f b p s) :=
  next_twin (by rw [twin_flag h s hb hu]; split <;> rfl)

theorem operation_twin (n : Mnemonic) : operation n p (s.twin h) = twinState h (operation n p s) := by
  cases n
  case lda | ldx | ldy => exact loadReg_twin h s p (by simp)
  case sta | stx | sty => exact memWrite_twin h s _ _
  case tax | tay | txa | tya | tsx => exact transfer_twin h s p (by simp) (by simp)
  case pha => exact push_twin h s _
  case php => exact pushStatus_twin h s
  case pla => exact opPla_twin h s p
  case plp => exact pullStatus_twin h s
  case adc | sbc => exact addSubtract_twin h s p _
  case cmp | cpx | cpy => exact compareReg_twin h s p (by simp)
  case inc | dec => exact rmwPlain_twin h s p _
  case inx => exact stepReg_twin h s p (r := .indX) (by simp) (· + 1)
  case iny => exact stepReg_twin h s p (r := .indY) (by simp) (· + 1)
  case dex => exact stepReg_twin h s p (r := .indX) (by simp) (· - 1)
  case dey => exact stepReg_twin h s p (r := .indY) (by simp) (· - 1)
  case and | ora | eor => exact logic_twin h s p _
  case bit => exact opBit_twin h s p
  case asl | lsr => exact shift_twin h s p _ _
  case rol => exact rotate_twin h s p _ shiftLeft
  case ror => exact rotate_twin h s p _ shiftRight
  case jsr => exact andThen_twin (pushWord_twin h s _) fun _ => rfl
  case rts => exact andThen_twin (pullWord_twin h s) fun _ => rfl
  case rti => exact returnFromBreak_twin h s
  case brk => exact takeBreak_twin h s
  case bcc | bcs | beq | bmi | bne | bpl | bvc | bvs => exact branch_twin h s p (by decide) (by decide) _
  case clc | cld | cli | clv | sec | sed | sei => exact next_twin (twin_setFlag h s (by decide) (by decide) _)
  case txs | jmp | nop => rfl

/-! #### The step -/

theorem exec_twin (i : Instr) : exec i (s.twin h) = twinState h (exec i s) := by
  cases he : i.entry with
  | some e =>
    rw [exec_eq_runEntry he, exec_eq_runEntry he]
    exact andThen_twin (resolveMode_twin h s _ _ _) fun x => operation_twin h (x.2.advance e.size) _ e.name
  | none =>
    obtain ⟨op, rfl⟩ := entry_eq_none he
    exact raise_twin h s _ .unimplementedOpcode (.opcode op)

theorem readOperands_twin (k : Nat) : readOperands k (s.twin h) = twinPair h (readOperands k s) := by
  unfold readOperands
  split
  · rfl
  · exact andThen_twin (memRead_twin h s _) fun _ => rfl
  · exact andThen_twin (memRead_twin h s _) fun x => andThen_twin (memRead_twin h x.2 _) fun _ => rfl

theorem fetchInstr_twin : fetchInstr (s.twin h) = twinPair h (fetchInstr s) :=
  andThen_twin (memRead_twin h s _) fun x => andThen_twin (readOperands_twin h x.2 _) fun _ => rfl

theorem whenEnabled_twin {o o' : Host.Outcome State Fault Refusal} (ho : o' = twinState h o) :
    whenEnabled (s.twin h) o' = twinState h (whenEnabled s o) := by
  subst ho
  simp only [whenEnabled, twin_resetDone, twin_fault]
  cases s.resetDone <;> cases s.fault <;> rfl

/-- The step of the twin is the twin of the step. -/
theorem step_twin : step (s.twin h) = twinState h (step s) :=
  whenEnabled_twin h s (andThen_twin (fetchInstr_twin h s) fun x => exec_twin h x.2 x.1)

end

theorem Fault.twin_kind (h : Unread) (f : Fault) : (f.twin h).kind = f.kind := by cases f <;> rfl

theorem Fault.twin_after (h : Unread) (f : Fault) : (f.twin h).after = f.after.twin h := by cases f <;> rfl

/-- Settles O42: the two machines are twins, and the step of the twin is the twin of the step. -/
theorem unreadBitsAreNotObserved : Obligations.UnreadBitsAreNotObserved := by
  intro s bits s5 s6 s7
  have hstep := step_twin ⟨bits, s5, s6, s7⟩ s
  exact ⟨fun _ e => hstep.trans (congrArg (twinState _) e),
    fun f e => ⟨f.twin _, hstep.trans (congrArg (twinState _) e), f.twin_kind _, f.twin_after _⟩,
    fun _ e => hstep.trans (congrArg (twinState _) e)⟩

end Sys2Proof.Machine
end

section
/-!
PROOFS. 20_memory.md: counted accesses and the host's reads and writes by the route of the address; which bytes an
instruction changes; stores to devices; the listener scan and what callbacks leave alone.
-/

namespace Sys2Proof.Machine

/-! ### Counted accesses and host operations by the route (R46, R48, R49, R61, R62) -/

section
variable {a : Word} {s : State} {d r : Nat}

theorem ne_lastCycle_iff {c : Cycles} : c ≠ lastCycle ↔ c.toNat ≠ 2 ^ 64 - 1 := by
  rw [← lastCycle_toNat, ne_eq, ne_eq, BitVec.toNat_inj]

theorem memRead_of_outOfRange (h : route s.cfg a = .outOfRange) :
    memRead a s = .fault (.outOfRange (s.withFault .outOfRange (.address a.toNat))) := by
  simp [memRead, h, transferRead, raise]

theorem memWrite_of_outOfRange (h : route s.cfg a = .outOfRange) (v : Byte) :
    memWrite a v s = .fault (.outOfRange (s.withFault .outOfRange (.address a.toNat))) := by
  simp [memWrite, h, transferWrite, raise]

theorem memWrite_overflow (hc : s.cycles = lastCycle) (hr : route s.cfg a ≠ .outOfRange) (v : Byte) :
    memWrite a v s = .fault (.cycleCounterOverflow (s.withFault .cycleCounterOverflow .none)) := by
  cases h : route s.cfg a with
  | outOfRange => exact absurd h hr
  | device d r => simp [memWrite, h, transferWrite, hc, raise]
  | backing r => simp [memWrite, h, transferWrite, hc, raise]

theorem memRead_of_backing (h : route s.cfg a = .backing r) (hc : s.cycles ≠ lastCycle) :
    memRead a s = .next (s.cell r, s.tick) :=
  memRead_eq_next.2 ⟨s, by rw [h]; rfl, hc, rfl⟩

theorem memWrite_of_backing (h : route s.cfg a = .backing r) (hc : s.cycles ≠ lastCycle) (v : Byte) :
    memWrite a v s = .next (s.setCell r v).tick :=
  memWrite_eq_next.2 ⟨_, by rw [h]; rfl, hc, rfl⟩

theorem memRead_of_device (h : route s.cfg a = .device d r) (hc : s.cycles ≠ lastCycle) :
    ∃ v, memRead a s = .next (v, (s.logDevice (.read d r)).tick) :=
  ⟨_, memRead_eq_next.2 ⟨_, by rw [h]; rfl, hc, rfl⟩⟩

theorem memWrite_of_device (h : route s.cfg a = .device d r) (hc : s.cycles ≠ lastCycle) (v : Byte) :
    memWrite a v s = .next (s.logDevice (.write d r v)).tick :=
  memWrite_eq_next.2 ⟨_, by rw [h]; rfl, hc, rfl⟩

theorem hostRead_of_backing (h : route s.cfg a = .backing r) : hostRead a s = (.success (s.cell r), s) := by
  simp [hostRead, h, transferRead]

theorem hostWrite_of_backing (h : route s.cfg a = .backing r) (v : Byte) :
    hostWrite a v s = (.success (), s.setCell r v) := by
  simp [hostWrite, h, transferWrite]

theorem hostRead_of_device (h : route s.cfg a = .device d r) :
    ∃ v, hostRead a s = (.success v, s.logDevice (.read d r)) :=
  ⟨_, by rw [hostRead, h]; rfl⟩

theorem hostWrite_of_device (h : route s.cfg a = .device d r) (v : Byte) :
    hostWrite a v s = (.success (), s.logDevice (.write d r v)) := by
  simp [hostWrite, h, transferWrite, deviceWrite]

theorem hostRead_of_outOfRange (h : route s.cfg a = .outOfRange) : hostRead a s = (.failure .outOfRange, s) := by
  simp [hostRead, h, transferRead]

theorem hostWrite_of_outOfRange (h : route s.cfg a = .outOfRange) (v : Byte) :
    hostWrite a v s = (.failure .outOfRange, s) := by
  simp [hostWrite, h, transferWrite]

end

/-- Settles O49: the two primitives by the route of the address and by the count. -/
theorem countedAccessesInOrder : Obligations.CountedAccessesInOrder := by
  intro a s
  refine ⟨fun h => ⟨memRead_of_outOfRange h, memWrite_of_outOfRange h⟩, fun h hc => ?_, fun r h hc => ?_,
    fun d r h hc => ?_⟩
  · have hlast : s.cycles = lastCycle := BitVec.eq_of_toNat_eq (hc.trans lastCycle_toNat.symm)
    exact ⟨memRead_overflow hlast h, memWrite_overflow hlast h⟩
  · have hne := ne_lastCycle_iff.2 hc
    exact ⟨memRead_of_backing h hne, memWrite_of_backing h hne⟩
  · have hne := ne_lastCycle_iff.2 hc
    exact ⟨memRead_of_device h hne, memWrite_of_device h hne⟩

theorem wordOf_eq_ofNat (hi lo : Byte) : wordOf hi lo = BitVec.ofNat 16 (256 * hi.toNat + lo.toNat) := by
  apply BitVec.eq_of_toNat_eq
  rw [wordOf, BitVec.toNat_append, ← Nat.shiftLeft_add_eq_or_of_lt lo.isLt, Nat.shiftLeft_eq, BitVec.toNat_ofNat]
  have := hi.isLt
  have := lo.isLt
  omega

/-- A read16 fails if either read fails (R49). -/
theorem combineReads_of_failure {h l : HostResult Byte} {e : HostError} (hf : h = .failure e ∨ l = .failure e) :
    combineReads h l = .failure .outOfRange := by
  obtain rfl | rfl := hf
  · rfl
  · cases h <;> rfl

/-- Settles O52: read and write by the route of the address, read16 from its two reads. -/
theorem hostReadsAndWrites : Obligations.HostReadsAndWrites := by
  intro a s
  refine ⟨fun r h => ⟨hostRead_of_backing h, hostWrite_of_backing h⟩,
    fun d r h => ⟨hostRead_of_device h, hostWrite_of_device h⟩,
    fun h => ⟨hostRead_of_outOfRange h, hostWrite_of_outOfRange h⟩, fun h l u t hh hl => ?_, fun h => ?_⟩
  · rw [hostRead16, hh, hl, combineReads, wordOf_eq_ofNat]
  · have hf : (hostRead a s).1 = .failure .outOfRange ∨
        (hostRead (a + 1) (hostRead a s).2).1 = .failure .outOfRange := by
      refine h.imp (fun h => by rw [hostRead_of_outOfRange h]) fun h => ?_
      rw [← (hostRead_uncounted a s).cpu.cfg] at h
      rw [hostRead_of_outOfRange h]
    rw [hostRead16, combineReads_of_failure hf]

/-! ### The bytes an instruction changes (R42, R51, R67) -/

section
variable {a : Word} {s t : State}

/-- With no device, what a counted read answers is the byte of the resolved cell (R45, R61). -/
theorem memRead_peek {v : Byte} (hd : s.cfg.devices = []) (h : memRead a s = .next (v, t)) : v = s.peek a := by
  obtain ⟨u, hu, -, -⟩ := memRead_eq_next.1 h
  cases hr : route s.cfg a with
  | outOfRange => simp [hr, transferRead] at hu
  | device d r => simp [route, hd, deviceAt_nil] at hr; split at hr <;> cases hr
  | backing r =>
    rw [hr] at hu
    cases hu
    rw [route_backing hr, State.peek]

theorem ReadEffect.peek {k : Nat} (h : ReadEffect k s t) (hl : s.listeners = []) (a : Word) : t.peek a = s.peek a :=
  have hs := h.still hl
  State.peek_congr h.cpu.cfg hs.2.1 hs.2.2 a

theorem readWord_peekWord {lo hi w : Word} (hl : s.listeners = []) (hd : s.cfg.devices = [])
    (h : readWord lo hi s = .next (w, t)) : w = s.peekWord lo hi := by
  simp only [readWord, andThen_eq_next, Prod.exists, Host.Outcome.next.injEq, Prod.mk.injEq] at h
  obtain ⟨l, u, h1, b, v, h2, rfl, -⟩ := h
  have hu := memRead_effect h1
  rw [State.peekWord, memRead_peek hd h1, memRead_peek (by rw [hu.cpu.cfg, hd]) h2, hu.peek hl]

theorem preRead_address {ea : Word} {o : Option Byte} (h : preRead ea s = .next ((o, a), t)) : a = ea := by
  simp only [preRead, andThen_eq_next, Prod.exists, Host.Outcome.next.injEq, Prod.mk.injEq] at h
  obtain ⟨_, _, -, ⟨-, rfl⟩, -⟩ := h
  rfl

theorem indexedSum_address {base : Word} {x : Byte} (h : indexedSum base x s = .next (a, t)) :
    a = base + x.setWidth 16 := by
  unfold indexedSum at h
  split at h
  · simp at h
  · cases h; rfl

theorem addressOnly_eq_next {o : Host.Outcome (Word × State) Fault Refusal} {w : Option Byte}
    (h : addressOnly o = .next ((w, a), t)) : o = .next (a, t) := by
  cases o with
  | next x => cases h; rfl
  | fault f => cases h
  | refused r => cases h

/-- With no listener and no device, the address fetch resolves a mode to is that of the mode table (R102 to R114). -/
theorem resolveMode_address {m : Mode} {b1 b2 : Byte} {o : Option Byte} (hl : s.listeners = [])
    (hd : s.cfg.devices = []) (h : resolveMode m b1 b2 s = .next ((o, a), t)) : a = effectiveAddress m b1 b2 s := by
  cases m
  case absolute | accumulator | immediate | implied | relative => cases h; rfl
  case absoluteX | absoluteY => exact indexedSum_address (addressOnly_eq_next h)
  case zeroPage | zeroPageX | zeroPageY => exact preRead_address h
  case indirect => exact readWord_peekWord hl hd (addressOnly_eq_next h)
  case indexedIndirect =>
    simp only [resolveMode, andThen_eq_next, Prod.exists] at h
    obtain ⟨w, u, h1, h2⟩ := h
    exact (preRead_address h2).trans (readWord_peekWord hl hd h1)
  case indirectIndexed =>
    simp only [resolveMode, andThen_eq_next, Prod.exists] at h
    obtain ⟨w, u, h1, w', u', h2, h3⟩ := h
    rw [preRead_address h3, indexedSum_address h2, readWord_peekWord hl hd h1, (readWord_effect h1).cpu.reg]
    rfl

end

/-- The addresses an operation stores to are those of its row, when it is given the row's mode and address. -/
theorem storesOf_eq_storedAddresses {e : Entry} {i : Instr} {p : Params} {s u : State} (hm : p.mode = e.mode)
    (ha : p.address = addressOf i e.mode s) (hsp : u.reg .stack = s.reg .stack) :
    storesOf e.name p u = storedAddresses e i s := by
  obtain ⟨n, m, k⟩ := e
  cases n <;> simp only [storesOf, storedAddresses, hm, ha, hsp]

/-- Whether a row stores at all does not depend on the address its operation is given. -/
theorem storesOf_of_storedAddresses_nil {e : Entry} {i : Instr} {p : Params} {s u : State} (hm : p.mode = e.mode)
    (h : storedAddresses e i s = []) : storesOf e.name p u = [] := by
  obtain ⟨n, m, k⟩ := e
  subst hm
  cases n <;> simp_all [storesOf, storedAddresses]

/-- With no listener, an instruction changes the bytes at the addresses its operation stores to alone (R67). -/
theorem exec_peek {i : Instr} {e : Entry} {s t : State} (he : i.entry = some e) (hl : s.listeners = [])
    (h : exec i s = .next t) :
    ∃ o a u, resolveMode e.mode i.byte1 i.byte2 s = .next ((o, a), u) ∧
      ∀ b, (∀ c ∈ storesOf e.name { operand := o, address := a, mode := e.mode, size := e.size } (u.advance e.size),
        resolve s.cfg b ≠ resolve s.cfg c) → t.peek b = s.peek b := by
  obtain ⟨o, a, u, f, w, hr, hu, hd⟩ := exec_does he h
  refine ⟨o, a, u, hr, fun b hb => ?_⟩
  have hcfg : (u.advance e.size).cfg = s.cfg := hu.cpu.cfg
  obtain ⟨-, hcell⟩ := hd.effect.still (hu.still hl).1
  rw [hcfg] at hcell
  calc t.peek b = t.cell (resolve s.cfg b) := by rw [State.peek, hd.effect.cfg, hcfg]
    _ = (u.advance e.size).cell (resolve s.cfg b) := hcell _ hb
    _ = u.peek b := by rw [← hu.cpu.cfg]; rfl
    _ = s.peek b := hu.peek hl b

/-- Settles O45: a row that stores nothing gives its operation no address to store to. -/
theorem nonStoringInstructionsKeepMemory : Obligations.NonStoringInstructionsKeepMemory := by
  intro i e s t he hl hs h b
  obtain ⟨o, a, u, -, hpeek⟩ := exec_peek he hl h
  exact hpeek b (by rw [storesOf_of_storedAddresses_nil rfl hs]; simp)

/-- Settles O46: with no device the address an operation is given is the effective address. -/
theorem storesChangeOnlyTheirAddresses : Obligations.StoresChangeOnlyTheirAddresses := by
  intro i e s t he hl hd h b hb
  obtain ⟨o, a, u, hr, hpeek⟩ := exec_peek he hl h
  have hst := storesOf_eq_storedAddresses (p := { operand := o, address := a, mode := e.mode, size := e.size })
    (u := u.advance e.size) rfl (resolveMode_address hl hd hr) ((resolveMode_effect hr).cpu.reg .stack)
  exact hpeek b (hst ▸ hb)

/-! ### Stores to devices (R44, R56, R301) -/

/-- What `Quiet` asks beside the routes: no listener is pending and the counter has room for `n` accesses. -/
structure Unscanned (n : Nat) (s : State) : Prop where
  noListener : s.listeners = []
  room       : s.cycles.toNat + n < 2 ^ 64

namespace Unscanned
variable {n k : Nat} {s : State} {a : Word} {d r : Nat}

theorem mono (h : Unscanned n s) (hk : k ≤ n) : Unscanned k s :=
  ⟨h.noListener, by have := h.room; omega⟩

theorem addCycles (h : Unscanned (n + k) s) : Unscanned n (s.addCycles k) := by
  refine ⟨h.noListener, ?_⟩
  have := h.room
  rw [State.addCycles_cycles, BitVec.toNat_add, BitVec.toNat_ofNat]
  omega

theorem logDevice (h : Unscanned n s) (e : DeviceEvent) : Unscanned n (s.logDevice e) := ⟨h.noListener, h.room⟩

theorem advance (h : Unscanned n s) (k : Nat) : Unscanned n (s.advance k) := ⟨h.noListener, h.room⟩

theorem ne_lastCycle (h : Unscanned (n + 1) s) : s.cycles ≠ lastCycle := by
  have := h.room
  rw [ne_lastCycle_iff]
  omega

theorem memRead_of_backing (h : Unscanned (n + 1) s) (hr : route s.cfg a = .backing r) :
    memRead a s = .next (s.peek a, s.addCycles 1) := by
  rw [Machine.memRead_of_backing hr h.ne_lastCycle, tick_of_no_listener h.noListener, route_backing hr, State.peek]

theorem memWrite_of_device (h : Unscanned (n + 1) s) (hr : route s.cfg a = .device d r) (v : Byte) :
    memWrite a v s = .next ((s.logDevice (.write d r v)).addCycles 1) := by
  rw [Machine.memWrite_of_device hr h.ne_lastCycle, tick_of_no_listener (h.logDevice _).noListener]

theorem readWord_of_backing (h : Unscanned (n + 2) s) {lo hi : Word}
    (hp : ∀ p ∈ [lo, hi], ∃ q, route s.cfg p = .backing q) :
    readWord lo hi s = .next (s.peekWord lo hi, s.addCycles 2) := by
  obtain ⟨q, hq⟩ := hp lo (by simp)
  obtain ⟨q', hq'⟩ := hp hi (by simp)
  have h1 : Unscanned (n + 1) (s.addCycles 1) := addCycles h
  simp [readWord, memRead_of_backing (n := n + 1) h hq, h1.memRead_of_backing hq', State.peekWord]

theorem preRead_of_device (h : Unscanned (1 + k) s) (hr : route s.cfg a = .device d r) :
    ∃ o, preRead a (s.addCycles k) = .next ((o, a), (s.logDevice (.read d r)).addCycles (k + 1)) := by
  have hk : Unscanned (0 + 1) (s.addCycles k) := addCycles h
  obtain ⟨v, hv⟩ := Machine.memRead_of_device (s := s.addCycles k) hr hk.ne_lastCycle
  refine ⟨some v, ?_⟩
  rw [preRead, hv, andThen_next, tick_of_no_listener (hk.logDevice _).noListener, ← State.addCycles_add _ k 1]
  rfl

end Unscanned

/-- The modes whose fetch reads the byte at the effective address (R116). -/
def preReadModes : List Mode := [.zeroPage, .zeroPageX, .zeroPageY, .indexedIndirect, .indirectIndexed]

theorem indexedSum_of_not_faults {base : Word} {x : Byte} {s : State} (h : sumFaults s.cfg base x = false) :
    indexedSum base x s = .next (base + x.setWidth 16, s) := by
  simp [indexedSum, h]

section
variable {m : Mode} {b1 b2 : Byte} {s : State} {d r : Nat}

/-- A mode that pre-reads a device, its pointer read from cells: the read reaches the device before the operation
starts (R107, R109, R116). -/
theorem resolveMode_of_device (hm : m ∈ preReadModes) (h : Unscanned (resolveReads m) s)
    (hf : indexFaults m b1 b2 s = false) (hp : ∀ p ∈ pointerAddresses m b1 s, ∃ q, route s.cfg p = .backing q)
    (hr : route s.cfg (effectiveAddress m b1 b2 s) = .device d r) :
    ∃ o, resolveMode m b1 b2 s =
      .next ((o, effectiveAddress m b1 b2 s), (s.logDevice (.read d r)).addCycles (resolveReads m)) := by
  cases m <;> simp only [preReadModes, List.mem_cons, reduceCtorEq, List.not_mem_nil, or_false, or_self] at hm
  case zeroPage | zeroPageX | zeroPageY =>
    obtain ⟨o, ho⟩ := Unscanned.preRead_of_device (k := 0) h hr
    rw [State.addCycles_zero] at ho
    exact ⟨o, ho⟩
  case indexedIndirect =>
    obtain ⟨o, ho⟩ := Unscanned.preRead_of_device (k := 2) h hr
    exact ⟨o, by rw [resolveMode, Unscanned.readWord_of_backing (n := 1) h hp, andThen_next]; exact ho⟩
  case indirectIndexed =>
    obtain ⟨o, ho⟩ := Unscanned.preRead_of_device (k := 2) h hr
    have hsum : indexedSum (s.peekWord (zpPointer s.cfg b1).1 (zpPointer s.cfg b1).2) (s.reg .indY) (s.addCycles 2) =
        .next (effectiveAddress .indirectIndexed b1 b2 s, s.addCycles 2) := indexedSum_of_not_faults hf
    refine ⟨o, ?_⟩
    rw [resolveMode, Unscanned.readWord_of_backing (n := 1) h hp, andThen_next]
    exact (congrArg (andThen · fun x : Word × State => preRead x.1 x.2) hsum).trans ho

/-- The Absolute modes make no access of their own (R103 to R105). -/
theorem resolveMode_of_readsItself (hm : readsItself m = true) (hf : indexFaults m b1 b2 s = false) :
    resolveMode m b1 b2 s = .next ((none, effectiveAddress m b1 b2 s), s) := by
  cases m <;> simp only [readsItself, Bool.false_eq_true] at hm
  case absolute => rfl
  case absoluteX | absoluteY => exact congrArg addressOnly (indexedSum_of_not_faults hf)

end

/-- STA, STX and STY write their register at the address they are given (R123, R143 to R145). -/
theorem operation_store {n : Mnemonic} {r : Reg} (h : (n, r) ∈ [(.sta, .accum), (.stx, .indX), (.sty, .indY)])
    (p : Params) (s : State) : operation n p s = memWrite p.address (s.reg r) s := by
  simp only [List.mem_cons, Prod.mk.injEq, List.not_mem_nil, or_false] at h
  obtain ⟨rfl, rfl⟩ | ⟨rfl, rfl⟩ | ⟨rfl, rfl⟩ := h <;> rfl

/-- A store whose fetch leaves the machine at `x`, but for the accesses counted, delivers the register to the device after
that. -/
theorem exec_store_to_device {i : Instr} {e : Entry} {r : Reg} {s x : State} {d q : Nat} {o : Option Byte}
    (he : i.entry = some e) (hn : (e.name, r) ∈ [(.sta, .accum), (.stx, .indX), (.sty, .indY)])
    (hx : Unscanned (execAccesses e) x) (hregs : x.regs = s.regs)
    (hr : route x.cfg (addressOf i e.mode s) = .device d q)
    (hm : resolveMode e.mode i.byte1 i.byte2 s =
      .next ((o, addressOf i e.mode s), x.addCycles (resolveReads e.mode))) :
    exec i s = .next ((x.logDevice (.write d q (s.reg r))).passed e) := by
  have hops : operationAccesses e.name e.mode = 1 := entry_store he (by
    simp only [List.mem_cons, Prod.mk.injEq, List.not_mem_nil, or_false] at hn ⊢
    exact hn.imp And.left (Or.imp And.left And.left))
  have hacc : execAccesses e = 0 + 1 + resolveReads e.mode := by rw [execAccesses_eq, hops]; omega
  have hstart : Unscanned (0 + 1) (opStart e x) := (Unscanned.addCycles (hacc ▸ hx)).advance _
  have hreg : s.reg r = (opStart e x).reg r := congrArg (RegFile.get · r) hregs.symm
  rw [exec_eq_runEntry he, runEntry, hm, andThen_next]
  refine (operation_store hn _ _).trans ((hstart.memWrite_of_device hr _).trans ?_)
  rw [← opStart_passed, hops, hreg]
  rfl

/-- Settles O15: the rest of fetch reads the device in the ZeroPage and indirect modes and makes no access in the
Absolute ones; then the operation writes to it. -/
theorem storesReadTheirTargetFirst : Obligations.StoresReadTheirTargetFirst := by
  intro i e r s d q he hn hl hc hf hp hr
  have hs : Unscanned (execAccesses e) s := ⟨hl, hc⟩
  refine ⟨fun hm => ?_, fun hm => ?_⟩
  · obtain ⟨o, ho⟩ := resolveMode_of_device hm (hs.mono (by rw [execAccesses_eq]; omega)) hf hp hr
    exact exec_store_to_device he hn (hs.logDevice _) rfl hr ho
  · have hself : readsItself e.mode = true ∧ resolveReads e.mode = 0 := by
      simp only [List.mem_cons, List.not_mem_nil, or_false] at hm
      obtain h | h | h := hm <;> rw [h] <;> exact ⟨rfl, rfl⟩
    refine exec_store_to_device (o := none) he hn hs rfl hr ?_
    rw [hself.2, State.addCycles_zero]
    exact resolveMode_of_readsItself hself.1 hf


/-! ### The listener scan and what callbacks leave alone (R63 to R68) -/

theorem Listener.before_iff (l k : Listener) :
    Listener.before l k ↔
      l.target.toNat < k.target.toNat ∨ (l.target.toNat = k.target.toNat ∧ l.seq ≤ k.seq) := by
  rw [Listener.before, BitVec.lt_def, BitVec.toNat_inj]

theorem Listener.before_total (l k : Listener) : Listener.before l k ∨ Listener.before k l := by
  rw [Listener.before_iff, Listener.before_iff]
  omega

theorem Listener.before_trans {l k j : Listener} (h : Listener.before l k) (g : Listener.before k j) :
    Listener.before l j := by
  rw [Listener.before_iff] at *
  omega

section
open Classical

theorem insertDue_eq_orderedInsert (l : Listener) (ls : List Listener) :
    insertDue l ls = ls.orderedInsert Listener.before l := by
  induction ls with
  | nil => rfl
  | cons k ks ih =>
    rw [insertDue, List.orderedInsert_cons, ih]
    exact if_congr Iff.rfl rfl rfl

/-- The sort of a scan is the library's insertion sort by target and then by registration (R63). -/
theorem sortDue_eq_insertionSort (ls : List Listener) : sortDue ls = ls.insertionSort Listener.before := by
  induction ls with
  | nil => rfl
  | cons l ls ih => rw [sortDue, ih, insertDue_eq_orderedInsert, List.insertionSort_cons]

theorem sortDue_perm (ls : List Listener) : (sortDue ls).Perm ls := by
  rw [sortDue_eq_insertionSort]
  exact List.perm_insertionSort _ ls

theorem sortDue_pairwise (ls : List Listener) : (sortDue ls).Pairwise Listener.before := by
  have : Std.Total Listener.before := ⟨Listener.before_total⟩
  have : IsTrans Listener Listener.before := ⟨fun _ _ _ => Listener.before_trans⟩
  rw [sortDue_eq_insertionSort]
  exact List.pairwise_insertionSort _ ls

end

/-- The pending listeners stay, and behind them stand those registered on the way, with numbers from next_seq on (R22,
R23, R66). -/
structure Registered (s t : State) : Prop where
  nextSeq : s.nextSeq ≤ t.nextSeq
  added   : ∃ added, t.listeners = s.listeners ++ added ∧ ∀ l ∈ added, s.nextSeq ≤ l.seq ∧ l.seq < t.nextSeq

namespace Registered
variable {s t u : State}

theorem of_same (hn : t.nextSeq = s.nextSeq) (hl : t.listeners = s.listeners) : Registered s t :=
  ⟨hn.ge, [], by rw [hl, List.append_nil], by simp⟩

theorem trans (h : Registered s t) (g : Registered t u) : Registered s u := by
  obtain ⟨hn, as, ha, hseq⟩ := h
  obtain ⟨gn, bs, hb, gseq⟩ := g
  refine ⟨hn.trans gn, as ++ bs, by rw [hb, ha, List.append_assoc], fun l hl => ?_⟩
  obtain hl | hl := List.mem_append.1 hl
  · exact ⟨(hseq l hl).1, (hseq l hl).2.trans_le gn⟩
  · exact ⟨hn.trans (gseq l hl).1, (gseq l hl).2⟩

theorem isPrefix (h : Registered s t) : s.listeners <+: t.listeners := by
  obtain ⟨-, as, ha, -⟩ := h
  exact ⟨as, ha.symm⟩

end Registered

theorem transferRead_listeners {r : Route} {s u : State} {v : Byte} (h : transferRead r s = some (v, u)) :
    u.listeners = s.listeners := by
  cases r <;> cases h <;> rfl

theorem transferWrite_listeners {r : Route} {s u : State} {v : Byte} (h : transferWrite r v s = some u) :
    u.listeners = s.listeners := by
  cases r <;> cases h <;> rfl

theorem hostRead_listeners (a : Word) (s : State) : (hostRead a s).2.listeners = s.listeners := by
  unfold hostRead
  split
  · next h => exact transferRead_listeners h
  · rfl

theorem hostRead16_listeners (a : Word) (s : State) : (hostRead16 a s).2.listeners = s.listeners :=
  (hostRead_listeners (a + 1) _).trans (hostRead_listeners a s)

theorem hostRead16_nextSeq (a : Word) (s : State) : (hostRead16 a s).2.nextSeq = s.nextSeq :=
  (hostRead_nextSeq (a + 1) _).trans (hostRead_nextSeq a s)

theorem hostWrite_listeners (a : Word) (v : Byte) (s : State) : (hostWrite a v s).2.listeners = s.listeners := by
  unfold hostWrite
  split
  · next h => exact transferWrite_listeners h
  · rfl

theorem storeBytes_listeners (bs : List Byte) (a : Word) (s : State) :
    (storeBytes bs a s).listeners = s.listeners := by
  induction bs generalizing a s with
  | nil => rfl
  | cons v bs ih => exact (ih _ _).trans (hostWrite_listeners a v s)

theorem hostWriteArray_listeners (a : Word) (bs : List Byte) (n : Nat) (s : State) :
    (hostWriteArray a bs n s).2.listeners = s.listeners := by
  unfold hostWriteArray
  split
  · rfl
  · rw [State.countDraw_listeners, storeBytes_listeners]

theorem addListener_registered (target : Cycles) (id : Nat) (s : State) : Registered s (addListener target id s) :=
  ⟨Nat.le_succ _, [⟨target, s.nextSeq, id⟩], rfl, by simp [addListener]⟩

theorem applyAction_registered (s : State) (a : HostAction) : Registered s (applyAction s a) := by
  cases a with
  | read a => exact .of_same (hostRead_nextSeq a s) (hostRead_listeners a s)
  | read16 a => exact .of_same (hostRead16_nextSeq a s) (hostRead16_listeners a s)
  | write a v => exact .of_same (hostWrite_nextSeq a v s) (hostWrite_listeners a v s)
  | writeArray a bs n => exact .of_same (hostWriteArray_nextSeq a bs n s) (hostWriteArray_listeners a bs n s)
  | addListener target id => exact addListener_registered target id s
  | changeDevice d tag => exact .of_same rfl rfl

theorem applyActions_registered (as : List HostAction) (s : State) : Registered s (applyActions as s) := by
  induction as generalizing s with
  | nil => exact .of_same rfl rfl
  | cons a as ih => exact (applyAction_registered s a).trans (ih _)

theorem invoke_registered (l : Listener) (s : State) : Registered s (invoke l s) :=
  Registered.trans (t := { s with draws := s.draws + 1 }) (.of_same rfl rfl) (applyActions_registered _ _)

theorem invokeAll_registered (ls : List Listener) (s : State) : Registered s (invokeAll ls s) := by
  induction ls generalizing s with
  | nil => exact .of_same rfl rfl
  | cons l ls ih => exact (invoke_registered l s).trans (ih _)

/-- Settles O50: a scan sorts by the library's insertion sort, removes the due listeners before it invokes them, and its
callbacks only register behind the others. -/
theorem dueListenersFireOnceInOrder : Obligations.DueListenersFireOnceInOrder :=
  ⟨fun ls => ⟨sortDue_perm ls, sortDue_pairwise ls⟩, fun _ => rfl,
    fun s => (invokeAll_registered _ { s with listeners := s.listeners.filter fun l => !s.isDue l }).added,
    fun _ => fireDue_of_no_listener⟩

theorem hostActions_of_uncounted {s t : State} (hu : Uncounted s t) (hl : s.listeners <+: t.listeners) :
    t.regs = s.regs ∧ t.pc = s.pc ∧ t.cycles = s.cycles ∧ t.fault = s.fault ∧ t.resetDone = s.resetDone ∧
      t.cfg = s.cfg ∧ s.listeners <+: t.listeners :=
  ⟨hu.cpu.regs, hu.cpu.pc, hu.cycles, hu.cpu.fault, hu.cpu.resetDone, hu.cpu.cfg, hl⟩

/-- Settles O51: all of these are uncounted operations, and only a callback registers listeners. -/
theorem hostActionsLeaveTheCpu : Obligations.HostActionsLeaveTheCpu := by
  rintro s t (⟨l, rfl⟩ | ⟨a, rfl⟩ | ⟨a, rfl⟩ | ⟨a, v, rfl⟩ | ⟨a, bs, n, rfl⟩)
  · exact hostActions_of_uncounted (invoke_uncounted l s) (invoke_registered l s).isPrefix
  · exact hostActions_of_uncounted (hostRead_uncounted a s) (by rw [hostRead_listeners])
  · exact hostActions_of_uncounted (hostRead16_uncounted a s) (by rw [hostRead16_listeners])
  · exact hostActions_of_uncounted (hostWrite_uncounted a v s) (by rw [hostWrite_listeners])
  · exact hostActions_of_uncounted (hostWriteArray_uncounted a bs n s) (by rw [hostWriteArray_listeners])

end Sys2Proof.Machine
end

section
/-!
PROOFS. 20_memory.md: what a well-formed configuration says of its ranges (R43, R44).
-/

namespace Sys2Proof

/-- The clauses of `Config.wellFormed` that routing rests on (R43, R44, R5). -/
structure Config.Sound (c : Config) : Prop where
  capacity  : c.capacity ≤ 65536
  primaries : ∀ z ∈ c.zones, z.start + z.length ≤ c.capacity ∨
    ∃ d ∈ c.devices, d.start ≤ z.start ∧ z.start + z.length ≤ d.start + d.length
  mirrors   : ∀ z ∈ c.zones, ∀ m ∈ z.mirrors, m + z.length ≤ 65536
  disjoint  : (c.zones.flatMap fun z => z.primary :: z.mirrorRanges).Pairwise fun r q => r.disjoint q = true
  devices   : ∀ d ∈ c.devices, d.start + d.length ≤ 65536

theorem Range.pairwiseDisjoint_iff (rs : List Range) :
    Range.pairwiseDisjoint rs = true ↔ rs.Pairwise fun r q => r.disjoint q = true := by
  induction rs with
  | nil => simp [Range.pairwiseDisjoint]
  | cons r rs ih => rw [Range.pairwiseDisjoint, Bool.and_eq_true, List.all_eq_true, ih, List.pairwise_cons]

theorem Range.inside_iff {r : Range} {lo hi : Nat} :
    r.inside lo hi = true ↔ lo ≤ r.start ∧ r.start + r.length ≤ hi := by
  simp [Range.inside]

theorem Config.sound_of_wellFormed {c : Config} (h : c.wellFormed = true) : c.Sound := by
  simp only [Config.wellFormed, Bool.and_eq_true] at h
  obtain ⟨⟨⟨⟨⟨⟨hcap, -⟩, hprim⟩, hmir⟩, hdisj⟩, -⟩, hdev⟩ := h
  simp only [Config.capacityOk, Bool.and_eq_true, decide_eq_true_eq] at hcap
  simp only [Config.primariesOk, List.all_eq_true, Bool.or_eq_true, List.any_eq_true, Range.inside_iff] at hprim
  simp only [Config.mirrorsOk, Zone.mirrorRanges, List.all_eq_true, Range.inside_iff] at hmir
  simp only [Config.devicesInSpace, List.all_eq_true, Range.inside_iff] at hdev
  exact ⟨hcap.2, fun z hz => (hprim z hz).imp And.right id,
    fun z hz m hm => (hmir z hz ⟨m, z.length⟩ (List.mem_map.2 ⟨m, hm, rfl⟩)).2,
    (Range.pairwiseDisjoint_iff _).1 hdisj, fun d hd => (hdev d hd).2⟩

/-- `x` lies in the range. -/
def Range.Holds (r : Range) (x : Nat) : Prop := r.start ≤ x ∧ x < r.start + r.length

theorem Range.not_holds_of_disjoint {r q : Range} {x : Nat} (h : r.disjoint q = true) (hr : r.Holds x) :
    ¬ q.Holds x := by
  simp only [Range.disjoint, Bool.or_eq_true, decide_eq_true_eq] at h
  unfold Range.Holds at *
  omega

theorem Range.disjoint_symm {r q : Range} (h : r.disjoint q = true) : q.disjoint r = true := by
  simp only [Range.disjoint, Bool.or_eq_true, decide_eq_true_eq] at h ⊢
  omega

section
variable {c : Config} {z : Zone}

theorem Config.Sound.primary_lt (h : c.Sound) (hz : z ∈ c.zones) {k : Nat} (hk : k < z.length) :
    z.start + k < 65536 := by
  have hcap := h.capacity
  obtain hp | ⟨d, hd, -, hhi⟩ := h.primaries z hz
  · omega
  · have := h.devices d hd
    omega

/-- No address lies in ranges of two zones (R43). -/
theorem Config.Sound.zone_unique (h : c.Sound) {z' : Zone} (hz : z ∈ c.zones) (hz' : z' ∈ c.zones) {r q : Range}
    (hr : r ∈ z.primary :: z.mirrorRanges) (hq : q ∈ z'.primary :: z'.mirrorRanges) {x : Nat} (hrx : r.Holds x)
    (hqx : q.Holds x) : z = z' := by
  by_contra hne
  have hsymm : Std.Symm fun z z' : Zone => ∀ r ∈ z.primary :: z.mirrorRanges, ∀ q ∈ z'.primary :: z'.mirrorRanges,
      r.disjoint q = true := ⟨fun _ _ h q hq r hr => Range.disjoint_symm (h r hr q hq)⟩
  have hd := (List.pairwise_flatMap.1 h.disjoint).2.forall hz hz' hne r hr q hq
  exact Range.not_holds_of_disjoint hd hrx hqx

/-- No two ranges of one zone share an address (R43). -/
theorem Config.Sound.zone_disjoint (h : c.Sound) (hz : z ∈ c.zones) :
    (z.primary :: z.mirrorRanges).Pairwise fun r q => r.disjoint q = true :=
  (List.pairwise_flatMap.1 h.disjoint).1 z hz

/-- No address lies in two mirrors of a zone (R43). -/
theorem Config.Sound.mirror_unique (h : c.Sound) (hz : z ∈ c.zones) {m m' x : Nat} (hm : m ∈ z.mirrors)
    (hm' : m' ∈ z.mirrors) (hx : (Range.mk m z.length).Holds x) (hx' : (Range.mk m' z.length).Holds x) : m = m' := by
  by_contra hne
  have hsymm : Std.Symm fun r q : Range => r.disjoint q = true := ⟨fun _ _ => Range.disjoint_symm⟩
  have hd := (List.pairwise_cons.1 (h.zone_disjoint hz)).2.forall (List.mem_map_of_mem hm) (List.mem_map_of_mem hm')
    fun e => hne (Range.mk.injEq .. ▸ e).1
  exact Range.not_holds_of_disjoint hd hx hx'

end

end Sys2Proof
end

section
/-!
PROOFS. 20_memory.md: where the addresses of a well-formed configuration route, mirrors as views, bulk loads.
-/

namespace Sys2Proof.Machine

/-! ### Routes of a well-formed configuration (R42 to R45) -/

theorem deviceAt_ne_none {ds : List DeviceRange} {d : DeviceRange} {r : Nat} (hd : d ∈ ds) (hr : d.range.Holds r) :
    deviceAt r ds ≠ none := by
  induction ds with
  | nil => cases hd
  | cons e ds ih =>
    rw [deviceAt]
    split
    · simp
    · next he =>
      obtain rfl | hd := List.mem_cons.1 hd
      · exact absurd hr he
      · exact ih hd

theorem route_eq_outOfRange_iff {c : Config} {a : Word} :
    route c a = .outOfRange ↔ deviceAt (resolve c a) c.devices = none ∧ c.capacity ≤ resolve c a := by
  cases h : deviceAt (resolve c a) c.devices with
  | some d => simp [route, h]
  | none => simp [route, h]

/-- The canonical address of a mirror hit is that of one of the mirrors that hold the address (R42). -/
theorem mirrorHit_eq_some {a start length r : Nat} {ms : List Nat} (h : mirrorHit a start length ms = some r) :
    ∃ m ∈ ms, (Range.mk m length).Holds a ∧ r = start + (a - m) := by
  induction ms with
  | nil => cases h
  | cons m ms ih =>
    rw [mirrorHit] at h
    split at h
    · next hm => cases h; exact ⟨m, List.mem_cons_self, hm, rfl⟩
    · obtain ⟨m', hm', hx⟩ := ih h
      exact ⟨m', List.mem_cons_of_mem _ hm', hx⟩

theorem mirrorHit_ne_none {a start length m : Nat} {ms : List Nat} (hm : m ∈ ms) (ha : (Range.mk m length).Holds a) :
    mirrorHit a start length ms ≠ none := by
  induction ms with
  | nil => cases hm
  | cons m' ms ih =>
    rw [mirrorHit]
    split
    · simp
    · next hn =>
      obtain rfl | hm := List.mem_cons.1 hm
      · exact absurd ha hn
      · exact ih hm

theorem zoneHit_eq_some {a r : Nat} {zs : List Zone} (h : zoneHit a zs = some r) :
    ∃ z ∈ zs, ∃ m ∈ z.mirrors, (Range.mk m z.length).Holds a ∧ r = z.start + (a - m) := by
  induction zs with
  | nil => cases h
  | cons z zs ih =>
    rw [zoneHit] at h
    split at h
    · next hm => cases h; exact ⟨z, List.mem_cons_self, mirrorHit_eq_some hm⟩
    · obtain ⟨z', hz', hx⟩ := ih h
      exact ⟨z', List.mem_cons_of_mem _ hz', hx⟩

theorem zoneHit_ne_none {a m : Nat} {z : Zone} {zs : List Zone} (hz : z ∈ zs) (hm : m ∈ z.mirrors)
    (ha : (Range.mk m z.length).Holds a) : zoneHit a zs ≠ none := by
  induction zs with
  | nil => cases hz
  | cons z' zs ih =>
    rw [zoneHit]
    split
    · simp
    · next hn =>
      obtain rfl | hz := List.mem_cons.1 hz
      · exact absurd hn (mirrorHit_ne_none hm ha)
      · exact ih hz

section
variable {c : Config} {z : Zone}

/-- An address a zone's primary range resolves to has a cell or a device (R43, R45). -/
theorem route_of_primary (h : c.Sound) (hz : z ∈ c.zones) {a : Word} {k : Nat} (hk : k < z.length)
    (ha : resolve c a = z.start + k) : route c a ≠ .outOfRange := by
  intro hr
  obtain ⟨hdev, hcap⟩ := route_eq_outOfRange_iff.1 hr
  rw [ha] at hdev hcap
  obtain hp | ⟨d, hd, hlo, hhi⟩ := h.primaries z hz
  · omega
  · have hold : d.range.Holds (z.start + k) :=
      ⟨hlo.trans (Nat.le_add_right _ k), (Nat.add_lt_add_left hk _).trans_le hhi⟩
    exact deviceAt_ne_none hd hold hdev

/-- An address below CAPACITY has a cell or a device (R43, R45). -/
theorem route_of_lt (h : c.Sound) {a : Word} (ha : a.toNat < c.capacity) : route c a ≠ .outOfRange := by
  cases hz : zoneHit a.toNat c.zones with
  | none =>
    intro hr
    obtain ⟨-, hcap⟩ := route_eq_outOfRange_iff.1 hr
    rw [resolve, hz] at hcap
    exact absurd ha (Nat.not_lt.2 hcap)
  | some r =>
    obtain ⟨z, hzone, m, -, ⟨hlo, hhi⟩, hr⟩ := zoneHit_eq_some hz
    refine route_of_primary h hzone (k := a.toNat - m) (by simp only at hlo hhi; omega) ?_
    rw [resolve, hz, hr]

/-- An address of a zone's mirror resolves to the same offset of the primary range (R42). -/
theorem zoneHit_mirror (h : c.Sound) (hz : z ∈ c.zones) {m x : Nat} (hm : m ∈ z.mirrors)
    (hx : (Range.mk m z.length).Holds x) : zoneHit x c.zones = some (z.start + (x - m)) := by
  obtain ⟨r, hr⟩ := Option.ne_none_iff_exists'.1 (zoneHit_ne_none hz hm hx)
  obtain ⟨z', hz', m', hm', hx', rfl⟩ := zoneHit_eq_some hr
  obtain rfl := h.zone_unique hz hz' (List.mem_cons_of_mem _ (List.mem_map_of_mem hm))
    (List.mem_cons_of_mem _ (List.mem_map_of_mem hm')) hx hx'
  rw [hr, h.mirror_unique hz hm hm' hx hx']

/-- An address of a zone's primary range lies in no mirror (R43). -/
theorem zoneHit_primary (h : c.Sound) (hz : z ∈ c.zones) {x : Nat} (hx : z.primary.Holds x) :
    zoneHit x c.zones = none := by
  by_contra hne
  obtain ⟨r, hr⟩ := Option.ne_none_iff_exists'.1 hne
  obtain ⟨z', hz', m, hm, hxm, -⟩ := zoneHit_eq_some hr
  obtain rfl := h.zone_unique hz hz' List.mem_cons_self (List.mem_cons_of_mem _ (List.mem_map_of_mem hm)) hx hxm
  have hd := (List.pairwise_cons.1 (h.zone_disjoint hz)).1 _ (List.mem_map_of_mem hm)
  exact Range.not_holds_of_disjoint hd hx hxm

theorem resolve_mirror (h : c.Sound) (hz : z ∈ c.zones) {m k : Nat} (hm : m ∈ z.mirrors)
    (hk : k < z.length) : resolve c (BitVec.ofNat 16 (m + k)) = z.start + k := by
  have hlt : (BitVec.ofNat 16 (m + k)).toNat = m + k := by
    have := h.mirrors z hz m hm
    rw [BitVec.toNat_ofNat]
    omega
  rw [resolve, hlt, zoneHit_mirror h hz hm ⟨Nat.le_add_right m k, Nat.add_lt_add_left hk m⟩, Nat.add_sub_cancel_left]

theorem resolve_primary (h : c.Sound) (hz : z ∈ c.zones) {k : Nat} (hk : k < z.length) :
    resolve c (BitVec.ofNat 16 (z.start + k)) = z.start + k := by
  have hlt : (BitVec.ofNat 16 (z.start + k)).toNat = z.start + k := by
    have := h.primary_lt hz hk
    rw [BitVec.toNat_ofNat]
    omega
  rw [resolve, hlt, zoneHit_primary h hz (x := z.start + k) ⟨Nat.le_add_right _ k, Nat.add_lt_add_left hk _⟩]

end

/-- The route of an address is that of its resolved address (R45). -/
theorem route_congr {c : Config} {a b : Word} (h : resolve c a = resolve c b) : route c a = route c b := by
  rw [route, route, h]

/-- A byte written through one address is read through every other that routes to the same cell (R46, R48). -/
theorem hostRead_hostWrite {a b : Word} {s : State} {r : Nat} (ha : route s.cfg a = .backing r)
    (hb : route s.cfg b = .backing r) (v : Byte) : (hostRead b (hostWrite a v s).2).1 = .success v := by
  rw [hostWrite_of_backing ha, hostRead_of_backing (s := s.setCell r v) hb, State.setCell_cell, if_pos rfl]

/-- Settles O54: the two addresses resolve to the same offset of the primary range, which has a cell. -/
theorem mirrorsAreViews : Obligations.MirrorsAreViews := by
  intro c z m k hwf hz hm hk
  have hc := Config.sound_of_wellFormed hwf
  have hmir := resolve_mirror hc hz hm hk
  have hprim := resolve_primary hc hz hk
  refine ⟨hmir, hprim, fun s v hs hnd => ?_⟩
  subst hs
  have hroute := route_congr (hmir.trans hprim.symm)
  cases hr : route s.cfg (BitVec.ofNat 16 (z.start + k)) with
  | outOfRange => exact absurd hr (route_of_primary hc hz hk hprim)
  | device d r => exact absurd hr (hnd d r)
  | backing r => exact ⟨hostRead_hostWrite hr (hroute.trans hr) v, hostRead_hostWrite (hroute.trans hr) hr v⟩

/-! ### Bulk loads (R47) -/

theorem hostWrite_cfg (a : Word) (v : Byte) (s : State) : (hostWrite a v s).2.cfg = s.cfg :=
  (hostWrite_uncounted a v s).cpu.cfg

/-- A host write changes no cell but that of its route (R48). -/
theorem hostWrite_cell_of_ne {a : Word} {s : State} {r : Nat} (h : route s.cfg a ≠ .backing r) (v : Byte) :
    (hostWrite a v s).2.cell r = s.cell r := by
  cases hr : route s.cfg a with
  | outOfRange => rw [hostWrite_of_outOfRange hr]
  | device d q => rw [hostWrite_of_device hr]; rfl
  | backing q =>
    rw [hostWrite_of_backing hr, State.setCell_cell, if_neg]
    rintro rfl
    exact h hr

/-- The byte number `k + 1` of a load from `a` is number `k` of the load of the rest. -/
theorem address_succ (a : Word) (k : Nat) : a + BitVec.ofNat 16 (k + 1) = a + 1 + BitVec.ofNat 16 k := by
  rw [BitVec.ofNat_add]
  bv_omega

theorem storeBytes_cell_of_ne {bs : List Byte} {a : Word} {s : State} {r : Nat}
    (h : ∀ j, j < bs.length → route s.cfg (a + BitVec.ofNat 16 j) ≠ .backing r) :
    (storeBytes bs a s).cell r = s.cell r := by
  induction bs generalizing a s with
  | nil => rfl
  | cons v bs ih =>
    have hfirst : route s.cfg a ≠ .backing r := by simpa using h 0 (by simp)
    refine (ih fun j hj => ?_).trans (hostWrite_cell_of_ne hfirst v)
    rw [hostWrite_cfg, ← address_succ]
    exact h (j + 1) (by simpa using hj)

/-- Of the bytes a load has for one cell the last stays (R47). -/
theorem storeBytes_cell_of_last {bs : List Byte} {a : Word} {s : State} {k r : Nat} {v : Byte} (hv : bs[k]? = some v)
    (hk : route s.cfg (a + BitVec.ofNat 16 k) = .backing r)
    (hlast : ∀ j, k < j → j < bs.length → route s.cfg (a + BitVec.ofNat 16 j) ≠ .backing r) :
    (storeBytes bs a s).cell r = v := by
  induction bs generalizing a s k with
  | nil => simp at hv
  | cons w bs ih =>
    have htail : ∀ j, k < j + 1 → j < bs.length →
        route (hostWrite a w s).2.cfg (a + 1 + BitVec.ofNat 16 j) ≠ .backing r := fun j hkj hj => by
      rw [hostWrite_cfg, ← address_succ]
      exact hlast (j + 1) hkj (by simpa using hj)
    cases k with
    | zero =>
      have ha : route s.cfg a = .backing r := by simpa using hk
      cases hv
      refine (storeBytes_cell_of_ne fun j hj => htail j (Nat.succ_pos j) hj).trans ?_
      rw [hostWrite_of_backing ha, State.setCell_cell, if_pos rfl]
    | succ k =>
      rw [List.getElem?_cons_succ] at hv
      refine ih hv ?_ fun j hkj hj => htail j (Nat.succ_lt_succ hkj) hj
      rw [hostWrite_cfg, ← address_succ]
      exact hk

/-- The devices get the bytes routed to them in order (R44, R47). -/
theorem storeBytes_deviceLog (bs : List Byte) (a : Word) (s : State) :
    (storeBytes bs a s).deviceLog = (deviceWrites s.cfg bs a).reverse ++ s.deviceLog := by
  induction bs generalizing a s with
  | nil => rfl
  | cons v bs ih =>
    rw [storeBytes, ih, hostWrite_cfg, deviceWrites]
    cases hr : route s.cfg a with
    | outOfRange => rw [hostWrite_of_outOfRange hr]
    | backing r => rw [hostWrite_of_backing hr]; rfl
    | device d r => rw [hostWrite_of_device hr]; simp

/-- An address a load within CAPACITY reaches (R47). -/
theorem address_lt_capacity {c : Config} (h : c.capacity ≤ 65536) {start : Word} {k length : Nat}
    (hl : start.toNat + length ≤ c.capacity) (hk : k < length) : (start + BitVec.ofNat 16 k).toNat < c.capacity := by
  rw [BitVec.toNat_add, BitVec.toNat_ofNat]
  omega

theorem hostWriteArray_of_overrun {start : Word} {bytes : List Byte} {length : Nat} {s : State}
    (h : start.toNat + length > s.cfg.capacity) :
    hostWriteArray start bytes length s = (.failure .overlapOrOverrun, s) := by
  rw [hostWriteArray, if_pos h]

theorem hostWriteArray_of_le {start : Word} {bytes : List Byte} {length : Nat} {s : State}
    (h : start.toNat + length ≤ s.cfg.capacity) :
    hostWriteArray start bytes length s = (.success (),
      (storeBytes (loadedBytes s.draws length 0 bytes) start s).countDraw (decide (bytes.length < length))) := by
  rw [hostWriteArray, if_neg (Nat.not_lt.2 h)]

theorem State.countDraw_cell (s : State) (b : Bool) (r : Nat) : (s.countDraw b).cell r = s.cell r :=
  State.cell_congr (s.countDraw_mem b) (s.countDraw_memEpoch b) r

/-- Settles O53: within CAPACITY the load is the loop of R47 over the loaded bytes. -/
theorem writeArrayIsAllOrNothing : Obligations.WriteArrayIsAllOrNothing := by
  intro start bytes length s t at'
  refine ⟨hostWriteArray_of_overrun, fun hle => ?_⟩
  have hlen : (loadedBytes s.draws length 0 bytes).length = length := loadedBytes_length _ _ _ _
  have ht : t = (storeBytes (loadedBytes s.draws length 0 bytes) start s).countDraw (decide (bytes.length < length)) :=
    congrArg Prod.snd (hostWriteArray_of_le hle)
  have hcell : ∀ r, t.cell r = (storeBytes (loadedBytes s.draws length 0 bytes) start s).cell r := fun r => by
    rw [ht, State.countDraw_cell]
  refine ⟨congrArg Prod.fst (hostWriteArray_of_le hle), ⟨loadedBytes s.draws length 0 bytes, hlen,
    fun k v => loadedBytes_getElem?, fun k v r hv hk hlast => ?_, ?_⟩, fun r hr => ?_,
    hostWriteArray_listeners start bytes length s, (hostWriteArray_uncounted start bytes length s).cycles,
    fun hwf k hk => ?_⟩
  · rw [hcell]
    exact storeBytes_cell_of_last hv hk (by rwa [hlen])
  · rw [ht, State.countDraw_deviceLog, storeBytes_deviceLog]
  · rw [hcell]
    exact storeBytes_cell_of_ne (by rwa [hlen])
  · have hc := Config.sound_of_wellFormed hwf
    exact route_of_lt hc (address_lt_capacity hc.capacity hle hk)

end Sys2Proof.Machine
end

section
/-!
PROOFS. 30_encoding.md: the opcode table (R83, R84, R86, R88), and that the decoder and the encoder undo each other
(R80, R81).
-/

namespace Sys2Proof

/-! ### The opcode table (R83, R84, R86, R88) -/

theorem metadata_eq_none_iff {op : Byte} : metadata op = none ↔ op ∈ unimplementedBytes :=
  Option.map_eq_none_iff.trans rowOf_none

/-- The size column of the table is that of the mode column (R83, R84). -/
theorem metadata_size : ∀ op, ∀ e ∈ metadata op, e.size = 1 + e.mode.operandBytes := by decide

/-- Settles O2: the sentinels are the bytes with no row, and the sizes are those of the table's entries. -/
theorem opcodeTableSizesAndSentinels : Obligations.OpcodeTableSizesAndSentinels :=
  ⟨rfl, rfl, fun _ => metadata_eq_none_iff, metadata_size⟩

/-! ### What an opcode byte and its operand bytes stand for (R81, R86, R88) -/

theorem operandBytesOf_of_rowOf {op : Byte} {r : Row} (h : rowOf op = some r) :
    operandBytesOf op = r.entry.mode.operandBytes :=
  Machine.operandBytesOf_of_metadata (Option.map_eq_some_iff.2 ⟨r, h, rfl⟩)

theorem instrOf_of_rowOf {op : Byte} {r : Row} (h : rowOf op = some r) (b1 b2 : Byte) :
    instrOf op b1 b2 = r.form.apply b1 b2 := by
  simp only [instrOf, h]

/-- Every opcode byte stands for well-formed instructions, which encode to it and its operand bytes. -/
theorem instrOf_wellFormed_encode (op b1 b2 : Byte) :
    (instrOf op b1 b2).wellFormed = true ∧
      encode (instrOf op b1 b2) = op :: [b1, b2].take (operandBytesOf op) := by
  cases hr : rowOf op with
  | none =>
    have hop := rowOf_none.1 hr
    have hm := metadata_eq_none_iff.2 hop
    rw [Machine.instrOf_of_unimplemented hm, Machine.operandBytesOf_of_unimplemented hm]
    exact ⟨List.contains_iff_mem.2 hop, rfl⟩
  | some r =>
    obtain ⟨hok, rfl⟩ := rowOf_ok hr
    obtain ⟨hwf, -, henc⟩ := hok b1 b2
    rw [instrOf_of_rowOf hr, operandBytesOf_of_rowOf hr]
    exact ⟨hwf, henc⟩

/-! ### The decoder and the encoder undo each other (R80, R81) -/

/-- Bytes that decode are an opcode byte, as many operand bytes as it has, and the rest. -/
theorem decode_eq_ok {bytes rest : List Byte} {i : Instr} (h : decode bytes = .ok (i, rest)) :
    ∃ op b1 b2, bytes = op :: ([b1, b2].take (operandBytesOf op) ++ rest) ∧ i = instrOf op b1 b2 := by
  cases bytes with
  | nil => cases h
  | cons op tail =>
    rw [decode_cons] at h
    split at h
    · next hk => cases h; exact ⟨op, 0, 0, by rw [hk]; rfl, rfl⟩
    · next b1 _ hk => cases h; exact ⟨op, b1, 0, by rw [hk]; rfl, rfl⟩
    · next b1 b2 _ hk => cases h; exact ⟨op, b1, b2, by rw [hk]; rfl, rfl⟩
    · cases h

/-- Settles O4: decoded bytes are an opcode byte and its operand bytes, and what they stand for encodes to them. -/
theorem encodeOfDecode : Obligations.EncodeOfDecode := by
  intro bytes rest i h
  obtain ⟨op, b1, b2, rfl, rfl⟩ := decode_eq_ok h
  obtain ⟨hwf, henc⟩ := instrOf_wellFormed_encode op b1 b2
  exact ⟨hwf, by rw [henc, List.cons_append]⟩

/-- A byte with no row decodes by itself (R88). -/
theorem decode_of_unimplemented {op : Byte} (h : metadata op = none) (rest : List Byte) :
    decode (op :: rest) = .ok (.unimplemented op, rest) := by
  simp only [decode_cons, Machine.operandBytesOf_of_unimplemented h, Machine.instrOf_of_unimplemented h]

/-- Settles O3: the row of each instruction's opcode has the form of its encoding, a word operand (F3), a byte operand
(F2) or none (F1). -/
theorem decodeOfEncode : Obligations.DecodeOfEncode := by
  intro i rest h
  cases i with
  | unimplemented op =>
    exact decode_of_unimplemented (metadata_eq_none_iff.2 (List.contains_iff_mem.1 h)) rest
  | ldaAbs addr | ldaAbsY addr | ldaAbsX addr | ldxAbs addr | ldxAbsY addr | ldyAbs addr | ldyAbsX addr | staAbs addr
  | staAbsY addr | staAbsX addr | stxAbs addr | styAbs addr | adcAbs addr | adcAbsY addr | adcAbsX addr | sbcAbs addr
  | sbcAbsY addr | sbcAbsX addr | cmpAbs addr | cmpAbsY addr | cmpAbsX addr | cpxAbs addr | cpyAbs addr | incAbs addr
  | incAbsX addr | decAbs addr | decAbsX addr | andAbs addr | andAbsY addr | andAbsX addr | oraAbs addr | oraAbsY addr
  | oraAbsX addr | eorAbs addr | eorAbsY addr | eorAbsX addr | bitAbs addr | aslAbs addr | aslAbsX addr | lsrAbs addr
  | lsrAbsX addr | rolAbs addr | rolAbsX addr | rorAbs addr | rorAbsX addr | jmpAbs addr | jmpInd addr | jsr addr =>
    exact decode_f3 rfl rfl rfl addr rest
  | ldaIndX b | ldaZp b | ldaImm b | ldaIndY b | ldaZpX b | ldxImm b | ldxZp b | ldxZpY b | ldyImm b | ldyZp b
  | ldyZpX b | staIndX b | staZp b | staIndY b | staZpX b | stxZp b | stxZpY b | styZp b | styZpX b | adcIndX b
  | adcZp b | adcImm b | adcIndY b | adcZpX b | sbcIndX b | sbcZp b | sbcImm b | sbcIndY b | sbcZpX b | cmpIndX b
  | cmpZp b | cmpImm b | cmpIndY b | cmpZpX b | cpxImm b | cpxZp b | cpyImm b | cpyZp b | incZp b | incZpX b | decZp b
  | decZpX b | andIndX b | andZp b | andImm b | andIndY b | andZpX b | oraIndX b | oraZp b | oraImm b | oraIndY b
  | oraZpX b | eorIndX b | eorZp b | eorImm b | eorIndY b | eorZpX b | bitZp b | aslZp b | aslZpX b | lsrZp b
  | lsrZpX b | rolZp b | rolZpX b | rorZp b | rorZpX b | bcc b | bcs b | beq b | bmi b
  | bne b | bpl b | bvc b | bvs b =>
    exact decode_f2 rfl rfl rfl b rest
  | _ => exact decode_f1 rfl rfl rfl rest

/-- Settles O1: each word is the encoding of its instruction, and bytes that follow it are left over. -/
theorem documentedWordsDecode : Obligations.DocumentedWordsDecode :=
  ⟨decodeOfEncode (.ldaImm 0x80) [] rfl, decodeOfEncode (.staAbs 0x1234) [] rfl, decodeOfEncode .tax [] rfl,
    decodeOfEncode .pha [] rfl, decodeOfEncode (.adcIndX 0x80) [] rfl, decodeOfEncode (.sbcIndY 0x80) [] rfl,
    decodeOfEncode (.rorAbsX 0xFFF0) [] rfl, decodeOfEncode (.bitZp 0x80) [] rfl,
    decodeOfEncode (.jmpInd 0x30FF) [] rfl, decodeOfEncode (.beq 0x85) [] rfl, decodeOfEncode .brk [0xEA] rfl,
    decodeOfEncode .sed [] rfl, decodeOfEncode (.unimplemented 0x02) [0x00] rfl⟩

end Sys2Proof
end

section
/-!
PROOFS. 40_pipeline.md: a step runs what fetch reads and what the bytes at pc decode to; when a step is refused; the
pipeline with any tables; the address arithmetic; indexed sums that are refused; every instruction completes.
-/

namespace Sys2Proof.Machine

/-! ### Every instruction completes (R130, R261, R263, R310, R311) -/

/-- With every address routed and sums that wrap, the one fault of an access is that of the counter (R261, R263). -/
theorem Recorded.eq_overflow {c : Config} {f : Fault} (h : Recorded c f) (hr : Routable c)
    (hw : c.absIndexOverflow = .wrap16) :
    ∃ t, f = .cycleCounterOverflow t ∧ t.cycles.toNat = 2 ^ 64 - 1 := by
  obtain ⟨d, -, hrange, hcount⟩ := h.record
  cases f with
  | unimplementedOpcode t => exact absurd rfl h.kind
  | outOfRange t =>
    obtain ⟨n, -, ⟨a, -, ha⟩ | ⟨-, -, hs⟩⟩ := hrange rfl
    · exact absurd ha (hr a)
    · rw [hw] at hs; cases hs
  | cycleCounterOverflow t => exact ⟨t, rfl, (hcount rfl).2⟩

/-- Settles O37: a completed instruction has counted its accesses, so it needs the room; the only fault left is that of
the counter, which has counted fewer and stands at its last value, so it needs the want of room. -/
theorem everyInstructionCompletes : Obligations.EveryInstructionCompletes := by
  intro i e s he hr hw
  have hends := exec_ends he s
  cases ho : exec i s with
  | refused r => exact absurd ho (hends.refused r)
  | next t =>
    have hcycles := hends.cycles t ho
    have hlt := t.cycles.isLt
    exact ⟨fun _ => ⟨t, rfl⟩, fun hroom => by omega⟩
  | fault f =>
    obtain ⟨hfewer, hrec, -⟩ := hends.fault f ho
    obtain ⟨t, rfl, ht⟩ := hrec.eq_overflow hr hw
    rw [Fault.after, ht] at hfewer
    exact ⟨fun hroom => by omega, fun _ => ⟨t, rfl⟩⟩

/-! ### A step runs the instruction fetch reads (R81, R100, R117, R118, R130) -/

theorem step_of_fetch {s u : State} {i : Instr} (hr : s.resetDone = true) (hf : s.fault = none)
    (h : fetchInstr s = .next (i, u)) : step s = exec i u := by
  rw [step, whenEnabled_eq hr hf, h, andThen_next]

/-- Settles O6: fetch's reads count one cycle for each byte and leave the CPU alone. -/
theorem stepRunsFetchedInstruction : Obligations.StepRunsFetchedInstruction := by
  intro s u i hr hf h
  obtain ⟨_, _, _, _, -, -, hread, hwf, -⟩ := fetchInstr_eq_next h
  exact ⟨step_of_fetch hr hf h, hwf, hread.cpu.regs, hread.cpu.pc, hread.cpu.cfg, hread.cycles⟩

theorem encode_instrOf_length (op b1 b2 : Byte) : (encode (instrOf op b1 b2)).length = 1 + operandBytesOf op := by
  have hle := operandBytesOf_le op
  rw [(instrOf_wellFormed_encode op b1 b2).2, List.length_cons, List.length_take, List.length_cons,
    List.length_singleton]
  omega

/-- On a quiet machine fetch answers the instruction that the bytes at pc decode to. -/
theorem Quiet.fetchInstr_of_decode {s : State} {i : Instr} {rest : List Byte}
    (hd : decode [s.peek s.pc, s.peek (s.pc + 1), s.peek (s.pc + 2)] = .ok (i, rest))
    (h : Quiet (encode i).length s) : Machine.fetchInstr s = .next (i, s.addCycles (encode i).length) := by
  obtain rfl := decode3 hd
  rw [encode_instrOf_length] at h ⊢
  exact h.fetchInstr

/-- Settles O5: on a quiet machine the reads of fetch answer the bytes that decode is given. -/
theorem stepRunsDecodedInstruction : Obligations.StepRunsDecodedInstruction := by
  intro s i rest hr hf hd hq
  exact step_of_fetch hr hf (hq.fetchInstr_of_decode hd)

/-! ### When a step is refused (R24, R26, R101, R130) -/

theorem step_of_notReset {s : State} (h : s.resetDone = false) : step s = .refused .notReset := by
  rw [step, whenEnabled, h]

/-- An enabled step is not refused: its opcode read faults, or its byte is UNIMPLEMENTED and faults, or its row is
documented and gives its operation the operand it reads. -/
theorem step_ne_refused {s : State} (hr : s.resetDone = true) (hf : s.fault = none) (r : Refusal) :
    step s ≠ .refused r := by
  cases hop : memRead s.pc s with
  | refused q => exact ((memRead_ne_refused _ _ q).1 hop).elim
  | fault f => rw [step_of_opcode_fault hr hf hop]; nofun
  | next x =>
    obtain ⟨op, u⟩ := x
    cases hm : metadata op with
    | none => rw [step_of_unimplemented hr hf hop hm]; nofun
    | some e => exact (step_ends hr hf hop hm).refused r

/-- Settles O7: the two refusals are those of a step that is not enabled, and an enabled one is not refused. -/
theorem stepRefusedOnlyWhenDisabled : Obligations.StepRefusedOnlyWhenDisabled :=
  fun _ => ⟨step_of_notReset, step_of_faultSet, step_ne_refused⟩

/-! ### The pipeline with any tables (R84, R100, R115, R118 to R121) -/

/-- An entry reads no more operand bytes than its mode has. -/
theorem runEntry_operands {m : Mode} {b1 b2 c1 c2 : Byte} (h1 : 1 ≤ m.operandBytes → c1 = b1)
    (h2 : 2 ≤ m.operandBytes → c2 = b2) (n : Nat) (op : Operation) (s : State) :
    runEntry m n c1 c2 op s = runEntry m n b1 b2 op s := by
  rw [runEntry, resolveMode_operands h1 h2, runEntry]

/-- Fetch reads the opcode, the operand bytes, and what the mode resolves from them (R118). -/
theorem fetchAccesses_eq (m : Mode) : fetchAccesses m = 1 + (m.operandBytes + resolveReads m) := by
  cases m <;> rfl

/-- On a quiet machine the operand bytes an entry is given are those after the opcode (R81, R118). -/
theorem Quiet.readOperands_runEntry {m : Mode} {s : State} (h : Quiet (m.operandBytes + resolveReads m) s) (n : Nat)
    (op : Operation) (hf : indexFaults m (s.peek (s.pc + 1)) (s.peek (s.pc + 2)) s = false) :
    andThen (Machine.readOperands m.operandBytes s) (fun x => Machine.runEntry m n x.1.1 x.1.2 op x.2) =
      op { operand := operandField m (s.peek (s.pc + 1)) (s.peek (s.pc + 2)) s
           address := effectiveAddress m (s.peek (s.pc + 1)) (s.peek (s.pc + 2)) s
           mode := m, size := n }
        ((s.addCycles (m.operandBytes + resolveReads m)).advance n) := by
  have hle : m.operandBytes ≤ 2 := by rcases mode_operandBytes m with h | h | h <;> omega
  have hrest : Quiet (resolveReads m) (s.addCycles m.operandBytes) := (h.addCycles (by omega)).mono (by omega)
  rw [Quiet.readOperands hle (h.mono (by omega)), andThen_next,
    runEntry_operands (fun h1 => if_pos h1) (fun h2 => if_pos h2), hrest.runEntry op hf, State.addCycles_add]
  rfl

/-- A step with any tables, by parts: the opcode read, then the entry of its byte, or the fault of a byte that has
none. -/
theorem stepWith_eq {table : Byte → Option Entry} {ops : Byte → Operation} {s u : State} {op : Byte}
    (hr : s.resetDone = true) (hf : s.fault = none) (h : memRead s.pc s = .next (op, u)) :
    (∀ e, table op = some e → stepWith table ops s =
      andThen (readOperands e.mode.operandBytes u) fun x => runEntry e.mode e.size x.1.1 x.1.2 (ops op) x.2) ∧
    (table op = none → stepWith table ops s = raise .unimplementedOpcode (.opcode op) u) := by
  rw [stepWith, whenEnabled_eq hr hf, h, andThen_next]
  dsimp only
  cases table op with
  | none => exact ⟨nofun, fun _ => rfl⟩
  | some e => exact ⟨by rintro _ ⟨⟩; rfl, nofun⟩

/-- Settles O9: the opcode read leaves the machine quiet for the rest of fetch, which then gives the operation the
parameters of the mode table; a byte that has no entry faults there. -/
theorem pipelineWithAnyTables : Obligations.PipelineWithAnyTables := by
  intro table ops s hr hf
  refine ⟨fun e he hq hidx => ?_, fun he hq => ?_⟩
  · rw [fetchAccesses_eq] at hq ⊢
    have hrest : Quiet (e.mode.operandBytes + resolveReads e.mode) (s.addCycles 1) :=
      (hq.addCycles (by omega)).mono (by omega)
    rw [(stepWith_eq hr hf (hq.memRead (by omega) s.pc)).1 e he, hrest.readOperands_runEntry e.size _ hidx,
      State.addCycles_add]
    rfl
  · rw [(stepWith_eq hr hf (hq.memRead (by omega) s.pc)).2 he]
    rfl

/-! ### Addresses in numbers (R53, R104 to R109, R112 to R114, R160) -/

theorem toNat_wordOf (hi lo : Byte) : (wordOf hi lo).toNat = 256 * hi.toNat + lo.toNat := by
  rw [wordOf_eq_ofNat, BitVec.toNat_ofNat, Nat.mod_eq_of_lt]
  have := hi.isLt
  have := lo.isLt
  omega

theorem toNat_add_byte (base : Word) (x : Byte) : (base + x.setWidth 16).toNat = (base.toNat + x.toNat) % 65536 := by
  rw [BitVec.toNat_add, BitVec.toNat_setWidth_of_le (by decide)]

theorem toNat_byte (b : Byte) : (b.setWidth 16 : Word).toNat = b.toNat := BitVec.toNat_setWidth_of_le (by decide)

/-- Adding a sign-extended byte adds its signed value (R6, R114). -/
theorem toNat_add_signExtend (w : Word) (b : Byte) :
    ((w + signExtend b).toNat : Int) = ((w.toNat : Int) + b.toInt) % 65536 := by
  have := b.isLt
  rw [signExtend, BitVec.toInt_eq_toNat_cond]
  split
  · rw [toNat_add_byte, if_pos (by omega)]
    omega
  · rw [← BitVec.add_assoc, BitVec.toNat_add, toNat_add_byte, if_neg (by omega),
      show (0xFF00 : Word).toNat = 65280 from rfl]
    omega

theorem toNat_highByte (w : Word) : (highByte w).toNat = w.toNat / 256 := by
  have := w.isLt
  rw [highByte, BitVec.toNat_setWidth, BitVec.toNat_ushiftRight, Nat.shiftRight_eq_div_pow]
  omega

theorem toNat_lowByte (w : Word) : (lowByte w).toNat = w.toNat % 256 := BitVec.toNat_setWidth ..

/-- Under INDIRECT_PAGE_BUG the high byte of the pointer's address stays and the low one moves on (R108). -/
theorem pageBug_eq_wordOf (p : Word) :
    (p &&& 0xFF00) ||| ((p + 1) &&& 0x00FF) = wordOf (highByte p) (lowByte (p + 1)) := by
  apply BitVec.eq_of_getLsbD_eq
  intro i hi
  simp only [wordOf, highByte, lowByte, BitVec.getLsbD_or, BitVec.getLsbD_and, BitVec.getLsbD_append,
    BitVec.getLsbD_setWidth, BitVec.getLsbD_ushiftRight]
  interval_cases i <;> simp

theorem toNat_indirectHigh (c : Config) (p : Word) :
    (c.indirectPageBug = false → (indirectHigh c p).toNat = (p.toNat + 1) % 65536) ∧
    (c.indirectPageBug = true → (indirectHigh c p).toNat = 256 * (p.toNat / 256) + (p.toNat + 1) % 256) := by
  refine ⟨fun h => ?_, fun h => ?_⟩
  · rw [indirectHigh, h, if_neg (by decide), BitVec.toNat_add]
    rfl
  · have hp : (p + 1).toNat = (p.toNat + 1) % 65536 := BitVec.toNat_add p 1
    rw [indirectHigh, if_pos h, pageBug_eq_wordOf, toNat_wordOf, toNat_highByte, toNat_lowByte, hp]
    omega

theorem toNat_byte_add_one (b : Byte) : ((b + 1).setWidth 16 : Word).toNat = (b.toNat + 1) % 256 := by
  rw [toNat_byte, BitVec.toNat_add]
  rfl

/-- The zero-page sum of each ZP_INDEX_MODE: of two bytes, or of a byte and a signed byte (R112, R113). -/
theorem toNat_zpIndexed (c : Config) (b x : Byte) :
    (c.zpIndexMode = .wrap8 → (zpIndexed c b x).toNat = (b.toNat + x.toNat) % 256) ∧
    (c.zpIndexMode = .signedSource → ((zpIndexed c b x).toNat : Int) = ((b.toNat : Int) + x.toInt) % 65536) := by
  refine ⟨fun h => ?_, fun h => ?_⟩
  · rw [zpIndexed, h]
    exact (toNat_byte (b + x)).trans (BitVec.toNat_add b x)
  · rw [zpIndexed, h]
    exact (toNat_add_signExtend (b.setWidth 16) x).trans (by rw [toNat_byte])

/-- With ZP_POINTER_WRAP the addresses of a pointer stay in the zero page (R107, R109). -/
theorem toNat_pointers_wrap {c : Config} (h : c.zpPointerWrap = true) (b x : Byte) :
    (indexedPointer c b x).1.toNat = (b.toNat + x.toNat) % 256 ∧
    (indexedPointer c b x).2.toNat = (b.toNat + x.toNat + 1) % 256 ∧
    (zpPointer c b).1.toNat = b.toNat ∧ (zpPointer c b).2.toNat = (b.toNat + 1) % 256 := by
  have hsum : (b + x).toNat = (b.toNat + x.toNat) % 256 := BitVec.toNat_add b x
  rw [indexedPointer, zpPointer, if_pos h, if_pos h]
  exact ⟨by rw [toNat_byte, hsum], by rw [toNat_byte_add_one, hsum]; omega, toNat_byte b, toNat_byte_add_one b⟩

/-- Without it they run on past the zero page (R107, R109). -/
theorem toNat_pointers_noWrap {c : Config} (h : c.zpPointerWrap = false) (b x : Byte) :
    (indexedPointer c b x).1.toNat = b.toNat + x.toNat ∧
    (indexedPointer c b x).2.toNat = b.toNat + x.toNat + 1 ∧
    (zpPointer c b).1.toNat = b.toNat ∧ (zpPointer c b).2.toNat = b.toNat + 1 := by
  have hb := b.isLt
  have hx := x.isLt
  have hone : ∀ w : Word, (w + 1).toNat = (w.toNat + 1) % 65536 := fun w => BitVec.toNat_add w 1
  rw [indexedPointer, zpPointer, if_neg (by simp [h]), if_neg (by simp [h])]
  refine ⟨?_, ?_, toNat_byte b, ?_⟩
  · rw [toNat_add_byte, toNat_byte]; omega
  · rw [hone, toNat_add_byte, toNat_byte]; omega
  · rw [hone, toNat_byte]; omega

/-- The target of a branch is counted from the instruction after it (R114). -/
theorem toNat_branchTarget (pc : Word) (off : Byte) :
    ((pc + 2 + signExtend off).toNat : Int) = ((pc.toNat : Int) + 2 + off.toInt) % 65536 := by
  have h2 : (pc + 2).toNat = (pc.toNat + 2) % 65536 := BitVec.toNat_add pc 2
  rw [toNat_add_signExtend, h2]
  omega

theorem toNat_stackAddress (sp : Byte) : (stackAddress sp).toNat = 256 + sp.toNat := by
  have := sp.isLt
  rw [stackAddress, toNat_add_byte, show (0x0100 : Word).toNat = 256 from rfl]
  omega

/-- Settles O10: the sums of each mode, one lemma for each. -/
theorem addressArithmetic : Obligations.AddressArithmetic :=
  ⟨toNat_wordOf, toNat_add_byte,
    fun c b x => ⟨(toNat_zpIndexed c b x).1, (toNat_zpIndexed c b x).2, fun h => toNat_pointers_wrap h b x,
      fun h => toNat_pointers_noWrap h b x⟩,
    toNat_indirectHigh, toNat_branchTarget, toNat_stackAddress⟩

/-! ### Indexed sums above 0xFFFF (R104, R105, R109, R261, R264) -/

/-- An indexed sum that ABS_INDEX_OVERFLOW = fault refuses: the fault of its unwrapped sum, and no access (R104). -/
theorem indexedSum_of_overflow {base : Word} {x : Byte} {s : State} (hc : s.cfg.absIndexOverflow = .fault)
    (h : base.toNat + x.toNat > 0xFFFF) :
    indexedSum base x s = .fault (.outOfRange (s.withFault .outOfRange (.address (base.toNat + x.toNat)))) := by
  have hs : sumFaults s.cfg base x = true := by rw [sumFaults, decide_eq_true h, decide_eq_true hc]; rfl
  rw [indexedSum, if_pos hs]
  rfl

/-- Fetch of a mode whose indexed sum is refused ends there, after the pointer's reads if the mode has a pointer. -/
theorem resolveMode_of_overflow {m : Mode} {r : Reg} {b1 b2 : Byte} {s : State}
    (hm : (m, r) ∈ [(.absoluteX, .indX), (.absoluteY, .indY), (.indirectIndexed, .indY)])
    (hc : s.cfg.absIndexOverflow = .fault) (h : (indexBase m b1 b2 s).toNat + (s.reg r).toNat > 0xFFFF)
    (hq : m = .indirectIndexed → Quiet 2 s) :
    resolveMode m b1 b2 s = .fault (.outOfRange ((s.addCycles (if m = .indirectIndexed then 2 else 0)).withFault
      .outOfRange (.address ((indexBase m b1 b2 s).toNat + (s.reg r).toNat)))) := by
  simp only [List.mem_cons, Prod.mk.injEq, List.not_mem_nil, or_false] at hm
  obtain ⟨rfl, rfl⟩ | ⟨rfl, rfl⟩ | ⟨rfl, rfl⟩ := hm
  · rw [if_neg (by decide), State.addCycles_zero]
    exact congrArg addressOnly (indexedSum_of_overflow hc h)
  · rw [if_neg (by decide), State.addCycles_zero]
    exact congrArg addressOnly (indexedSum_of_overflow hc h)
  · rw [resolveMode, (hq rfl).readWord (by omega), andThen_next]
    exact congrArg (andThen · fun x : Word × State => preRead x.1 x.2)
      (indexedSum_of_overflow (s := s.addCycles 2) hc h)

/-- Settles O11: the rest of fetch faults, so the operation does not start. -/
theorem indexedSumAboveTopFaults : Obligations.IndexedSumAboveTopFaults := by
  intro i e r s he hm hc base pointerReads hsum hq
  rw [exec_eq_runEntry he, runEntry, resolveMode_of_overflow hm hc hsum hq]
  rfl

end Sys2Proof.Machine
end

section
/-!
PROOFS. 41_load_store.md: the whole next state of the loads (R140 to R142) and of the stores (R143 to R145) on a quiet
machine.
-/

namespace Sys2Proof.Machine

/-- LDA, LDX and LDY load their register (R140 to R142). -/
theorem operation_loadReg {n : Mnemonic} {r : Reg} (h : (n, r) ∈ [(.lda, .accum), (.ldx, .indX), (.ldy, .indY)]) :
    operation n = loadReg r := by
  simp only [List.mem_cons, Prod.mk.injEq, List.not_mem_nil, or_false] at h
  obtain ⟨rfl, rfl⟩ | ⟨rfl, rfl⟩ | ⟨rfl, rfl⟩ := h <;> rfl

/-- The names of the loads are the first three of those that LOAD their data byte (R122). -/
theorem mem_loadNames_of_loadReg {n : Mnemonic} {r : Reg}
    (h : (n, r) ∈ [(.lda, .accum), (.ldx, .indX), (.ldy, .indY)]) : n ∈ loadNames :=
  List.mem_of_mem_take (i := 3) (List.mem_map_of_mem (f := Prod.fst) h)

/-- Settles O13: fetch and LOAD give the data byte with every access counted, and the operation writes it. -/
theorem loadsWriteRegisterAndNZ : Obligations.LoadsWriteRegisterAndNZ := by
  intro i e r s he hn hq hf
  have hload := hq.load_op he (mem_loadNames_of_loadReg hn) hf
  rw [(hq.exec_op he hf).1, operation_loadReg hn, loadReg, hload, andThen_next]

/-- Settles O14: the operation is STORE of a register that fetch and the pre-advance keep. -/
theorem storesWriteTheEffectiveAddress : Obligations.StoresWriteTheEffectiveAddress := by
  intro i e r s he hn hq hf
  have hone : operationAccesses e.name e.mode = 1 := entry_store he (List.mem_map_of_mem (f := Prod.fst) hn)
  calc exec i s = operation e.name (opParams i e s) (opStart e s) := (hq.exec_op he hf).1
    _ = store (opParams i e s) (s.reg r) (opStart e s) := operation_store hn _ _
    _ = .next ((s.setCell (resolve s.cfg (addressOf i e.mode s)) (s.reg r)).passed e) := hq.store_op he hone hf _

end Sys2Proof.Machine
end

section
/-!
PROOFS. 42_transfer_stack.md: `push` and `pull` (R160, R161), the transfers (R162 to R167), and the whole next state of
PHA and PHP (R168, R169) and of PLA and PLP (R170, R171) on a quiet machine.
-/

namespace Sys2Proof.Machine

/-! ### The stack primitives (R160, R161) -/

/-- A counted access that faults writes the fault record and no register (R264, R266). -/
theorem access_fault_regs {a : Word} {s : State} {f : Fault}
    (h : (route s.cfg a = .outOfRange ∧ f = .outOfRange (s.withFault .outOfRange (.address a.toNat))) ∨
      (s.cycles = lastCycle ∧ f = .cycleCounterOverflow (s.withFault .cycleCounterOverflow .none))) :
    f.after.regs = s.regs := by
  obtain ⟨-, rfl⟩ | ⟨-, rfl⟩ := h <;> rfl

/-- The write of `push` keeps SP, so the value moved down is the one it started from (R160). -/
theorem push_of_next {v : Byte} {s t : State} (h : memWrite (stackAddress (s.reg .stack)) v s = .next t) :
    push v s = .next (t.setReg .stack (s.reg .stack - 1)) := by
  rw [push, h, andThen_next, (memWrite_accessed h).cpu.reg]

theorem push_of_fault {v : Byte} {s : State} {f : Fault} (h : memWrite (stackAddress (s.reg .stack)) v s = .fault f) :
    push v s = .fault f := by
  rw [push, h, andThen_fault]

/-- `pull` reads at the SP it has moved up (R161). -/
theorem pull_eq_memRead (s : State) :
    pull s = memRead (stackAddress (s.reg .stack + 1)) (s.setReg .stack (s.reg .stack + 1)) := rfl

/-- Settles O17: `push` writes at the SP it starts from and `pull` reads at the SP it leaves, and neither access writes
a register when it faults. -/
theorem pushAndPullMoveTheStack : Obligations.PushAndPullMoveTheStack := by
  refine ⟨fun sp => ⟨toNat_stackAddress sp, ?_, BitVec.toNat_add sp 1⟩,
    fun v s => ⟨fun t h => push_of_next h, fun f h => ⟨push_of_fault h, ?_⟩⟩,
    fun s => ⟨pull_eq_memRead s, fun f h => ?_⟩⟩
  · exact (BitVec.toNat_sub sp 1).trans (congrArg (· % 256) (Nat.add_comm 255 _))
  · rw [State.reg, access_fault_regs (memWrite_eq_fault h), State.reg]
  · rw [State.reg, access_fault_regs (memRead_eq_fault h), ← State.reg, State.setReg_reg, if_pos rfl]

/-! ### One-byte instructions -/

/-- A one-byte instruction of the Implied mode reads nothing after its opcode: its operation runs with pc past it (R110,
R120). -/
theorem exec_implied {i : Instr} {n : Mnemonic} (h : i.entry = some ⟨n, .implied, 1⟩) (s : State) :
    exec i s = operation n { operand := none, address := s.pc, mode := .implied, size := 1 } (s.setPc (s.pc + 1)) :=
  exec_eq_runEntry h s

/-! ### The transfers (R162 to R167) -/

/-- A row whose operation is `transfer` copies the register, sets N and Z from it, and completes on any machine. -/
theorem exec_transfer {i : Instr} {n : Mnemonic} {src dst : Reg} (h : i.entry = some ⟨n, .implied, 1⟩)
    (hop : operation n = transfer src dst) (s : State) :
    exec i s = .next (((s.setPc (s.pc + 1)).setReg dst (s.reg src)).setNZ (s.reg src)) := by
  rw [exec_implied h, hop, transfer, State.setPc_reg]

/-- Settles O16: five rows are `transfer` of two registers, and TXS alone writes SP without flags. -/
theorem transfersCopyRegisters : Obligations.TransfersCopyRegisters := by
  refine ⟨rfl, rfl, rfl, rfl, rfl, rfl, ?_, fun s => ⟨?tax, ?tay, ?txa, ?tya, ?tsx, ?txs⟩⟩
  · simp only [List.forall_mem_cons, List.not_mem_nil, false_imp_iff, implies_true, and_true]
    exact ⟨⟨.tax, rfl, rfl⟩, ⟨.tay, rfl, rfl⟩, ⟨.txa, rfl, rfl⟩, ⟨.tya, rfl, rfl⟩, ⟨.tsx, rfl, rfl⟩, ⟨.txs, rfl, rfl⟩⟩
  case tax => exact exec_transfer (n := .tax) rfl rfl s
  case tay => exact exec_transfer (n := .tay) rfl rfl s
  case txa => exact exec_transfer (n := .txa) rfl rfl s
  case tya => exact exec_transfer (n := .tya) rfl rfl s
  case tsx => exact exec_transfer (n := .tsx) rfl rfl s
  case txs => exact exec_implied (n := .txs) rfl s

/-! ### Pushes and pulls (R168 to R171) -/

/-- PHA pushes A and PHP pushes P with bits 4 and 5 set (R168, R169). -/
theorem exec_push {i : Instr} {v : Byte} {s : State}
    (h : (i = .pha ∧ v = s.reg .accum) ∨ (i = .php ∧ v = s.reg .status ||| 0x30)) :
    exec i s = push v (s.setPc (s.pc + 1)) := by
  obtain ⟨rfl, rfl⟩ | ⟨rfl, rfl⟩ := h
  · exact exec_implied (n := .pha) rfl s
  · exact exec_implied (n := .php) rfl s

/-- Settles O18: both are one push, which on a quiet machine stores the byte and moves SP down. -/
theorem pushesStoreAtTheStack : Obligations.PushesStoreAtTheStack := by
  intro i v s h hq
  rw [exec_push h, (hq.setPc (s.pc + 1)).push le_rfl v]
  rfl

/-- Settles O19: each pulls one byte; PLA writes it to A, and PLP merges it with the STATUS that the pull has kept. -/
theorem pullsLoadFromTheStack : Obligations.PullsLoadFromTheStack := by
  intro s hq v t
  have hpull : pull (s.setPc (s.pc + 1)) = .next (v, t) := (hq.setPc (s.pc + 1)).pull le_rfl
  have hstatus : t.reg .status = s.reg .status := State.setReg_reg _ .stack .status _
  refine ⟨?_, ?_⟩
  · calc exec .pla s = andThen (pull (s.setPc (s.pc + 1))) fun x => .next ((x.2.setReg .accum x.1).setNZ x.1) :=
          exec_implied (n := .pla) rfl s
      _ = .next ((t.setReg .accum v).setNZ v) := by rw [hpull, andThen_next]
  · calc exec .plp s = andThen (pull (s.setPc (s.pc + 1))) fun x =>
            .next (x.2.setReg .status (pulledStatus x.1 (x.2.reg .status))) := exec_implied (n := .plp) rfl s
      _ = .next (t.setReg .status (pulledStatus v (s.reg .status))) := by rw [hpull, andThen_next, hstatus]

end Sys2Proof.Machine
end

section
/-!
PROOFS. 43_arithmetic.md on a quiet machine: the whole next state of ADC and SBC (R180, R181), of the compares (R182 to
R184) and of INC and DEC (R185, R186); on any machine that of INX, INY, DEX and DEY (R187 to R190).
-/

namespace Sys2Proof.Machine

/-- Counting accesses and moving pc keep every register. -/
theorem State.passed_reg (s : State) (e : Entry) (q : Reg) : (s.passed e).reg q = s.reg q := by
  rw [State.passed, State.setPc_reg, State.addCycles_reg]

/-- A row that takes one data byte on a quiet machine goes on with the byte once its accesses are counted and pc is past
it (R120, R122). -/
theorem Quiet.exec_load {i : Instr} {e : Entry} {s : State} {k : Byte × State → Host.Outcome State Fault Refusal}
    (he : i.entry = some e) (hn : e.name ∈ loadNames) (hq : Quiet (execAccesses e) s)
    (hf : indexFaults e.mode i.byte1 i.byte2 s = false)
    (hop : ∀ p t, operation e.name p t = andThen (Machine.load p t) k) :
    Machine.exec i s = k (dataOf i e.mode s, s.passed e) := by
  rw [(hq.exec_op he hf).1, hop, hq.load_op he hn hf, andThen_next]

/-! ### ADC and SBC (R180, R181) -/

/-- The result of ADC or SBC is of A, STATUS, the configuration and the draw counter, which the accesses keep. -/
theorem alu_passed (s : State) (e : Entry) (op : DecimalOp) (m : Byte) : (s.passed e).alu op m = s.alu op m := rfl

theorem decimalOpen_passed (s : State) (e : Entry) (m : Byte) : (s.passed e).decimalOpen m = s.decimalOpen m := rfl

/-- The host oracle is asked when D = 1, DECIMAL_RESULT is host oracle and an operand is not valid BCD (R5). -/
theorem decimalOpen_iff (s : State) (m : Byte) :
    s.decimalOpen m = true ↔ s.flag .d = true ∧ s.cfg.decimalResult = .hostOracle ∧
      ¬ (validBcd (s.reg .accum) = true ∧ validBcd m = true) := by
  rw [State.decimalOpen, Bool.and_eq_true, Bool.and_eq_true, decide_eq_true_iff, Bool.not_eq_true', ← Bool.not_eq_true,
    Bool.and_eq_true, and_assoc]

theorem operation_addSubtract {n : Mnemonic} {op : DecimalOp} (h : (n, op) ∈ [(.adc, .adc), (.sbc, .sbc)]) :
    operation n = addSubtract op ∧ n ∈ loadNames := by
  simp only [List.mem_cons, Prod.mk.injEq, List.not_mem_nil, or_false] at h
  obtain ⟨rfl, rfl⟩ | ⟨rfl, rfl⟩ := h
  · exact ⟨rfl, by decide⟩
  · exact ⟨rfl, by decide⟩

/-- ADC and SBC on a quiet machine, whichever way the result is found. -/
theorem Quiet.exec_addSubtract {i : Instr} {e : Entry} {op : DecimalOp} {s : State} (he : i.entry = some e)
    (hn : (e.name, op) ∈ [(.adc, .adc), (.sbc, .sbc)]) (hq : Quiet (execAccesses e) s)
    (hf : indexFaults e.mode i.byte1 i.byte2 s = false) :
    Machine.exec i s = .next (((s.passed e).writeAlu (s.alu op (dataOf i e.mode s))).countDraw
      (s.decimalOpen (dataOf i e.mode s))) := by
  obtain ⟨hop, hname⟩ := operation_addSubtract hn
  rw [← alu_passed s e, ← decimalOpen_passed s e]
  exact hq.exec_load he hname hf fun p t => congrFun (congrFun hop p) t

/-- Settles O20: both rows are `addSubtract`, which asks the oracle only where the third clause says so. -/
theorem addSubtractWriteAccumulator : Obligations.AddSubtractWriteAccumulator := by
  intro i e op s he hn hq hf a m c
  have hexec := hq.exec_addSubtract he hn hf
  refine ⟨fun hd => ?binary, fun hd hclosed => ?algorithm, fun hd horacle hbcd => ?oracle⟩
  case binary =>
    have hopen : s.decimalOpen m = false := by simp [State.decimalOpen, hd]
    rw [hexec, State.alu, hopen, hd]
    rfl
  case algorithm =>
    have hopen : s.decimalOpen m = false := by
      rw [← Bool.not_eq_true, decimalOpen_iff]
      rintro ⟨-, horacle, hbcd⟩
      obtain hnmos | hvalid := hclosed
      · exact absurd (hnmos.symm.trans horacle) (by decide)
      · exact hbcd hvalid
    rw [hexec, State.alu, hopen, hd]
    rfl
  case oracle =>
    have hopen : s.decimalOpen m = true := (decimalOpen_iff s m).2 ⟨hd, horacle, hbcd⟩
    refine ⟨s.alu op m, ?_⟩
    rw [hexec, hopen]
    rfl

/-! ### Compares (R182 to R184) -/

theorem operation_compareReg {n : Mnemonic} {r : Reg} (h : (n, r) ∈ [(.cmp, .accum), (.cpx, .indX), (.cpy, .indY)]) :
    operation n = compareReg r ∧ n ∈ loadNames := by
  simp only [List.mem_cons, Prod.mk.injEq, List.not_mem_nil, or_false] at h
  obtain ⟨rfl, rfl⟩ | ⟨rfl, rfl⟩ | ⟨rfl, rfl⟩ := h
  · exact ⟨rfl, by decide⟩
  · exact ⟨rfl, by decide⟩
  · exact ⟨rfl, by decide⟩

/-- Settles O23: the three rows are `compareReg` of a register that the accesses keep. -/
theorem comparesWriteOnlyCZN : Obligations.ComparesWriteOnlyCZN := by
  intro i e r s he hn hq hf m
  obtain ⟨hop, hname⟩ := operation_compareReg hn
  have hexec : exec i s = .next ((s.passed e).setCompare ((s.passed e).reg r) m) :=
    hq.exec_load he hname hf fun p t => congrFun (congrFun hop p) t
  rw [hexec, State.passed_reg, State.setCompare]

/-! ### Increments and decrements (R185, R186) -/

theorem operation_rmwPlain {n : Mnemonic} {d : Byte} (h : (n, d) ∈ [(.inc, 1), (.dec, 0xFF)]) :
    operation n = rmwPlain (· + d) ∧ n ∈ [Mnemonic.inc, .dec] := by
  simp only [List.mem_cons, Prod.mk.injEq, List.not_mem_nil, or_false] at h
  obtain ⟨rfl, rfl⟩ | ⟨rfl, rfl⟩ := h
  · exact ⟨rfl, by decide⟩
  · exact ⟨congrArg rmwPlain (funext fun v => BitVec.sub_eq_add_neg v 1), by decide⟩

/-- Settles O24: the rows are RMW in a memory mode, and taking 1 away is adding 0xFF. -/
theorem incrementsStepTheCell : Obligations.IncrementsStepTheCell := by
  intro i e d s he hn hq hf r
  obtain ⟨hop, hname⟩ := operation_rmwPlain hn
  have hmem : e.mode ≠ .accumulator := entry_step_memory he hname
  have hrmw : e.name ∈ [Mnemonic.asl, .lsr, .rol, .ror, .inc, .dec] := List.mem_of_mem_drop (i := 4) hname
  obtain ⟨-, ⟨hacc, -⟩ | ⟨-, hcount⟩, -⟩ := entry_rmw he hrmw
  · exact absurd hacc hmem
  have hstep := hq.rmw_op he hrmw hmem hf (fun v s => (v + d, s)) (· + d) (fun _ _ _ => rfl)
    (fun _ _ => ⟨rfl, rfl, rfl⟩)
  rw [(hq.exec_op he hf).1, hop, rmwPlain, hstep, andThen_next, ← passed_rmw _ hcount]
  rfl

/-! ### INX, INY, DEX, DEY (R187 to R190) -/

/-- A row whose operation is `stepReg` changes its register by the function and sets N and Z, on any machine. -/
theorem exec_stepReg {i : Instr} {n : Mnemonic} {r : Reg} {f : Byte → Byte} (h : i.entry = some ⟨n, .implied, 1⟩)
    (hop : operation n = stepReg r f) (s : State) :
    exec i s = .next (((s.setPc (s.pc + 1)).setReg r (f (s.reg r))).setNZ (f (s.reg r))) := by
  rw [exec_implied h, hop, stepReg, State.setPc_reg]

/-- Settles O25: the four rows are `stepReg`, which makes no access. -/
theorem indexStepsWrapAndSetNZ : Obligations.IndexStepsWrapAndSetNZ := by
  refine ⟨rfl, rfl, rfl, rfl, ?_, fun s => ⟨?inx, ?iny, ?dex, ?dey⟩⟩
  · simp only [List.forall_mem_cons, List.not_mem_nil, false_imp_iff, implies_true, and_true]
    exact ⟨⟨.inx, rfl, rfl⟩, ⟨.iny, rfl, rfl⟩, ⟨.dex, rfl, rfl⟩, ⟨.dey, rfl, rfl⟩⟩
  case inx => exact exec_stepReg (n := .inx) (r := .indX) (f := (· + 1)) rfl rfl s
  case iny => exact exec_stepReg (n := .iny) (r := .indY) (f := (· + 1)) rfl rfl s
  case dex => exact exec_stepReg (n := .dex) (r := .indX) (f := (· - 1)) rfl rfl s
  case dey => exact exec_stepReg (n := .dey) (r := .indY) (f := (· - 1)) rfl rfl s

end Sys2Proof.Machine
end

section
/-!
PROOFS. 43_arithmetic.md in numbers: binary ADC and SBC of any bytes (R180, R181, R191) and decimal ADC and SBC of valid
BCD bytes (R180, R181).
-/

namespace Sys2Proof.Machine

/-! ### Bytes in numbers -/

theorem toNat_lowNibble (b : Byte) : (b &&& 0x0F).toNat = b.toNat % 16 := Nat.and_two_pow_sub_one_eq_mod b.toNat 4

theorem toNat_shiftHigh (b : Byte) : (b >>> 4).toNat = b.toNat / 16 := Nat.shiftRight_eq_div_pow b.toNat 4

theorem toNat_highNibble (b : Byte) : (b &&& 0xF0).toNat = 16 * (b.toNat / 16) := by
  have hshift : b &&& (0xF0 : Byte) = b >>> 4 <<< 4 := (BitVec.shiftLeft_ushiftRight (x := b) (n := 4)).symm
  have := b.isLt
  rw [hshift, BitVec.toNat_shiftLeft, toNat_shiftHigh, Nat.shiftLeft_eq]
  omega

/-- Masking a byte by 0x80 tests its bit 7. -/
theorem and_signBit_ne_zero (b : Byte) : b &&& 0x80 ≠ 0 ↔ b.getLsbD 7 = true := by
  rw [show (0x80 : Byte) = BitVec.twoPow 8 7 from rfl, BitVec.and_twoPow]
  cases b.getLsbD 7 <;> decide

theorem toInt_byte (b : Byte) : b.toInt = if b.toNat < 128 then (b.toNat : Int) else b.toNat - 256 := by
  rw [BitVec.toInt_eq_toNat_cond]
  split <;> split <;> omega

/-! ### Binary ADC and SBC (R180, R181, R191) -/

/-- V of ADC: the operands have one sign and the result has the other (R191). -/
theorem adcOverflow_iff (a m r : Byte) :
    ((~~~a ^^^ m) &&& (a ^^^ r) &&& 0x80) ≠ 0 ↔ a.getLsbD 7 = m.getLsbD 7 ∧ a.getLsbD 7 ≠ r.getLsbD 7 := by
  rw [and_signBit_ne_zero]
  simp only [BitVec.getLsbD_and, BitVec.getLsbD_xor, BitVec.getLsbD_not]
  cases a.getLsbD 7 <;> cases m.getLsbD 7 <;> cases r.getLsbD 7 <;> decide

/-- V of SBC: the operands differ in sign and the result has not the sign of A (R191). -/
theorem sbcOverflow_iff (a m r : Byte) :
    ((a ^^^ m) &&& (a ^^^ r) &&& 0x80) ≠ 0 ↔ a.getLsbD 7 ≠ m.getLsbD 7 ∧ a.getLsbD 7 ≠ r.getLsbD 7 := by
  rw [and_signBit_ne_zero]
  simp only [BitVec.getLsbD_and, BitVec.getLsbD_xor]
  cases a.getLsbD 7 <;> cases m.getLsbD 7 <;> cases r.getLsbD 7 <;> decide

theorem toNat_adcBinary (a m : Byte) (c : Bool) :
    (adcBinary a m c).value.toNat = (a.toNat + m.toNat + c.toNat) % 256 := BitVec.toNat_ofNat _ 8

theorem toNat_sbcBinary (a m : Byte) (c : Bool) :
    (sbcBinary a m c).value.toNat = (256 + a.toNat - m.toNat - (1 - c.toNat)) % 256 := by
  have := m.isLt
  have := c.toNat_le
  rw [sbcBinary, BitVec.toNat_ofInt, sbcDifference]
  omega

theorem adcBinary_v_iff (a m : Byte) (c : Bool) :
    (adcBinary a m c).v = true ↔ a.toInt + m.toInt + c.toNat < -128 ∨ 127 < a.toInt + m.toInt + c.toNat := by
  have := a.isLt
  have := m.isLt
  have := c.toNat_le
  calc (adcBinary a m c).v = true
      ↔ a.getLsbD 7 = m.getLsbD 7 ∧ a.getLsbD 7 ≠ (adcBinary a m c).value.getLsbD 7 :=
        decide_eq_true_iff.trans (adcOverflow_iff a m _)
    _ ↔ _ := by
        simp only [getLsbD_seven, toNat_adcBinary, ne_eq, decide_eq_decide, toInt_byte]
        split <;> split <;> omega

theorem sbcBinary_v_iff (a m : Byte) (c : Bool) :
    (sbcBinary a m c).v = true ↔
      a.toInt - m.toInt - (1 - c.toNat) < -128 ∨ 127 < a.toInt - m.toInt - (1 - c.toNat) := by
  have := a.isLt
  have := m.isLt
  have := c.toNat_le
  calc (sbcBinary a m c).v = true
      ↔ a.getLsbD 7 ≠ m.getLsbD 7 ∧ a.getLsbD 7 ≠ (sbcBinary a m c).value.getLsbD 7 :=
        decide_eq_true_iff.trans (sbcOverflow_iff a m _)
    _ ↔ _ := by
        simp only [getLsbD_seven, toNat_sbcBinary, ne_eq, decide_eq_decide, toInt_byte]
        split <;> split <;> omega

theorem sbcBinary_c_iff (a m : Byte) (c : Bool) : (sbcBinary a m c).c = true ↔ m.toNat + (1 - c.toNat) ≤ a.toNat := by
  have := c.toNat_le
  rw [sbcBinary, decide_eq_true_iff, sbcDifference]
  omega

/-- Settles O21: the results and C are the sums taken mod 256, and V compares the sign bits as R191 says. -/
theorem binaryArithmeticInNumbers : Obligations.BinaryArithmeticInNumbers := by
  intro a m c
  exact ⟨⟨toNat_adcBinary a m c, decide_eq_true_iff, adcBinary_v_iff a m c, rfl, rfl⟩,
    toNat_sbcBinary a m c, sbcBinary_c_iff a m c, sbcBinary_v_iff a m c, rfl, rfl⟩

/-! ### Decimal ADC and SBC (R180, R181) -/

theorem validBcd_iff (b : Byte) : validBcd b = true ↔ b.toNat % 16 ≤ 9 ∧ b.toNat / 16 ≤ 9 := by
  rw [validBcd, Bool.and_eq_true, decide_eq_true_iff, decide_eq_true_iff, toNat_lowNibble, toNat_shiftHigh]

/-- A byte of the last two decimal digits of a number is valid BCD and stands for it mod 100. -/
theorem bcd_of_digits {b : Byte} {n : Nat} (h : b.toNat = 16 * (n / 10 % 10) + n % 10) :
    validBcd b = true ∧ bcdValue b = n % 100 := by
  rw [validBcd_iff, bcdValue, h]
  omega

theorem signedHigh_highNibble (b : Byte) :
    signedHigh (b &&& 0xF0) =
      if b.toNat < 128 then 16 * ((b.toNat : Int) / 16) else 16 * ((b.toNat : Int) / 16) - 256 := by
  rw [signedHigh, toNat_highNibble]
  split <;> split <;> omega

/-- The sum of the low digits and the carry, moved on by 6 where it is no digit (R180). -/
def correctedLow (a m : Byte) (c : Bool) : Nat :=
  let low := a.toNat % 16 + m.toNat % 16 + c.toNat
  if low < 10 then low else low + 6

/-- The signed sum of the high digits with the low sum corrected: decimal ADC takes N and V from it (R180). -/
def correctedSum (a m : Byte) (c : Bool) : Int :=
  signedHigh (a &&& 0xF0) + signedHigh (m &&& 0xF0) + correctedLow a m c

/-- Z of decimal ADC is that of the binary sum (R180). -/
theorem adcDecimal_z (a m : Byte) (c : Bool) : (adcDecimal a m c).z = (adcBinary a m c).z :=
  decide_eq_decide.2 (by rw [← BitVec.toNat_inj, BitVec.toNat_ofNat]; rfl)

/-- A difference of two digits and a borrow is at least -10, so the model's correction moves a negative one by 6. -/
theorem sbcLow_eq {l k : Nat} (hl : l ≤ 9) (hk : k ≤ 9) (c : Bool) :
    (if (l : Int) - k + c.toNat - 1 < 0 then ((l : Int) - k + c.toNat - 1 - 0x06) % 16 - 0x10
      else (l : Int) - k + c.toNat - 1) =
    if l < k + (1 - c.toNat) then (l : Int) - k - (1 - c.toNat : Nat) - 6 else (l : Int) - k - (1 - c.toNat : Nat) := by
  have := c.toNat_le
  split <;> split <;> omega

section
variable {a m : Byte} (ha : validBcd a = true) (hm : validBcd m = true) (c : Bool)
include ha hm

/-- Two digits and a carry are at most 19, so the model's correction drops nothing. -/
theorem adcLow_eq_correctedLow :
    (if (a &&& 0x0F).toNat + (m &&& 0x0F).toNat + c.toNat ≥ 0x0A then
      ((a &&& 0x0F).toNat + (m &&& 0x0F).toNat + c.toNat + 0x06) % 16 + 0x10
    else (a &&& 0x0F).toNat + (m &&& 0x0F).toNat + c.toNat) = correctedLow a m c := by
  obtain ⟨hla, -⟩ := (validBcd_iff a).1 ha
  obtain ⟨hlm, -⟩ := (validBcd_iff m).1 hm
  have := c.toNat_le
  simp only [toNat_lowNibble, correctedLow]
  split <;> split <;> omega

theorem adcDecimal_v_iff :
    (adcDecimal a m c).v = true ↔ correctedSum a m c < -128 ∨ 127 < correctedSum a m c := by
  simp only [adcDecimal, adcLow_eq_correctedLow ha hm, correctedSum, decide_eq_true_iff, gt_iff_lt]

theorem adcDecimal_n_iff : (adcDecimal a m c).n = true ↔ 128 ≤ correctedSum a m c % 256 := by
  have hn : (adcDecimal a m c).n = (BitVec.ofInt 8 (correctedSum a m c)).getLsbD 7 := by
    simp only [adcDecimal, adcLow_eq_correctedLow ha hm, correctedSum]
  rw [hn, getLsbD_seven, decide_eq_true_iff, BitVec.toNat_ofInt]
  omega

theorem toNat_adcDecimal :
    let n := bcdValue a + bcdValue m + c.toNat
    (adcDecimal a m c).value.toNat = 16 * (n / 10 % 10) + n % 10 := by
  obtain ⟨hla, hha⟩ := (validBcd_iff a).1 ha
  obtain ⟨hlm, hhm⟩ := (validBcd_iff m).1 hm
  have := c.toNat_le
  simp only [adcDecimal, adcLow_eq_correctedLow ha hm, correctedLow, toNat_highNibble, bcdValue, BitVec.toNat_ofNat]
  split <;> split <;> omega

theorem adcDecimal_c_iff : (adcDecimal a m c).c = true ↔ 99 < bcdValue a + bcdValue m + c.toNat := by
  obtain ⟨hla, hha⟩ := (validBcd_iff a).1 ha
  obtain ⟨hlm, hhm⟩ := (validBcd_iff m).1 hm
  have := c.toNat_le
  simp only [adcDecimal, adcLow_eq_correctedLow ha hm, correctedLow, toNat_highNibble, bcdValue, decide_eq_true_iff]
  split <;> split <;> omega

theorem toNat_sbcDecimal :
    let n := 100 + bcdValue a - bcdValue m - (1 - c.toNat)
    (sbcDecimal a m c).value.toNat = 16 * (n / 10 % 10) + n % 10 := by
  obtain ⟨hla, hha⟩ := (validBcd_iff a).1 ha
  obtain ⟨hlm, hhm⟩ := (validBcd_iff m).1 hm
  have := c.toNat_le
  simp only [sbcDecimal, sbcDecimalValue, toNat_lowNibble, toNat_highNibble, bcdValue, BitVec.toNat_ofInt]
  generalize a.toNat % 16 = la, a.toNat / 16 = xa, m.toNat % 16 = lm, m.toNat / 16 = xm at *
  simp only [sbcLow_eq hla hlm c]
  split <;> split <;> omega

/-- Valid BCD bytes are in the order of the numbers they stand for, so C is that of the binary difference (R181). -/
theorem sbcDecimal_c_iff : (sbcDecimal a m c).c = true ↔ bcdValue m + (1 - c.toNat) ≤ bcdValue a := by
  obtain ⟨hla, -⟩ := (validBcd_iff a).1 ha
  obtain ⟨hlm, -⟩ := (validBcd_iff m).1 hm
  have := c.toNat_le
  rw [show (sbcDecimal a m c).c = (sbcBinary a m c).c from rfl, sbcBinary_c_iff, bcdValue, bcdValue]
  omega

end

/-- Settles O22: the results are the last two decimal digits of the sum and of the difference plus 100, and valid BCD
operands make the model's low-digit corrections exact. -/
theorem decimalArithmeticInNumbers : Obligations.DecimalArithmeticInNumbers := by
  intro a m c ha hm add sub low tens st
  have hst : correctedSum a m c = st := by
    simp only [correctedSum, signedHigh_highNibble]
    rfl
  obtain ⟨haddValid, haddValue⟩ := bcd_of_digits (toNat_adcDecimal ha hm c)
  obtain ⟨hsubValid, hsubValue⟩ := bcd_of_digits (toNat_sbcDecimal ha hm c)
  rw [← hst]
  exact ⟨⟨haddValid, haddValue, adcDecimal_c_iff ha hm c, adcDecimal_z a m c,
      adcDecimal_v_iff ha hm c, adcDecimal_n_iff ha hm c⟩,
    hsubValid, hsubValue, sbcDecimal_c_iff ha hm c, rfl, rfl, rfl⟩

end Sys2Proof.Machine
end

section
/-!
PROOFS. 44_logic_shift.md on a quiet machine: the whole next state of AND, ORA and EOR (R200 to R202), of BIT (R203), and
of the shifts and rotates in the Accumulator mode and in memory (R204 to R207, R210).
-/

namespace Sys2Proof.Machine

/-! ### AND, ORA, EOR (R200 to R202) -/

/-- The three rows are `logic` of their bitwise operation. -/
theorem operation_logic {n : Mnemonic} {a m r : Byte}
    (h : (n = .and ∧ r = a &&& m) ∨ (n = .ora ∧ r = a ||| m) ∨ (n = .eor ∧ r = a ^^^ m)) :
    ∃ f, operation n = logic f ∧ n ∈ loadNames ∧ r = f a m := by
  obtain ⟨rfl, hr⟩ | ⟨rfl, hr⟩ | ⟨rfl, hr⟩ := h
  · exact ⟨(· &&& ·), rfl, by decide, hr⟩
  · exact ⟨(· ||| ·), rfl, by decide, hr⟩
  · exact ⟨(· ^^^ ·), rfl, by decide, hr⟩

/-- Settles O26: each row LOADs its data byte and combines it with an A that the accesses keep. -/
theorem logicWritesAccumulator : Obligations.LogicWritesAccumulator := by
  intro i e s r he hq hf a m hrow
  obtain ⟨f, hop, hname, rfl⟩ := operation_logic hrow
  have hexec : exec i s = .next (((s.passed e).setReg .accum (f ((s.passed e).reg .accum) m)).setNZ
      (f ((s.passed e).reg .accum) m)) :=
    hq.exec_load he hname hf fun p t => congrFun (congrFun hop p) t
  rw [hexec, State.passed_reg]

/-! ### BIT (R203) -/

/-- Settles O27: BIT LOADs its data byte and tests it against an A that the accesses keep. -/
theorem bitTestWritesOnlyZNV : Obligations.BitTestWritesOnlyZNV := by
  intro i e s he hn hq hf m
  have hexec : exec i s = .next ((s.passed e).setBitTest m) :=
    hq.exec_load he (by rw [hn]; decide) hf fun p t => by rw [hn]; rfl
  rw [hexec, State.setBitTest, State.passed_reg]

/-! ### Shifts and rotates (R204 to R207, R210) -/

/-- With 0 shifted in at bit 0 a left shift is the plain one (R204). -/
theorem shiftLeft_false (v : Byte) : shiftLeft v false = v <<< 1 := BitVec.or_zero

/-- With 0 shifted in at bit 7 a right shift is the plain one (R205). -/
theorem shiftRight_false (v : Byte) : shiftRight v false = v >>> 1 := BitVec.or_zero

/-- The carry goes into a right rotate as the bit 7 (R207). -/
theorem shiftRight_eq (v : Byte) (c : Bool) : shiftRight v c = (v >>> 1) ||| (if c then 0x80 else 0) := by
  cases c <;> rfl

/-- The four rows are `shift` of the bit they move out and of the shifted byte, the rotates with the carry of the state
their operation starts from. -/
theorem operation_shift {n : Mnemonic} {v r : Byte} {c out : Bool}
    (h : (n = .asl ∧ r = v <<< 1 ∧ out = v.getLsbD 7) ∨ (n = .lsr ∧ r = v >>> 1 ∧ out = v.getLsbD 0) ∨
      (n = .rol ∧ r = (v <<< 1) ||| (if c then 1 else 0) ∧ out = v.getLsbD 7) ∨
      (n = .ror ∧ r = (v >>> 1) ||| (if c then 0x80 else 0) ∧ out = v.getLsbD 0)) :
    ∃ carry f, (∀ p t, t.flag .c = c → operation n p t = shift carry f p t) ∧ n ∈ [.asl, .lsr, .rol, .ror] ∧
      r = f v ∧ out = carry v := by
  obtain ⟨rfl, rfl, rfl⟩ | ⟨rfl, rfl, rfl⟩ | ⟨rfl, rfl, rfl⟩ | ⟨rfl, rfl, rfl⟩ := h
  · exact ⟨(·.getLsbD 7), (shiftLeft · false), fun _ _ _ => rfl, by decide, (shiftLeft_false v).symm, rfl⟩
  · exact ⟨(·.getLsbD 0), (shiftRight · false), fun _ _ _ => rfl, by decide, (shiftRight_false v).symm, rfl⟩
  · exact ⟨(·.getLsbD 7), (shiftLeft · c), by rintro p t rfl; rfl, by decide, rfl, rfl⟩
  · exact ⟨(·.getLsbD 0), (shiftRight · c), by rintro p t rfl; rfl, by decide, (shiftRight_eq v c).symm, rfl⟩

/-- RMW in the Accumulator mode makes no access: it changes A by the function (R124, R210). -/
theorem rmw_accumulator {p : Params} {v : Byte} (hm : p.mode = .accumulator) (ho : p.operand = some v)
    (f : Byte → State → Byte × State) (s : State) :
    rmw p f s = .next ((f v s).1, (f v s).2.setReg .accum (f v s).1) := by
  rw [rmw, hm]
  simp only [operandOf, ho, andThen_next]

section
variable {i : Instr} {e : Entry} {s : State} (he : i.entry = some e) (hn : e.name ∈ [Mnemonic.asl, .lsr, .rol, .ror])
  (hq : Quiet (execAccesses e) s) (hf : indexFaults e.mode i.byte1 i.byte2 s = false) (carry : Byte → Bool)
  (f : Byte → Byte)
include he hn

/-- A shift of A: no access is made, so C may be written before A or after it. -/
theorem shift_accumulator (hm : e.mode = .accumulator) :
    shift carry f (opParams i e s) (opStart e s) =
      .next ((((s.passed e).setReg .accum (f (s.reg .accum))).setFlag .c (carry (s.reg .accum))).setNZ
        (f (s.reg .accum))) := by
  have hoperand : (opParams i e s).operand = some (s.reg .accum) := by rw [opParams, hm]; rfl
  obtain ⟨-, ⟨-, hcount⟩ | ⟨hmem, -⟩, -⟩ := entry_rmw he (List.mem_of_mem_take (i := 4) hn)
  · have hpassed : opStart e s = s.passed e := by rw [← opStart_passed, hcount, State.addCycles_zero]
    rw [shift, rmw_accumulator hm hoperand, andThen_next, hpassed]
    rfl
  · exact absurd hm hmem

include hq hf

/-- A shift in memory: the byte read is that of the effective address, and the write back follows the write of C. -/
theorem Quiet.shift_memory (hm : e.mode ≠ .accumulator) :
    shift carry f (opParams i e s) (opStart e s) =
      .next ((((s.setCell (resolve s.cfg (addressOf i e.mode s)) (f (s.peek (addressOf i e.mode s)))).passed e).setFlag .c
        (carry (s.peek (addressOf i e.mode s)))).setNZ (f (s.peek (addressOf i e.mode s)))) := by
  have hrmw : e.name ∈ [Mnemonic.asl, .lsr, .rol, .ror, .inc, .dec] := List.mem_of_mem_take (i := 4) hn
  obtain ⟨-, ⟨hacc, -⟩ | ⟨-, hcount⟩, -⟩ := entry_rmw he hrmw
  · exact absurd hacc hm
  · have hstep := hq.rmw_op he hrmw hm hf (fun v s => (f v, s.setFlag .c (carry v))) f (fun _ _ _ => rfl)
      (fun _ _ => ⟨rfl, rfl, rfl⟩)
    rw [shift, hstep, andThen_next, ← passed_rmw _ hcount]
    rfl

end

/-- Settles O28: the rows are RMW in either mode, and the rest of fetch keeps the C that a rotate shifts in. -/
theorem shiftsMoveOneBit : Obligations.ShiftsMoveOneBit := by
  intro i e s v r out he hq hf hv hrow
  obtain ⟨carry, f, hop, hname, rfl, rfl⟩ := operation_shift hrow
  have hexec : exec i s = shift carry f (opParams i e s) (opStart e s) :=
    (hq.exec_op he hf).1.trans (hop _ _ (by rw [opStart, State.advance_flag, State.addCycles_flag]))
  by_cases hm : e.mode = .accumulator
  · rw [if_pos hm] at hv ⊢
    rw [hexec, shift_accumulator he hname carry f hm, hv]
  · rw [if_neg hm] at hv ⊢
    rw [hexec, hq.shift_memory he hname hf carry f hm, hv]

end Sys2Proof.Machine
end

section
/-!
PROOFS. 45_control.md: the jumps (R220), the subroutine call and its return (R221, R222), the trap and its return (R223,
R224, R268), what the returns undo, and the branches (R225 to R232, R236).
-/

namespace Sys2Proof.Machine

/-! ### JMP (R220, R108) -/

/-- The Absolute mode gives JMP and JSR the word of their operand bytes, and makes no access (R102). -/
theorem exec_absolute {i : Instr} {n : Mnemonic} {addr : Word} (h : i.entry = some ⟨n, .absolute, 3⟩)
    (hlo : i.byte1 = lowByte addr) (hhi : i.byte2 = highByte addr) (s : State) :
    exec i s = operation n { operand := none, address := addr, mode := .absolute, size := 3 } (s.setPc (s.pc + 3)) := by
  rw [exec_eq_runEntry h, hlo, hhi, runEntry, resolveMode, wordOf_low_high, andThen_next]
  rfl

theorem addressOf_jmpInd (addr : Word) (s : State) :
    addressOf (.jmpInd addr) .indirect s = wordOf (s.peek (indirectHigh s.cfg addr)) (s.peek addr) := by
  have hpointer : wordOf (Instr.jmpInd addr).byte2 (Instr.jmpInd addr).byte1 = addr := wordOf_low_high addr
  rw [addressOf, effectiveAddress, hpointer, State.peekWord]

/-- Settles O29: Absolute takes its address from the instruction, Indirect from the two reads of the rest of fetch. -/
theorem jumpsSetThePc : Obligations.JumpsSetThePc := by
  intro addr s
  refine ⟨exec_absolute (n := .jmp) rfl rfl rfl s, fun hq => ?_⟩
  have he : (Instr.jmpInd addr).entry = some ⟨.jmp, .indirect, 3⟩ := rfl
  rw [(hq.exec_op he rfl).1, ← addressOf_jmpInd]
  rfl

/-! ### JSR and RTS (R221, R222) -/

/-- Settles O30: JSR pushes the word before the next instruction's address, and pushing keeps every other register. -/
theorem jsrPushesAndJumps : Obligations.JsrPushesAndJumps := by
  intro addr s hq sp pushed
  have hlast : s.pc + 3 - 1 = s.pc + 2 := by bv_omega
  calc exec (.jsr addr) s
      = andThen (pushWord (s.pc + 3 - 1) (s.setPc (s.pc + 3))) fun t => .next (t.setPc addr) :=
        exec_absolute (n := .jsr) rfl rfl rfl s
    _ = .next (((pushed.addCycles 2).setReg .stack (sp - 2)).setPc addr) := by
        rw [hlast, (hq.setPc _).pushWord le_rfl, andThen_next]
        rfl

/-- Settles O31: RTS is one pulled word, to which it adds one. -/
theorem rtsPullsAndAddsOne : Obligations.RtsPullsAndAddsOne := by
  intro s hq sp
  calc exec .rts s = andThen (pullWord (s.setPc (s.pc + 1))) fun x => .next (x.2.setPc (x.1 + 1)) :=
        exec_implied (n := .rts) rfl s
    _ = .next (((s.addCycles 2).setReg .stack (sp + 2)).setPc
          (wordOf (s.peek (stackAddress (sp + 2))) (s.peek (stackAddress (sp + 1))) + 1)) := by
        rw [(hq.setPc _).pullWord le_rfl, andThen_next]
        rfl

/-! ### BRK and RTI (R223, R224, R268) -/

/-- Settles O32: BRK takes the trap with pc past its opcode, so the word pushed is its own address plus 2. -/
theorem brkTakesTheTrap : Obligations.BrkTakesTheTrap := by
  intro s hq sp pushed
  have hnext : s.pc + 1 + 1 = s.pc + 2 := by bv_omega
  have hpushed : pushed.setPc (s.pc + 1) = (((s.setPc (s.pc + 1)).setCell (resolve s.cfg (stackAddress sp))
      (highByte (s.pc + 1 + 1))).setCell (resolve s.cfg (stackAddress (sp - 1))) (lowByte (s.pc + 1 + 1))).setCell
      (resolve s.cfg (stackAddress (sp - 2))) (pushedStatus (s.reg .status)) := by
    rw [hnext]
    rfl
  calc exec .brk s = takeBreak (s.setPc (s.pc + 1)) := exec_implied (n := .brk) rfl s
    _ = .next ((((pushed.addCycles 5).setReg .stack (sp - 3)).setFlag .i true).setPc
          (wordOf (pushed.peek 0xFFFF) (pushed.peek 0xFFFE))) := by
        rw [(hq.setPc _).takeBreak le_rfl rfl hpushed]
        rfl

/-- STATUS pulled on a quiet machine, merged with the live one (R14, R171, R223). -/
theorem Quiet.pullStatus {n : Nat} {s : State} (h : Quiet n s) (hn : 1 ≤ n) :
    Machine.pullStatus s = .next (((s.addCycles 1).setReg .stack (s.reg .stack + 1)).setReg .status
      (pulledStatus (s.peek (stackAddress (s.reg .stack + 1))) (s.reg .status))) := by
  rw [Machine.pullStatus, h.pull hn, andThen_next]
  rfl

/-- Returning from the trap on a quiet machine: three pulls, the first of them STATUS (R223, R268). -/
theorem Quiet.returnFromBreak {n : Nat} {s : State} (h : Quiet n s) (hn : 3 ≤ n) :
    Machine.returnFromBreak s = .next ((((s.addCycles 3).setReg .status
      (pulledStatus (s.peek (stackAddress (s.reg .stack + 1))) (s.reg .status))).setReg .stack
      (s.reg .stack + 3)).setPc
      (wordOf (s.peek (stackAddress (s.reg .stack + 3))) (s.peek (stackAddress (s.reg .stack + 2))))) := by
  have hlow : s.reg .stack + 1 + 1 = s.reg .stack + 2 := by bv_omega
  have hhigh : s.reg .stack + 1 + 2 = s.reg .stack + 3 := by bv_omega
  have hrest := ((h.addCycles (k := 1) (by omega)).setReg .stack (s.reg .stack + 1)).setReg .status
    (pulledStatus (s.peek (stackAddress (s.reg .stack + 1))) (s.reg .status))
  rw [Machine.returnFromBreak, h.pullStatus (by omega), andThen_next, hrest.pullWord (by omega), andThen_next]
  simp only [State.setReg_reg, reduceCtorEq, if_false, if_true, hlow, hhigh]
  rw [← State.addCycles_add s 1 2]
  rfl

/-- Settles O33: RTI is the return from the trap, which sets pc last. -/
theorem rtiReturnsFromTheTrap : Obligations.RtiReturnsFromTheTrap := by
  intro s hq sp p
  calc exec .rti s = returnFromBreak (s.setPc (s.pc + 1)) := exec_implied (n := .rti) rfl s
    _ = .next ((((s.addCycles 3).setReg .status p).setReg .stack (sp + 3)).setPc
          (wordOf (s.peek (stackAddress (sp + 3))) (s.peek (stackAddress (sp + 2))))) :=
        (hq.setPc _).returnFromBreak le_rfl

/-! ### A return undoes its call (R221 to R224, R268) -/

/-- A quiet machine that has counted `k` accesses, whatever they wrote, is quiet for those left. -/
theorem Quiet.of_counted {n m k : Nat} {s t : State} (h : Quiet n s) (hn : k + m ≤ n) (hcfg : t.cfg = s.cfg)
    (hlisteners : t.listeners = s.listeners) (hcycles : t.cycles = (s.addCycles k).cycles) : Quiet m t where
  noListener := hlisteners.trans h.noListener
  noDevice := by rw [hcfg]; exact h.noDevice
  routable := by rw [hcfg]; exact h.routable
  room := by
    have hroom := h.room
    rw [hcycles, h.cycles (by omega)]
    omega

/-- A peek after a write to a cell. -/
theorem State.peek_setCell (s : State) (r : Nat) (v : Byte) (a : Word) :
    (s.setCell r v).peek a = if resolve s.cfg a = r then v else s.peek a :=
  State.setCell_cell ..

/-- Bytes stored at addresses of distinct cells are all read back. -/
theorem State.peek_twoCells {s : State} {a b : Word} (hab : resolve s.cfg a ≠ resolve s.cfg b) (x y : Byte) :
    ((s.setCell (resolve s.cfg a) x).setCell (resolve s.cfg b) y).peek a = x ∧
    ((s.setCell (resolve s.cfg a) x).setCell (resolve s.cfg b) y).peek b = y := by
  simp only [State.peek_setCell, State.setCell_cfg, if_neg hab, if_true, and_self]

theorem State.peek_threeCells {s : State} {a b c : Word} (hab : resolve s.cfg a ≠ resolve s.cfg b)
    (hac : resolve s.cfg a ≠ resolve s.cfg c) (hbc : resolve s.cfg b ≠ resolve s.cfg c) (x y z : Byte) :
    (((s.setCell (resolve s.cfg a) x).setCell (resolve s.cfg b) y).setCell (resolve s.cfg c) z).peek a = x ∧
    (((s.setCell (resolve s.cfg a) x).setCell (resolve s.cfg b) y).setCell (resolve s.cfg c) z).peek b = y ∧
    (((s.setCell (resolve s.cfg a) x).setCell (resolve s.cfg b) y).setCell (resolve s.cfg c) z).peek c = z := by
  simp only [State.peek_setCell, State.setCell_cfg, if_neg hab, if_neg hac, if_neg hbc, if_true, and_self]

/-- The STATUS that BRK pushes, pulled over the live one in which BRK has set I, is the STATUS before (R14, R268). -/
theorem pulledStatus_pushedStatus (p : Byte) (b : Bool) : pulledStatus (pushedStatus p) (withFlag p .i b) = p := by
  refine status_ext fun f => ?_
  rw [flagOf_pulledStatus, flagOf_pushedStatus, flagOf_withFlag]
  by_cases hf : f = .b ∨ f = .unused
  · have hi : f ≠ .i := by rintro rfl; exact absurd hf (by decide)
    rw [if_pos hf, if_neg hi]
  · rw [if_neg hf, if_neg hf]

/-- RTS where a call has left its frame: SP is back above the two cells, and pc is past the word they hold. -/
theorem Quiet.rts_of_frame {t : State} {sp : Byte} {w : Word} (hq : Quiet 2 t) (hsp : t.reg .stack = sp - 2)
    (hhigh : t.peek (stackAddress sp) = highByte w) (hlow : t.peek (stackAddress (sp - 1)) = lowByte w) :
    Machine.exec .rts t = .next (((t.addCycles 2).setReg .stack sp).setPc (w + 1)) := by
  have htop : t.reg .stack + 2 = sp := by rw [hsp]; bv_omega
  have hbelow : t.reg .stack + 1 = sp - 1 := by rw [hsp]; bv_omega
  rw [rtsPullsAndAddsOne t hq, htop, hbelow, hhigh, hlow, wordOf_low_high]

/-- RTI where the trap has left its frame: SP is back above the three cells, pc is the word, and STATUS is the byte with
bits 4 and 5 of the live one. -/
theorem Quiet.rti_of_frame {t : State} {sp p : Byte} {w : Word} (hq : Quiet 3 t) (hsp : t.reg .stack = sp - 3)
    (hhigh : t.peek (stackAddress sp) = highByte w) (hlow : t.peek (stackAddress (sp - 1)) = lowByte w)
    (hstatus : t.peek (stackAddress (sp - 2)) = p) :
    Machine.exec .rti t = .next ((((t.addCycles 3).setReg .status (pulledStatus p (t.reg .status))).setReg .stack
      sp).setPc w) := by
  have htop : t.reg .stack + 3 = sp := by rw [hsp]; bv_omega
  have hbelow : t.reg .stack + 2 = sp - 1 := by rw [hsp]; bv_omega
  have hbottom : t.reg .stack + 1 = sp - 2 := by rw [hsp]; bv_omega
  rw [rtiReturnsFromTheTrap t hq, htop, hbelow, hbottom, hhigh, hlow, hstatus, wordOf_low_high]
  rfl

section
variable {s : State} (hq : Quiet 8 s)
  (h01 : resolve s.cfg (stackAddress (s.reg .stack)) ≠ resolve s.cfg (stackAddress (s.reg .stack - 1)))
include hq h01

/-- RTS undoes JSR: its frame is the address of JSR's last byte. -/
theorem rts_undoes_jsr (addr : Word) :
    ∃ t u, exec (.jsr addr) s = .next t ∧ t.pc = addr ∧ exec .rts t = .next u ∧ u.regs = s.regs ∧ u.pc = s.pc + 3 := by
  obtain ⟨hhigh, hlow⟩ := State.peek_twoCells h01 (highByte (s.pc + 2)) (lowByte (s.pc + 2))
  have hpast : s.pc + 2 + 1 = s.pc + 3 := by bv_omega
  refine ⟨_, _, jsrPushesAndJumps addr s (hq.mono (by omega)), rfl,
    Quiet.rts_of_frame (sp := s.reg .stack) ?quiet rfl hhigh hlow, rfl, hpast⟩
  exact hq.of_counted (k := 2) (by omega) rfl rfl rfl

/-- RTI undoes BRK: its frame is BRK's address plus 2, and the STATUS that differs from the live one in I alone. -/
theorem rti_undoes_brk
    (h02 : resolve s.cfg (stackAddress (s.reg .stack)) ≠ resolve s.cfg (stackAddress (s.reg .stack - 2)))
    (h12 : resolve s.cfg (stackAddress (s.reg .stack - 1)) ≠ resolve s.cfg (stackAddress (s.reg .stack - 2))) :
    ∃ t u, exec .brk s = .next t ∧ t.flag .i = true ∧ exec .rti t = .next u ∧ u.regs = s.regs ∧ u.pc = s.pc + 2 := by
  obtain ⟨hhigh, hlow, hstatus⟩ := State.peek_threeCells h01 h02 h12 (highByte (s.pc + 2)) (lowByte (s.pc + 2))
    (pushedStatus (s.reg .status))
  refine ⟨_, _, brkTakesTheTrap s (hq.mono (by omega)), ?flag,
    Quiet.rti_of_frame (sp := s.reg .stack) ?quiet rfl hhigh hlow hstatus, ?regs, rfl⟩
  case flag => exact (State.setFlag_flag ..).trans (if_pos rfl)
  case quiet => exact hq.of_counted (k := 5) (by omega) rfl rfl rfl
  case regs =>
    simp only [State.setPc_regs, State.setFlag, State.setReg_regs, State.addCycles_regs, State.setCell_regs,
      State.setPc_reg, State.setReg_reg, State.addCycles_reg, State.setCell_reg, reduceCtorEq, if_true, if_false,
      pulledStatus_pushedStatus]
    rfl

end

/-- Settles O34: the cells that stand apart keep each pushed byte until it is pulled. -/
theorem returnsUndoCalls : Obligations.ReturnsUndoCalls := by
  intro s addr hq cell h01
  have hcell0 : cell 0 = resolve s.cfg (stackAddress (s.reg .stack)) :=
    congrArg (fun sp => resolve s.cfg (stackAddress sp)) (BitVec.sub_zero (s.reg .stack))
  rw [hcell0] at h01 ⊢
  exact ⟨rts_undoes_jsr hq h01 addr, rti_undoes_brk hq h01⟩

/-! ### Branches (R225 to R232, R236) -/

/-- The target of a branch, counted in numbers (R114). -/
theorem branchTarget_eq_ofInt (pc : Word) (off : Byte) :
    pc + 2 + signExtend off = BitVec.ofInt 16 ((pc.toNat : Int) + 2 + off.toInt) := by
  apply BitVec.eq_of_toNat_eq
  have htarget := toNat_branchTarget pc off
  rw [BitVec.toNat_ofInt]
  omega

/-- A row of two bytes whose operation is `branch` reads its offset and no more: it writes pc, and nothing else, on any
machine (R236). -/
theorem branch_row {i : Instr} {n : Mnemonic} {f : Flag} {v : Bool} {op off : Byte} (henc : encode i = [op, off])
    (he : i.entry = some ⟨n, .relative, 2⟩) (hacc : accesses ⟨n, .relative, 2⟩ = 2) (hop : operation n = branch f v)
    (s : State) :
    encode i = [op, off] ∧ (∃ n, i.entry = some ⟨n, .relative, 2⟩ ∧ accesses ⟨n, .relative, 2⟩ = 2) ∧
      exec i s = .next (s.setPc (if s.flag f = v
        then BitVec.ofInt 16 ((s.pc.toNat : Int) + 2 + off.toInt) else s.pc + 2)) := by
  refine ⟨henc, ⟨n, he, hacc⟩, ?_⟩
  have hoff : i.byte1 = off := by rw [Instr.byte1, henc]; rfl
  have hexec : exec i s = branch f v
      { operand := none, address := s.pc + 2 + signExtend i.byte1, mode := .relative, size := 2 }
      (s.setPc (s.pc + 2)) := by
    rw [exec_eq_runEntry he, hop]
    rfl
  rw [hexec, branch, State.setPc_flag, hoff, branchTarget_eq_ofInt]
  by_cases htaken : s.flag f = v
  · rw [if_pos htaken, if_pos htaken]
    rfl
  · rw [if_neg htaken, if_neg htaken]

/-- The offset 0xFE counts back the two bytes of the branch (R236). -/
theorem branchTarget_self (pc : Word) : BitVec.ofInt 16 ((pc.toNat : Int) + 2 + (0xFE : Byte).toInt) = pc := by
  have hback : (pc.toNat : Int) + 2 + (0xFE : Byte).toInt = pc.toNat := Int.add_neg_cancel_right _ 2
  rw [hback, BitVec.ofInt_natCast, BitVec.ofNat_toNat, BitVec.setWidth_eq]

/-- Settles O35: the eight rows are `branch` of one flag and one value. -/
theorem branchesTestOneFlag : Obligations.BranchesTestOneFlag := by
  intro off s
  refine ⟨?_, by rintro rfl; exact branchTarget_self s.pc⟩
  simp only [List.forall_mem_cons, List.not_mem_nil, false_imp_iff, implies_true, and_true]
  exact ⟨branch_row rfl rfl rfl rfl s, branch_row rfl rfl rfl rfl s, branch_row rfl rfl rfl rfl s,
    branch_row rfl rfl rfl rfl s, branch_row rfl rfl rfl rfl s, branch_row rfl rfl rfl rfl s,
    branch_row rfl rfl rfl rfl s, branch_row rfl rfl rfl rfl s⟩

end Sys2Proof.Machine
end

section
/-!
PROOFS. 46_flags_misc.md: the flag instructions (R240 to R246) and NOP (R247).
-/

namespace Sys2Proof.Machine

/-- A one-byte row whose operation is `writeFlag` reads nothing after its opcode: it writes the flag and pc, nothing else,
and completes on any machine. -/
theorem flag_row {i : Instr} {n : Mnemonic} {f : Flag} {v : Bool} {op : Byte} (henc : encode i = [op])
    (he : i.entry = some ⟨n, .implied, 1⟩) (hacc : accesses ⟨n, .implied, 1⟩ = 1) (hop : operation n = writeFlag f v)
    (s : State) :
    encode i = [op] ∧ (∃ n, i.entry = some ⟨n, .implied, 1⟩ ∧ accesses ⟨n, .implied, 1⟩ = 1) ∧
      exec i s = .next ((s.setPc (s.pc + 1)).setFlag f v) :=
  ⟨henc, ⟨n, he, hacc⟩, by rw [exec_implied he, hop, writeFlag]⟩

/-- Settles O36: seven rows are `writeFlag` of one flag and one value, and NOP leaves the machine with pc past it. -/
theorem flagInstructionsWriteOneFlag : Obligations.FlagInstructionsWriteOneFlag := by
  refine fun s => ⟨?flags, rfl, rfl, rfl, exec_implied (n := .nop) rfl s⟩
  simp only [List.forall_mem_cons, List.not_mem_nil, false_imp_iff, implies_true, and_true]
  exact ⟨flag_row rfl rfl rfl rfl s, flag_row rfl rfl rfl rfl s, flag_row rfl rfl rfl rfl s,
    flag_row rfl rfl rfl rfl s, flag_row rfl rfl rfl rfl s, flag_row rfl rfl rfl rfl s, flag_row rfl rfl rfl rfl s⟩

end Sys2Proof.Machine
end

section
/-!
PROOFS. 60_exceptions.md: the byte that is UNIMPLEMENTED (R260), and the record every fault leaves (R261, R263, R264).
-/

namespace Sys2Proof.Machine

/-- Settles O38: the raise of R260 comes right after the opcode read, which counts one cycle and leaves the CPU alone. -/
theorem unimplementedByteFaults : Obligations.UnimplementedByteFaults := by
  refine ⟨fun _ _ => rfl, fun op s u hr hf hop hm => ?_⟩
  have hread := memRead_effect hop
  refine ⟨?_, hread.cpu.regs, hread.cpu.pc, hread.cycles⟩
  rw [step_of_unimplemented hr hf hop hm, ← hread.cpu.pc]
  rfl

/-- How a step faults: UnimplementedOpcode on the byte it read, or at an access or an indexed sum, with pc at the
instruction or just past the documented one whose opcode was read (R120, R260, R261, R263). -/
theorem step_fault_cases {s : State} {f : Fault} (h : step s = .fault f) :
    (∃ op u, memRead s.pc s = .next (op, u) ∧ metadata op = none ∧
      f = .unimplementedOpcode (u.withFault .unimplementedOpcode (.opcode op))) ∨
    (Recorded s.cfg f ∧ (f.after.pc = s.pc ∨ ∃ op u e, memRead s.pc s = .next (op, u) ∧ metadata op = some e ∧
      f.after.pc = s.pc + BitVec.ofNat 16 e.size)) := by
  obtain ⟨hr, hf⟩ := enabled_of_fault h
  cases hop : memRead s.pc s with
  | refused r => simp at hop
  | fault g =>
    rw [step_of_opcode_fault hr hf hop] at h
    cases h
    have hpath := Path.memRead s.pc s
    exact .inr ⟨hpath.recorded f hop, .inl (hpath.faultCfg f hop).2.2⟩
  | next x =>
    obtain ⟨op, u⟩ := x
    cases hm : metadata op with
    | none =>
      rw [step_of_unimplemented hr hf hop hm] at h
      cases h
      exact .inl ⟨op, u, rfl, hm, rfl⟩
    | some e =>
      obtain ⟨-, hrec, -, -, hpc⟩ := (step_ends hr hf hop hm).fault f h
      exact .inr ⟨hrec, hpc.imp_right fun hpast => ⟨op, u, e, rfl, hm, hpast⟩⟩

/-- Settles O47: of the two ways a step faults, the first writes the opcode byte, and the second writes what `Recorded`
says. -/
theorem faultWritesItsRecord : Obligations.FaultWritesItsRecord := by
  intro s f h
  obtain ⟨op, u, hop, hm, rfl⟩ | ⟨hrec, hpc⟩ := step_fault_cases h
  · have hpc : u.pc = s.pc := (memRead_effect hop).cpu.pc
    exact ⟨.opcode op, rfl, fun _ => ⟨op, u, hop, hm, rfl, hpc⟩, nofun, nofun, .inl hpc⟩
  · obtain ⟨d, hd, hrange, hover⟩ := hrec.record
    exact ⟨d, hd, fun hk => absurd hk hrec.kind, hrange, hover, hpc⟩

end Sys2Proof.Machine
end

section
/-!
PROOFS. 70_reset_and_hazards.md: construction, reset and the host's ports (R290 to R296), the invariant at the host's
hands, and what a step costs (R310, R311).
-/

namespace Sys2Proof.Machine

/-! ### The cost of a step (R310, R311) -/

/-- Settles O44: an enabled step whose opcode read gave a documented byte ends after its accesses, or faults on the way
there. -/
theorem stepCostsItsAccesses : Obligations.StepCostsItsAccesses := by
  intro s u op e hr hf hop hm
  have hends := step_ends hr hf hop hm
  exact ⟨hends.cycles, fun f h => (hends.fault f h).1⟩

/-! ### Construction, the ports and reset, field by field (R290 to R292, R296) -/

section
variable (w : Word) (s : State)

theorem construct_of_wellFormed {c : Config} (h : c.wellFormed = true) : construct c = .success (constructed c) :=
  if_pos h

theorem construct_of_illFormed {c : Config} (h : c.wellFormed = false) : construct c = .refused .illFormedConfig := by
  rw [construct, h]
  rfl

@[simp] theorem constructed_reg (c : Config) (r : Reg) : (constructed c).reg r = 0 := by cases r <;> rfl

theorem readReg_of_reset {s : State} (h : s.resetDone = true) (r : Reg) : readReg r s = .success (s.reg r) := if_pos h

theorem readReg_of_notReset {s : State} (h : s.resetDone = false) (r : Reg) : readReg r s = .refused .notReset := by
  rw [readReg, h]
  rfl

theorem readState_of_reset {s : State} (h : s.resetDone = true) : readState s = .success
    { regs := s.regs, pc := s.pc, cycles := s.cycles, listeners := s.listeners, fault := s.fault } := if_pos h

theorem readState_of_notReset {s : State} (h : s.resetDone = false) : readState s = .refused .notReset := by
  rw [readState, h]
  rfl

@[simp] theorem writeRegister_reg (r q : Reg) (v : Byte) :
    (writeRegister r v s).reg q = if q = r then v else s.reg q := State.setReg_reg s r q v

theorem writeRegister_reg_of_ne {r q : Reg} (h : q ≠ r) (v : Byte) : (writeRegister r v s).reg q = s.reg q := by
  rw [writeRegister_reg, if_neg h]

@[simp] theorem hostReset_reg (r : Reg) : (hostReset w s).reg r = 0 := by cases r <;> rfl

@[simp] theorem hostReset_listeners : (hostReset w s).listeners = s.listeners := by
  unfold hostReset discardMemory
  split <;> rfl

@[simp] theorem hostReset_nextSeq : (hostReset w s).nextSeq = s.nextSeq := by
  unfold hostReset discardMemory
  split <;> rfl

@[simp] theorem hostReset_deviceLog : (hostReset w s).deviceLog = s.deviceLog := by
  unfold hostReset discardMemory
  split <;> rfl

/-- Reset depends on no register (R291). -/
theorem hostReset_writeRegister (r : Reg) (v : Byte) : hostReset w (writeRegister r v s) = hostReset w s := by
  cases h : s.cfg.resetMemory <;> simp [hostReset, discardMemory, writeRegister, h]

variable {s}

theorem discardMemory_of_preserved (h : s.cfg.resetMemory = .preserved) : discardMemory s = s := by
  simp [discardMemory, h]

theorem discardMemory_of_unspecified (h : s.cfg.resetMemory = .unspecified) :
    discardMemory s = { s with mem := [], memEpoch := s.memEpoch + 1 } := by
  simp [discardMemory, h]

theorem hostReset_cell_of_preserved (h : s.cfg.resetMemory = .preserved) (r : Nat) :
    (hostReset w s).cell r = s.cell r :=
  State.cell_congr (congrArg State.mem (discardMemory_of_preserved h))
    (congrArg State.memEpoch (discardMemory_of_preserved h)) r

theorem hostReset_mem_of_unspecified (h : s.cfg.resetMemory = .unspecified) : (hostReset w s).mem = [] :=
  congrArg State.mem (discardMemory_of_unspecified h)

end

/-- Settles O55: the registers, pc and the fault status are written outright, and only memory depends on
RESET_MEMORY. -/
theorem resetZeroesRegistersAndKeepsTime : Obligations.ResetZeroesRegistersAndKeepsTime := by
  intro start s
  exact ⟨hostReset_reg start s, rfl, rfl, rfl, hostReset_cycles start s, hostReset_listeners start s,
    hostReset_nextSeq start s, hostReset_deviceLog start s, hostReset_cfg start s, hostReset_cell_of_preserved start,
    fun h r => by rw [hostReset_mem_of_unspecified start h]; rfl,
    rfl, rfl, hostReset_cycles start _, hostReset_listeners start _, rfl⟩

/-- Settles O56: a constructed machine has not been reset, and a reset one is enabled, so its step is not refused. -/
theorem constructionWaitsForReset : Obligations.ConstructionWaitsForReset := by
  refine fun c => ⟨construct_of_illFormed, fun hc => ⟨constructed c, construct_of_wellFormed hc, rfl, rfl, rfl, rfl,
    rfl, step_of_notReset rfl, readReg_of_notReset rfl, fun w => ⟨step_ne_refused rfl rfl _, fun r => ?_⟩⟩⟩
  rw [readReg_of_reset rfl, hostReset_reg]

/-- Settles O60: each port is its record update, and `read_state` is by `reset_done`. -/
theorem hostPortsListenersAndReadState : Obligations.HostPortsListenersAndReadState :=
  fun s => ⟨fun _ _ => rfl,
    fun r v => ⟨by rw [writeRegister_reg, if_pos rfl], fun _ hq => writeRegister_reg_of_ne s hq v, rfl⟩,
    fun _ => rfl, readState_of_reset, readState_of_notReset⟩

/-! ### The invariant at the host's hands (R11, R14, R290, R291, R296) -/

theorem constructed_inv {c : Config} (h : c.wellFormed = true) : (constructed c).Inv :=
  ⟨h, rfl, nofun, .nil, nofun, by rw [constructed_reg]; decide, rfl, rfl, rfl⟩

theorem discardMemory_inv {s : State} (h : s.Inv) : (discardMemory s).Inv := by
  cases hm : s.cfg.resetMemory with
  | preserved => rwa [discardMemory_of_preserved hm]
  | unspecified =>
    rw [discardMemory_of_unspecified hm]
    exact ⟨h.config, rfl, nofun, h.ordered, h.registered, h.statusBits, h.spare⟩

/-- Reset keeps the clauses about memory and listeners, and makes those about the registers hold. -/
theorem hostReset_inv {s : State} (h : s.Inv) (w : Word) : (hostReset w s).Inv := by
  obtain ⟨hconfig, hmemory, hbounded, hordered, hregistered, -, -⟩ := discardMemory_inv h
  exact ⟨hconfig, hmemory, hbounded, hordered, hregistered, by rw [hostReset_reg]; decide, rfl, rfl, rfl⟩

/-- The clauses about STATUS and the spare slots after a written register: those of the other registers stay (R11, R14). -/
theorem writeRegister_reserved {s : State} (h : s.Inv) (r : Reg) (v : Byte) :
    (r ≠ .status → (writeRegister r v s).reg .status &&& 0x30 = 0) ∧
    (r ∉ [Reg.s5, .s6, .s7] → (writeRegister r v s).reg .s5 = 0 ∧ (writeRegister r v s).reg .s6 = 0 ∧
      (writeRegister r v s).reg .s7 = 0) := by
  refine ⟨fun hr => by rw [writeRegister_reg_of_ne s hr.symm]; exact h.statusBits, fun hr => ?_⟩
  simp only [List.mem_cons, List.not_mem_nil, or_false, not_or] at hr
  obtain ⟨h5, h6, h7⟩ := hr
  rw [writeRegister_reg_of_ne s (Ne.symm h5), writeRegister_reg_of_ne s (Ne.symm h6),
    writeRegister_reg_of_ne s (Ne.symm h7)]
  exact h.spare

/-- Settles O59: the mapper's operations, the ports and reset keep the invariant, each by its own lemma; a written register
leaves the clauses that do not name it. -/
theorem invariantKeptByTheHost : Obligations.InvariantKeptByTheHost := by
  refine ⟨fun c => constructed_inv, fun s h => ⟨hostWrite_inv h, hostRead_inv h, hostRead16_inv h, hostWriteArray_inv h,
    addListener_inv h, setPc_inv h, hostReset_inv h, ?others, fun r v q hq => writeRegister_reg_of_ne s hq v,
    fun v hv => setStatus_inv h (hv.trans h.statusBits.symm),
    fun r v => ⟨h.config, h.memory, h.bounded, h.ordered, h.registered, writeRegister_reserved h r v⟩, ?reset⟩⟩
  case others => exact fun r v hr => setReg_inv h (by simpa using hr) v
  case reset =>
    intro r v w
    rw [hostReset_writeRegister]
    exact hostReset_inv h w

/-- Settles O57: the reset state is reset of a constructed machine, so it meets the invariant as every such state does. -/
theorem resetStateIsSafeAndDerived : Obligations.ResetStateIsSafeAndDerived := by
  have hwf : Config.default.wellFormed = true := by decide
  have hderived : hostReset 0x0000 (constructed Config.default) = State.reset := rfl
  exact ⟨hderived ▸ hostReset_inv (constructed_inv hwf) 0x0000, construct_of_wellFormed hwf, hderived⟩

end Sys2Proof.Machine
end
